-- ==== Sys2Proof/Word.lean ====
section
/-! DEFINITION. The word and byte types of the Huffman codec block, and the two sequences its rules speak of.
Values are unsigned bit vectors numbered from the least significant bit (R10); a bit-string is a finite sequence
over two characters (R11), kept here as a list of Booleans with `true` for the character '1'. -/

namespace Sys2Proof

/-- One 32-bit word: a register, a command word or a word of a window (R8 "host data width"). -/
abbrev Word := BitVec 32

/-- One byte: a symbol of the alphabet (R8) or a byte of TEXT_MEM or BITS_MEM. -/
abbrev Byte := BitVec 8

/-- A byte offset inside the aperture: 20 bits (R8 "host offset width", R64). -/
abbrev Offset := BitVec 20

/-- A bit-string (R11): `false` is the character '0', `true` the character '1'; the head is the character nearest
the tree root. -/
abbrev Code := List Bool

end Sys2Proof
end

