-- ==== Sys2Proof/Machine/Data.lean ====
section
/-! DEFINITION. The data formats of the block's memories (R45 to R49, R52) as plain types: tree nodes, code-table
entries, the pairs of the decoder's set, the bit characters, and the two shapes of storage (a full table of 256
entries, a sparse list). -/

namespace Sys2Proof.Machine

/-- R48: one tree node, "tagged union of Leaf: symbol, frequency; Internal: left child, right child, frequency".
LEFT and RIGHT are 9-bit node indices. -/
inductive Node where
  | leaf (symbol : Byte) (freq : Word)
  | internal (left right : BitVec 9) (freq : Word)
deriving DecidableEq, Repr, Inhabited

/-- R49: one code-table entry. BITS[j] for j < LEN is code character j; the bits at and above LEN are stored and
never used. -/
structure CtEntry where
  valid : Bool
  len : Byte
  bits : BitVec 256
deriving DecidableEq, Repr, Inhabited

/-- A pair (symbol, code) of the decodable set (R150) and of TRIE (R52). -/
structure CodePair where
  symbol : Byte
  code : Code
deriving DecidableEq, Repr, Inhabited

/-- R154: a byte of BITS_MEM read as a character; `other` is the character written `?`. -/
inductive BitChar where
  | zero
  | one
  | other
deriving DecidableEq, Repr, Inhabited

/-- R123: a node waiting in the tree builder's queue, with its frequency beside it. -/
structure QueueItem where
  node : Nat
  freq : Word
deriving DecidableEq, Repr, Inhabited

/-- One entry for each of the 256 symbols (FREQ, R47; CT, R49). -/
abbrev Table (α : Type) := Vector α 256

/-- Sparse storage: pairs of an index and a value, indices strictly rising. An index that is not listed has not been
written since reset. -/
abbrev Sparse (α : Type) := List (Nat × α)

end Sys2Proof.Machine
end

