-- ==== Sys2Proof/Config.lean ====
section
/-! DEFINITION. The parameters of a block (R7), the quantities R8 fixes, and the free values: constants without a
body, one for each value the spec leaves to a draw ("any value", R12), applied to a counter of the state. -/

namespace Sys2Proof

/-- R7: the parameters one block is built with. They are fixed for a block and no step changes them (R20). LATENCY
is a draw, not a number (`Config.latency`); BUS_PROTOCOL has no effect on any rule (R61). -/
structure Params where
  base : Nat
  textCap : Nat
  bitsCap : Nat
  trieCap : Nat
deriving DecidableEq, Repr, Inhabited

namespace Config

/-- R7's defaults. BASE is OPEN; the value here is a DESIGN CHOICE (log 3) that no operation of the block reads. -/
def defaults : Params := ⟨0, 65536, 524288, 511⟩

/-- R22: the constant the ID register reads. -/
def idValue : Word := 0x48554646#32

/-- R8: nodes of the arena. -/
def nodeCap : Nat := 511

/-- R8, R137: the greatest code length. -/
def maxCodeLen : Nat := 255

/-- R75, S1: what a read of a result register or window gives while BUSY = 1, by the number of the draw. -/
opaque busyRead : Nat → Word

/-- R7 LATENCY, R235, R236, S4: how many turns of the host, and so how many accesses, come between a command's issue and
its completion, by the number of the draw. -/
opaque latency : Nat → Nat

/-- R45, R226, S2: TEXT_MEM byte i as the reset with this number left it. -/
opaque textFill : Nat → Nat → Byte

/-- R46, R226, S2: BITS_MEM byte i as the reset with this number left it. -/
opaque bitsFill : Nat → Nat → Byte

/-- R99, R226, S2: word 0 or 1 (`true`) of NODE[i] as the reset with this number left it: any word at all (log 6). -/
opaque nodeFill : Nat → Nat → Bool → Word

end Config
end Sys2Proof
end

