-- ==== Sys2Proof/Syntax.lean ====
section
/-! DEFINITION. The instructions of the block: the ten commands of R3 and R92, one constructor for each row of the
opcode table. A command has no immediate and no register operand (R91), so no constructor takes an argument. -/

namespace Sys2Proof

/-- R3, R92: the ten commands. -/
inductive Instr where
  | nop
  | clear
  | countFreq
  | buildTree
  | genCodes
  | serialize
  | encode
  | buildDecodeTree
  | deserialize
  | decode
deriving DecidableEq, Repr, Inhabited

/-- R92: the three groups that bits 7:4 of the opcode name. -/
inductive Group where
  | control
  | encoder
  | decoder
deriving DecidableEq, Repr, Inhabited

/-- R92: the group of a command. -/
def Instr.group : Instr → Group
  | .nop => .control
  | .clear => .control
  | .countFreq => .encoder
  | .buildTree => .encoder
  | .genCodes => .encoder
  | .serialize => .encoder
  | .encode => .encoder
  | .buildDecodeTree => .decoder
  | .deserialize => .decoder
  | .decode => .decoder

end Sys2Proof
end

