-- ==== Sys2Proof/WellFormed.lean ====
section
/-! DEFINITION. Well-formedness of what stands outside the state: a command and a block's parameters. -/

namespace Sys2Proof

/-- R91: a command has no operand, so there is nothing a command could get wrong: every one is well formed. -/
def Instr.wellFormed : Instr → Bool
  | .nop => true
  | .clear => true
  | .countFreq => true
  | .buildTree => true
  | .genCodes => true
  | .serialize => true
  | .encode => true
  | .buildDecodeTree => true
  | .deserialize => true
  | .decode => true

/-- R7: BASE is a multiple of 2^20. -/
def Params.baseLegal (p : Params) : Bool := p.base % 2 ^ 20 == 0

/-- R7: TEXT_CAP is 1 to 65536. -/
def Params.textCapLegal (p : Params) : Bool := decide (1 ≤ p.textCap ∧ p.textCap ≤ 65536)

/-- R7: BITS_CAP is 1 to 524288. -/
def Params.bitsCapLegal (p : Params) : Bool := decide (1 ≤ p.bitsCap ∧ p.bitsCap ≤ 524288)

/-- R7: TRIE_CAP is 511 to 65536. -/
def Params.trieCapLegal (p : Params) : Bool := decide (511 ≤ p.trieCap ∧ p.trieCap ≤ 65536)

/-- R7: the legal parameter values. -/
def Params.legal (p : Params) : Bool :=
  p.baseLegal && p.textCapLegal && p.bitsCapLegal && p.trieCapLegal

end Sys2Proof
end

