-- ==== Sys2Proof/Decode.lean ====
section
/-! DEFINITION. The command word (R90): a decoder that is total on every word and rejects by name (R93, R94), and the
encoder written from the same table (R92). -/

namespace Sys2Proof

/-- Why a word is no command (R94). Either way the word is the illegal command of R113. -/
inductive DecodeError where
  /-- R90: bits 31:8 (the field ZERO) are not 0. -/
  | zeroFieldSet
  /-- R94: ZERO is 0 and OPCODE is none of the ten. -/
  | reservedOpcode
deriving DecidableEq, Repr

/-- R90: the field OPCODE, bits 7:0. -/
def opcodeField (w : Word) : Byte := w.extractLsb' 0 8

/-- R90: the field ZERO, bits 31:8. -/
def zeroField (w : Word) : BitVec 24 := w.extractLsb' 8 24

/-- R92: the command an opcode selects. -/
def decodeOpcode (op : Byte) : Except DecodeError Instr :=
  match op.toNat with
  | 0x00 => .ok .nop
  | 0x01 => .ok .clear
  | 0x10 => .ok .countFreq
  | 0x11 => .ok .buildTree
  | 0x12 => .ok .genCodes
  | 0x13 => .ok .serialize
  | 0x1F => .ok .encode
  | 0x20 => .ok .buildDecodeTree
  | 0x21 => .ok .deserialize
  | 0x2F => .ok .decode
  | _ => .error .reservedOpcode

/-- R93: the command a word is, or why it is none. Decoding never depends on state. -/
def decodeWord (w : Word) : Except DecodeError Instr :=
  if zeroField w = 0#24 then decodeOpcode (opcodeField w) else .error .zeroFieldSet

/-- R92: the opcode of a command. -/
def Instr.opcode : Instr → Byte
  | .nop => 0x00#8
  | .clear => 0x01#8
  | .countFreq => 0x10#8
  | .buildTree => 0x11#8
  | .genCodes => 0x12#8
  | .serialize => 0x13#8
  | .encode => 0x1F#8
  | .buildDecodeTree => 0x20#8
  | .deserialize => 0x21#8
  | .decode => 0x2F#8

/-- R92: "The whole command word of each is zext_32(OPCODE)". -/
def encodeWord (i : Instr) : Word := i.opcode.setWidth 32

/-- The command the decoder reads from a table row's bits (bits at and above `nbits` are 0; the block's command word
has 32 bits). -/
def decodeTableWord (nbits w : Nat) : Option Instr :=
  if nbits ≤ 32 then
    match decodeWord (BitVec.ofNat 32 (w % 2 ^ nbits)) with
    | .ok i => some i
    | .error _ => none
  else none

end Sys2Proof
end

