-- ==== Sys2Proof/Machine/State.lean ====
section
/-! DEFINITION. The state of the block (R20, R54), the host that drives it, the reasons a step can stop, and the state
right after reset. State is plain data. -/

namespace Sys2Proof.Machine

/-- R50: the phases. The phase is STATUS.BUSY read another way, so it is not stored twice (`State.phase`). -/
inductive Phase where
  | idle
  | executing
deriving DecidableEq, Repr

/-- R27: the fields of STATUS. The bits the register reserves read 0 and have no storage. -/
structure Status where
  busy : Bool
  done : Bool
  overrun : Bool
  treeValid : Bool
  trieValid : Bool
  degenerate : Bool
  errCode : Byte
deriving DecidableEq, Repr

/-- R54: STATUS after reset. -/
def Status.reset : Status := ⟨false, false, false, false, false, false, 0#8⟩

/-- R64, R65: the response of a host access. -/
inductive Resp where
  | okay
  | error
deriving DecidableEq, Repr

/-- What the host got back from one access: a read's response and data, or a write's response (R64). -/
inductive Reply where
  | read (resp : Resp) (data : Word)
  | write (resp : Resp)
deriving DecidableEq, Repr

/-- R64, R101, R102, R202, R220: what the outside can do next. Sizes are in bytes. A `reset` is one assertion and release
of `rst`. The last three operations make no access: they are how a host waits for `irq` and acts on what it has read
(log 16). -/
inductive HostOp where
  /-- A read of `size` bytes at an offset: `MemRead(off, size)` (R64); `rd OFF` when size is 4 (R101). -/
  | read (size : Nat) (off : Offset)
  /-- A write of `size` bytes at an offset: `MemWrite(off, size, v)` (R64); `wr OFF, VAL` when size is 4 (R101). -/
  | write (size : Nat) (off : Offset) (v : Word)
  /-- `expect OFF, VAL, MASK` (R101). -/
  | expect (off : Offset) (v mask : Word)
  /-- `wait` (R102): read STATUS again and again until bit 0 reads 0. -/
  | wait
  /-- `rst` (R220). -/
  | reset
  /-- R202: wait for `irq`, without an access, until it is 1. -/
  | waitIrq
  /-- R202, R204, R205: go on if the word just read, STATUS, has ERR_CODE = 0; else leave out the next `n` operations. -/
  | ifOk (n : Nat)
  /-- R204, R205: read as many words of the window at an offset as hold the number of bytes just read. -/
  | readWindow (base : Offset)
deriving DecidableEq, Repr

/-- The one bus master (R197): what it still has to do, in order (R76); what its accesses returned, newest first; and
whether an `expect` has failed (R101). -/
structure Master where
  script : List HostOp
  replies : List Reply
  failed : Bool
deriving DecidableEq, Repr

/-- R20: the state of the block, and after it the model's own fields (log 1, 2, 4, 10): the parameters, whether the block
has been reset since power-on, the host, and the counters that number the draws. -/
structure State where
  /-- R26: CTRL.IRQ_EN. -/
  irqEn : Bool
  /-- R27: STATUS. -/
  status : Status
  /-- R35: LAST_CMD, what COMMAND reads. -/
  lastCmd : Word
  /-- R36. -/
  textLen : Word
  /-- R37. -/
  bitsLen : Word
  /-- R38. -/
  root : BitVec 9
  /-- R39. -/
  nodeCount : BitVec 10
  /-- R40. -/
  leafCount : BitVec 9
  /-- R41. -/
  minLen : Byte
  /-- R42. -/
  maxLen : Byte
  /-- R43. -/
  dropCount : Word
  /-- R45: the bytes of TEXT_MEM written since reset. -/
  text : List Host.Cell
  /-- R46: the bytes of BITS_MEM written since reset. -/
  bits : List Host.Cell
  /-- R47: FREQ[0..255]. -/
  freq : Table Word
  /-- R48: the nodes of the arena written since reset. -/
  nodes : Sparse Node
  /-- R49: CT[0..255]. -/
  ct : Table CtEntry
  /-- R52: TRIE, in ascending symbol order. -/
  trie : List CodePair
  /-- R7, R20: the parameters of this block; no step changes them. -/
  params : Params
  /-- R221: `rst` has been asserted and released since power-on. Before that the rest of the state is any value. -/
  hasReset : Bool
  /-- R235: turns of the host still to come before the command that executes completes (log 4). -/
  latency : Nat
  /-- The number of the draw that gives every byte and node not written since reset its value (R45, R46, R48). -/
  fill : Nat
  /-- The number of the next draw. -/
  draws : Nat
  /-- The host (R197). -/
  master : Master
deriving DecidableEq, Repr

/-- R50: IDLE is BUSY = 0, EXECUTING is BUSY = 1. -/
def State.phase (s : State) : Phase := if s.status.busy then .executing else .idle

/-- Why the machine would stop with a fault. The block itself never stops (R180): two reasons need a node arena that
no run from reset makes while TREE_VALID = 1, where the walk of R128 has no outcome the spec gives, and one a host that
accesses a block it must not access (R221). Safe. -/
inductive Fault where
  /-- GEN_CODES or ENCODE: the walk of R128 follows a path of more than 255 steps, so a code would not fit LEN, or the
  walk never ends. Safe. -/
  | walkTooDeep
  /-- GEN_CODES or ENCODE: the walk of R128 is sent to index 511, where the arena (R48) has no node. Safe. -/
  | walkLeavesArena
  /-- `step`: the host accesses the block before its first reset, which R221 forbids and to which the spec gives
  no effect. Safe. -/
  | accessBeforeReset
deriving DecidableEq, Repr

/-- Why the model would refuse an instruction. -/
inductive Refusal where
  /-- `exec`: the instruction has no meaning yet. Safe. No arm of `exec` answers it now. -/
  | notModelled (mnemonic : String)
deriving DecidableEq, Repr

/-- R49, R54: an absent code-table entry. -/
def CtEntry.absent : CtEntry := ⟨false, 0#8, 0#256⟩

/-- R54: the state right after reset, with the default parameters (R7) and a host that has nothing to do. TEXT_MEM,
BITS_MEM and NODE hold any value: nothing is listed as written, and draw 0 gives the values. -/
def State.reset : State where
  irqEn := false
  status := Status.reset
  lastCmd := 0x00000000#32
  textLen := 0#32
  bitsLen := 0#32
  root := 0#9
  nodeCount := 0#10
  leafCount := 0#9
  minLen := 0#8
  maxLen := 0#8
  dropCount := 0#32
  text := []
  bits := []
  freq := Vector.replicate 256 0#32
  nodes := []
  ct := Vector.replicate 256 CtEntry.absent
  trie := []
  params := Config.defaults
  hasReset := true
  latency := 0
  fill := 0
  draws := 1
  master := ⟨[], [], false⟩

end Sys2Proof.Machine
end

