-- ==== Sys2Proof/Machine/Operands.lean ====
section
/-! DEFINITION. How state is read and stored: sparse storage, tables, bytes of the two memories, nodes, and the
implicit operands of the commands (R91): the text, the bit characters, codes, the decodable set. -/

namespace Sys2Proof.Machine

/-! ### Sparse storage -/

/-- The value written at an index, if one was. -/
def Sparse.get? {α : Type} (m : Sparse α) (k : Nat) : Option α :=
  match m with
  | [] => none
  | (k', v) :: rest => if k' = k then some v else Sparse.get? rest k

/-- Store a value at an index, keeping the indices rising. -/
def Sparse.set {α : Type} (m : Sparse α) (k : Nat) (v : α) : Sparse α :=
  match m with
  | [] => [(k, v)]
  | (k', v') :: rest =>
    if k < k' then (k, v) :: (k', v') :: rest
    else if k = k' then (k, v) :: rest
    else (k', v') :: Sparse.set rest k v

/-- List values at consecutive indices from `k` on. -/
def Sparse.listFrom {α : Type} (k : Nat) : List α → Sparse α
  | [] => []
  | v :: vs => (k, v) :: Sparse.listFrom (k + 1) vs

/-- Replace what stands at indices 0, 1, ... by the values of a list; higher indices keep what they hold. -/
def Sparse.overwrite {α : Type} (m : Sparse α) (vs : List α) : Sparse α :=
  Sparse.listFrom 0 vs ++ m.filter (fun e => decide (vs.length ≤ e.1))

/-- The canonical form: indices strictly rising and below a bound. -/
def Sparse.wf {α : Type} (bound : Nat) (m : Sparse α) : Bool :=
  decide (m.Pairwise (fun a b => a.1 < b.1)) && m.all (fun e => decide (e.1 < bound))

/-- A byte memory (TEXT_MEM, BITS_MEM): the bytes written since reset. A byte not listed reads as a free value, which
no entry can be equal to as data, so the rising order alone makes the form canonical (log 5). -/
abbrev Memory := List Host.Cell

/-- The canonical form of a byte memory of `cap` bytes. -/
abbrev Memory.wf (cap : Nat) (m : Memory) : Bool := Sparse.wf cap m

/-! ### Tables of 256 entries -/

/-- The entry of a symbol. -/
def Table.entry {α : Type} (t : Table α) (s : Byte) : α := t[s.toNat]'(s.isLt)

/-- Replace the entry of a symbol. -/
def Table.put {α : Type} (t : Table α) (s : Byte) (v : α) : Table α := t.set s.toNat v s.isLt

/-- The symbols 0 to 255 in ascending order. -/
def symbols : List Byte := (List.range 256).map (BitVec.ofNat 8)

theorem symbols_length : symbols.length = 256 := by simp [symbols]

/-- The table that holds `f s` for every symbol s. -/
def Table.tabulate {α : Type} (f : Byte → α) : Table α :=
  ⟨(symbols.map f).toArray, by simp [symbols_length]⟩

/-- The symbols with their entries, in ascending symbol order. -/
def Table.pairs {α : Type} (t : Table α) : List (Byte × α) := symbols.zip t.toList

/-! ### Bytes and nodes -/

/-- TEXT[i] for i below TEXT_CAP (R45): what was last written, or the value reset left (R226). -/
def State.textByte (s : State) (i : Nat) : Byte := (Sparse.get? s.text i).getD (Config.textFill s.fill i)

/-- BITS[i] for i below BITS_CAP (R46). -/
def State.bitsByte (s : State) (i : Nat) : Byte := (Sparse.get? s.bits i).getD (Config.bitsFill s.fill i)

/-- The node whose two words are these (R48, R99): KIND is bit 31 of word 1, and bits that are no field of that kind are
passed over. -/
def Node.ofWords (word0 word1 : Word) : Node :=
  if word1.getLsbD 31 then .internal (word1.extractLsb' 0 9) (word1.extractLsb' 16 9) word0
  else .leaf (word1.extractLsb' 0 8) word0

/-- NODE[i] for i in 0 to 510 (R48): the node last written, or the one whose words reset left (R226). -/
def State.nodeAt (s : State) (i : Nat) : Node :=
  (Sparse.get? s.nodes i).getD (Node.ofWords (Config.nodeFill s.fill i false) (Config.nodeFill s.fill i true))

/-! ### Implicit operands -/

/-- TEXT[0 .. TEXT_LEN − 1], the text (R36, R45). -/
def State.textInput (s : State) : List Byte := (List.range s.textLen.toNat).map s.textByte

/-- R154: a byte read as a character. -/
def BitChar.ofByte (b : Byte) : BitChar :=
  if b = 0x30#8 then .zero else if b = 0x31#8 then .one else .other

/-- R96: the character of a code bit. -/
def BitChar.ofBit (b : Bool) : BitChar := if b then .one else .zero

/-- R96: the byte of a code bit. -/
def byteOfBit (b : Bool) : Byte := if b then 0x31#8 else 0x30#8

/-- BITS[0 .. BITS_LEN − 1] as characters (R37, R154). -/
def State.charInput (s : State) : List BitChar :=
  (List.range s.bitsLen.toNat).map (fun i => BitChar.ofByte (s.bitsByte i))

/-- R12: `code(s)`, the characters BITS[0] to BITS[LEN − 1]. -/
def CtEntry.code (e : CtEntry) : Code := (List.range e.len.toNat).map (fun j => e.bits.getLsbD j)

/-- R128: the entry GEN_CODES records for a leaf with this code. No code of a tree is longer than 255 characters (R137). -/
def CtEntry.ofCode (c : Code) : CtEntry :=
  ⟨true, BitVec.ofNat 8 c.length, (BitVec.ofBoolListLE c).setWidth 256⟩

/-- R14 "decodable entry", R150: VALID = 1 and LEN > 0. -/
def CtEntry.decodable (e : CtEntry) : Bool := e.valid && e.len != 0#8

/-- R150: `D(CT)`, in ascending symbol order. -/
def decodableSet (ct : Table CtEntry) : List CodePair :=
  (ct.pairs.filter (fun p => p.2.decodable)).map (fun p => ⟨p.1, p.2.code⟩)

/-- R152, R153: some code of D is a prefix of the code of another symbol of D (equality counts). -/
def prefixClash (d : List CodePair) : Bool :=
  d.any (fun a => d.any (fun b => a.symbol != b.symbol && a.code.isPrefixOf b.code))

/-- R151: `nodes(D)`, the number of distinct prefixes of the codes of D, the empty string counted. -/
def trieNodes (d : List CodePair) : Nat := ([] :: d.flatMap (fun e => e.code.inits)).dedup.length

/-- R40, R125: the number of symbols with a non-zero count. -/
def leafTotal (f : Table Word) : Nat := f.pairs.countP (fun p => p.2 != 0#32)

/-- R135: MIN_LEN and MAX_LEN, the least and greatest length of a decodable entry, 0 when there is none. -/
def minDecodable (ct : Table CtEntry) : Nat := (((decodableSet ct).map (fun e => e.code.length)).min?).getD 0

def maxDecodable (ct : Table CtEntry) : Nat := (((decodableSet ct).map (fun e => e.code.length)).max?).getD 0

/-! ### Bytes of a word (R68) -/

/-- Byte j of a word: bits 8j+7 to 8j. -/
def byteOfWord (v : Word) (j : Nat) : Byte := v.extractLsb' (8 * j) 8

/-- R69: `b0 | b1 << 8 | b2 << 16 | b3 << 24`. -/
def wordOfBytes (b0 b1 b2 b3 : Byte) : Word :=
  b0.setWidth 32 ||| b1.setWidth 32 <<< 8 ||| b2.setWidth 32 <<< 16 ||| b3.setWidth 32 <<< 24

/-- Word k of a byte sequence, bytes past its end read as 0 (R102). -/
def wordOfList (bs : List Byte) (k : Nat) : Word :=
  wordOfBytes (bs.getD (4 * k) 0#8) (bs.getD (4 * k + 1) 0#8) (bs.getD (4 * k + 2) 0#8) (bs.getD (4 * k + 3) 0#8)

end Sys2Proof.Machine
end

