-- ==== Sys2Proof/Machine/Flags.lean ====
section
/-! DEFINITION. The status register, the error codes and the interrupt: the word STATUS reads (R27), the write-1-to-clear
write, OVERRUN (R30), the code of each error (R181) and the `irq` level (R192). -/

namespace Sys2Proof.Machine

/-- R181: the errors a command can complete with. -/
inductive Err where
  | emptyText
  | length
  | bitsOverflow
  | noTree
  | symbolAbsent
  | tableInvalid
  | noTrie
  | noCodes
  | textOverflow
  | illegalCmd
deriving DecidableEq, Repr

/-- R181: the code of an error. OK is 0. -/
def Err.code : Err → Byte
  | .emptyText => 1#8
  | .length => 2#8
  | .bitsOverflow => 3#8
  | .noTree => 4#8
  | .symbolAbsent => 5#8
  | .tableInvalid => 6#8
  | .noTrie => 7#8
  | .noCodes => 8#8
  | .textOverflow => 9#8
  | .illegalCmd => 10#8

/-- One bit of a word. -/
def bitAt (b : Bool) (i : Nat) : Word := (BitVec.ofBool b).setWidth 32 <<< i

/-- R27: the word STATUS reads. -/
def Status.word (t : Status) : Word :=
  t.errCode.setWidth 32 <<< 8 ||| bitAt t.degenerate 5 ||| bitAt t.trieValid 4 ||| bitAt t.treeValid 3
    ||| bitAt t.overrun 2 ||| bitAt t.done 1 ||| bitAt t.busy 0

/-- R27: a write to STATUS clears DONE and OVERRUN where the written bit is 1 and changes nothing else. -/
def Status.writeOneToClear (t : Status) (v : Word) : Status :=
  { t with done := t.done && !v.getLsbD 1, overrun := t.overrun && !v.getLsbD 2 }

/-- R26: the word CTRL reads. -/
def State.ctrlWord (s : State) : Word := bitAt s.irqEn 0

/-- R30, R75: a host write is dropped because BUSY = 1. -/
def State.dropWrite (s : State) : State := { s with status := { s.status with overrun := true } }

/-- R192: the level of the interrupt output. -/
def State.irq (s : State) : Bool := s.irqEn && s.status.done

end Sys2Proof.Machine
end

