-- ==== Sys2Proof/Machine/Ops.lean ====
section
/-! DEFINITION. The operations the commands share: issue (R110), the two ways a command ends (R112), and the chaining
of stages (R112, R132, R161). The block has no trap (R180): ending a command with an error IS its exception entry
(R186), and there is no return from it (R187). -/

namespace Sys2Proof.Machine

/-- R110: a word is issued as a command. The latency of the command is drawn (R235). -/
def State.issue (s : State) (w : Word) : State :=
  { s with
    lastCmd := w
    status := { s.status with busy := true, done := false, errCode := 0#8 }
    latency := Config.latency s.draws
    draws := s.draws + 1 }

/-- R112: a command completes with a result code. -/
def State.complete (s : State) (code : Byte) : State :=
  { s with status := { s.status with busy := false, done := true, errCode := code } }

/-- R12, R112: `finish` ends a command with OK. -/
def State.finish (s : State) : State := s.complete 0#8

/-- R12, R112: `raise E` ends a command with the code of E. -/
def State.raise (s : State) (e : Err) : State := s.complete e.code

/-- What one stage does: its effect, an error (and then no state change at all, R112), or no outcome the spec gives. -/
inductive StageResult where
  | done (s : State)
  | raised (e : Err)
  | stuck (f : Fault)

/-- R12, R112: the stages of a command run in order. The first error ends the command: the effects of the stages before
it stay and the stages after it do not run. -/
def runStages : List (State → StageResult) → State → Host.Outcome State Fault Refusal
  | [], s => .next s.finish
  | stage :: rest, s =>
    match stage s with
    | .done s' => runStages rest s'
    | .raised e => .next (s.raise e)
    | .stuck f => .fault f

/-- R113: an illegal word in LAST_CMD completes with ILLEGAL_CMD and no other effect. -/
def execIllegal (s : State) : Host.Outcome State Fault Refusal := .next (s.raise .illegalCmd)

/-- R54, R220, R222: `rst`. Everything of R54 takes its reset value and a running command is abandoned. TEXT_MEM,
BITS_MEM and NODE hold any value again: a new draw numbers it. The parameters (R20) and the host stay. -/
def State.afterRst (s : State) : State :=
  { State.reset with
    params := s.params
    latency := 0
    fill := s.draws
    draws := s.draws + 1
    master := s.master }

end Sys2Proof.Machine
end

