-- ==== Sys2Proof/Machine/Bus.lean ====
section
/-! DEFINITION. The host interface (R60 to R81): the address map, the word each offset reads, what a write does, the
rejected accesses, and the accesses of a host to a busy block. -/

namespace Sys2Proof.Machine

/-! ### The address map (R62) -/

/-- R22 to R43: the registers. -/
inductive Reg where
  | id
  | capText
  | capBits
  | capTrie
  | ctrl
  | status
  | command
  | textLen
  | bitsLen
  | root
  | nodeCount
  | leafCount
  | minLen
  | maxLen
  | dropCount
deriving DecidableEq, Repr

/-- R62: what stands at a word-aligned offset. -/
inductive Region where
  | reg (r : Reg)
  /-- FREQ[s] (R72). -/
  | freq (s : Byte)
  /-- Word 0 or 1 (`second`) of NODE[i], i in 0 to 510 (R72). -/
  | node (i : Nat) (second : Bool)
  /-- Word w, 0 to 15, of CT[s] (R71). -/
  | ct (s : Byte) (w : Nat)
  /-- Word k of the TEXT window (R69). -/
  | text (k : Nat)
  /-- Word k of the BITS window (R70). -/
  | bits (k : Nat)
  /-- A reserved offset (R44) or a RAZ word of the NODE window (R62). -/
  | reserved
deriving DecidableEq, Repr

/-- R22 to R43: the register at word index 0 to 14. -/
def regAt : Nat → Region
  | 0 => .reg .id
  | 1 => .reg .capText
  | 2 => .reg .capBits
  | 3 => .reg .capTrie
  | 4 => .reg .ctrl
  | 5 => .reg .status
  | 6 => .reg .command
  | 7 => .reg .textLen
  | 8 => .reg .bitsLen
  | 9 => .reg .root
  | 10 => .reg .nodeCount
  | 11 => .reg .leafCount
  | 12 => .reg .minLen
  | 13 => .reg .maxLen
  | 14 => .reg .dropCount
  | _ => .reserved

/-- R62: the address map. -/
def regionAt (off : Nat) : Region :=
  if off < 0x0003C then regAt (off / 4)
  else if off < 0x00100 then .reserved
  else if off < 0x00500 then .freq (BitVec.ofNat 8 ((off - 0x00100) / 4))
  else if off < 0x01000 then .reserved
  else if off < 0x01FF8 then .node ((off - 0x01000) / 8) (decide ((off - 0x01000) % 8 = 4))
  else if off < 0x02000 then .reserved
  else if off < 0x06000 then .ct (BitVec.ofNat 8 ((off - 0x02000) / 64)) ((off - 0x02000) % 64 / 4)
  else if off < 0x10000 then .reserved
  else if off < 0x20000 then .text ((off - 0x10000) / 4)
  else if off < 0x80000 then .reserved
  else .bits ((off - 0x80000) / 4)

/-! ### Reads -/

/-- R99: word 0 (FREQ) or word 1 of a node. -/
def Node.word (n : Node) (second : Bool) : Word :=
  match n, second with
  | .leaf _ f, false => f
  | .internal _ _ f, false => f
  | .leaf s _, true => s.setWidth 32
  | .internal l r _, true => 0x80000000#32 ||| r.setWidth 32 <<< 16 ||| l.setWidth 32

/-- R72, R99, R226: word 0 or 1 of NODE[i]. The words of a node that no BUILD_TREE has written are any value (log 6). -/
def State.nodeWord (s : State) (i : Nat) (second : Bool) : Word :=
  match Sparse.get? s.nodes i with
  | some n => n.word second
  | none => Config.nodeFill s.fill i second

/-- R100: word w of a code-table entry. -/
def CtEntry.word (e : CtEntry) (w : Nat) : Word :=
  if w = 0 then bitAt e.valid 31 ||| e.len.setWidth 32
  else if w ≤ 8 then e.bits.extractLsb' (32 * (w - 1)) 32
  else 0#32

/-- R69: word k of a byte window; bytes at and above the capacity read as 0. -/
def windowWord (cap : Nat) (byteAt : Nat → Byte) (k : Nat) : Word :=
  let b := fun i => if i < cap then byteAt i else 0#8
  wordOfBytes (b (4 * k)) (b (4 * k + 1)) (b (4 * k + 2)) (b (4 * k + 3))

/-- R22 to R43: the word a register reads. -/
def State.regWord (s : State) : Reg → Word
  | .id => Config.idValue
  | .capText => BitVec.ofNat 32 s.params.textCap
  | .capBits => BitVec.ofNat 32 s.params.bitsCap
  | .capTrie => BitVec.ofNat 32 s.params.trieCap
  | .ctrl => s.ctrlWord
  | .status => s.status.word
  | .command => s.lastCmd
  | .textLen => s.textLen
  | .bitsLen => s.bitsLen
  | .root => s.root.setWidth 32
  | .nodeCount => s.nodeCount.setWidth 32
  | .leafCount => s.leafCount.setWidth 32
  | .minLen => s.minLen.setWidth 32
  | .maxLen => s.maxLen.setWidth 32
  | .dropCount => s.dropCount

/-- The word a region holds (R22 to R43, R66, R69 to R72). -/
def State.regionWord (s : State) : Region → Word
  | .reg r => s.regWord r
  | .freq c => s.freq.entry c
  | .node i second => s.nodeWord i second
  | .ct c w => (s.ct.entry c).word w
  | .text k => windowWord s.params.textCap s.textByte k
  | .bits k => windowWord s.params.bitsCap s.bitsByte k
  | .reserved => 0#32

/-- R75: what reads its defined value while BUSY = 1: ID, CAP_*, CTRL, STATUS and reserved offsets. -/
def Region.readableWhileBusy : Region → Bool
  | .reg .id => true
  | .reg .capText => true
  | .reg .capBits => true
  | .reg .capTrie => true
  | .reg .ctrl => true
  | .reg .status => true
  | .reserved => true
  | _ => false

/-- R65: only 32-bit accesses at multiples of 4 are accepted. -/
def accessAccepted (size : Nat) (off : Offset) : Bool := size == 4 && off.toNat % 4 == 0

/-- What a read returns, with the state after it. No read changes anything of the block (R73); a read of "any value"
uses up one draw. -/
structure ReadResult where
  resp : Resp
  data : Word
  state : State
deriving DecidableEq, Repr

/-- R64, R65, R75: a host read. -/
def State.busRead (s : State) (size : Nat) (off : Offset) : ReadResult :=
  if accessAccepted size off then
    let r := regionAt off.toNat
    if s.status.busy && !r.readableWhileBusy then
      ⟨.okay, Config.busyRead s.draws, { s with draws := s.draws + 1 }⟩
    else ⟨.okay, s.regionWord r, s⟩
  else ⟨.error, 0#32, s⟩

/-! ### Writes -/

/-- R75: what a busy block drops: writes to COMMAND, TEXT_LEN, BITS_LEN and the CT, TEXT and BITS windows. -/
def Region.droppedWhileBusy : Region → Bool
  | .reg .command => true
  | .reg .textLen => true
  | .reg .bitsLen => true
  | .ct _ _ => true
  | .text _ => true
  | .bits _ => true
  | _ => false

/-- R69: store one byte of a window; at and above the capacity the write is ignored. -/
def storeByte (cap : Nat) (m : Memory) (i : Nat) (b : Byte) : Memory :=
  if i < cap then Sparse.set m i b else m

/-- R68, R69: store word k of a window. -/
def storeWord (cap : Nat) (m : Memory) (k : Nat) (v : Word) : Memory :=
  storeByte cap
    (storeByte cap
      (storeByte cap (storeByte cap m (4 * k) (byteOfWord v 0)) (4 * k + 1) (byteOfWord v 1))
      (4 * k + 2) (byteOfWord v 2))
    (4 * k + 3) (byteOfWord v 3)

/-- R71: the 32 bits from bit `i` on replaced by a word. -/
def putWord (bits : BitVec 256) (i : Nat) (v : Word) : BitVec 256 :=
  (bits &&& ~~~((0xFFFFFFFF#32).setWidth 256 <<< i)) ||| (v.setWidth 256 <<< i)

/-- R71, R100: a write to word w of an entry; words 9 to 15 are RAZ. -/
def CtEntry.writeWord (e : CtEntry) (w : Nat) (v : Word) : CtEntry :=
  if w = 0 then { e with valid := v.getLsbD 31, len := v.extractLsb' 0 8 }
  else if w ≤ 8 then { e with bits := putWord e.bits (32 * (w - 1)) v }
  else e

/-- R71: a write to the code-table window. A write to words 0 to 8 also clears TRIE_VALID. -/
def State.writeCt (s : State) (c : Byte) (w : Nat) (v : Word) : State :=
  if w ≤ 8 then
    { s with
      ct := s.ct.put c ((s.ct.entry c).writeWord w v)
      status := { s.status with trieValid := false } }
  else s

/-- What an accepted write does where BUSY does not drop it (R26, R27, R35 to R37, R66, R67, R69 to R72). -/
def State.writeRegion (s : State) (r : Region) (v : Word) : State :=
  match r with
  | .reg .ctrl => { s with irqEn := v.getLsbD 0 }
  | .reg .status => { s with status := s.status.writeOneToClear v }
  | .reg .command => s.issue v
  | .reg .textLen => { s with textLen := v }
  | .reg .bitsLen => { s with bitsLen := v }
  | .ct c w => s.writeCt c w v
  | .text k => { s with text := storeWord s.params.textCap s.text k v }
  | .bits k => { s with bits := storeWord s.params.bitsCap s.bits k v }
  | .reg _ => s
  | .freq _ => s
  | .node _ _ => s
  | .reserved => s

/-- What a write returns, with the state after it. -/
structure WriteResult where
  resp : Resp
  state : State
deriving DecidableEq, Repr

/-- R64, R65, R75: a host write. -/
def State.busWrite (s : State) (size : Nat) (off : Offset) (v : Word) : WriteResult :=
  if accessAccepted size off then
    let r := regionAt off.toNat
    if s.status.busy && r.droppedWhileBusy then ⟨.okay, s.dropWrite⟩ else ⟨.okay, s.writeRegion r v⟩
  else ⟨.error, s⟩

/-! ### The host's turn (R76, R101, R102) -/

/-- R101: `rd OFF`. OFF is a 20-bit offset (R64); a greater number is taken modulo 2^20 (DESIGN CHOICE, log 18). -/
def rd (off : Nat) : HostOp := .read 4 (BitVec.ofNat 20 off)

/-- R61: a burst of n reads is n single-word reads in address order. The spec does not say what a burst past the end of
the aperture does; DESIGN CHOICE (log 18): the 20-bit offset wraps, so the word after 0xFFFFC is 0x00000. -/
def burstRead (off n : Nat) : List HostOp := (List.range n).map (fun k => rd (off + 4 * k))

/-- Whether an operation is one or more accesses of the bus. -/
def HostOp.accesses : HostOp → Bool
  | .read _ _ => true
  | .write _ _ _ => true
  | .expect _ _ _ => true
  | .wait => true
  | .reset => false
  | .waitIrq => false
  | .ifOk _ => false
  | .readWindow _ => false

/-- The word the host has just read; none where its newest reply is not an accepted read. -/
def Master.lastRead (m : Master) : Option Word :=
  match m.replies with
  | .read .okay d :: _ => some d
  | _ => none

/-- R27, R202: the word just read, STATUS, says that the command completed with OK. -/
def Master.lastOk (m : Master) : Bool :=
  match m.lastRead with
  | some d => d.extractLsb' 8 8 == 0#8
  | none => false

/-- R69, R70: how many words of a window hold as many bytes as the word just read says. -/
def Master.lastWords (m : Master) : Nat :=
  match m.lastRead with
  | some d => (d.toNat + 3) / 4
  | none => 0

/-- The host has got this reply. -/
def State.reply (s : State) (r : Reply) : State :=
  { s with master := { s.master with replies := r :: s.master.replies } }

/-- The host goes on with the rest of its script. -/
def State.goOn (s : State) (rest : List HostOp) : State := { s with master := { s.master with script := rest } }

/-- R101: whether a word read passes an `expect`. -/
def expectPasses (data v mask : Word) : Bool := data &&& mask == v &&& mask

/-- R101: note whether an `expect` passed. -/
def State.noteExpect (s : State) (ok : Bool) : State :=
  { s with master := { s.master with failed := s.master.failed || !ok } }

/-- The offset of STATUS (R27). -/
def statusOffset : Offset := 0x00014#20

/-- One operation of the host. `rest` is what it does afterwards; a `wait` that reads BUSY = 1 stays first, and so does a
`waitIrq` while `irq` is 0 (R192, R202). -/
def State.perform (s : State) (op : HostOp) (rest : List HostOp) : State :=
  match op with
  | .read size off =>
    let a := s.busRead size off
    (a.state.goOn rest).reply (.read a.resp a.data)
  | .write size off v =>
    let a := s.busWrite size off v
    (a.state.goOn rest).reply (.write a.resp)
  | .expect off v mask =>
    let a := s.busRead 4 off
    ((a.state.goOn rest).reply (.read a.resp a.data)).noteExpect (expectPasses a.data v mask)
  | .wait =>
    let a := s.busRead 4 statusOffset
    if a.data.getLsbD 0 then a.state.reply (.read a.resp a.data)
    else (a.state.goOn rest).reply (.read a.resp a.data)
  | .reset => s.afterRst.goOn rest
  | .waitIrq => if s.irq then s.goOn rest else s
  | .ifOk n => s.goOn (if s.master.lastOk then rest else rest.drop n)
  | .readWindow base => s.goOn (burstRead base.toNat s.master.lastWords ++ rest)

/-- The host's next operation; a host with nothing left to do leaves the block as it is (R201). -/
def State.hostTurn (s : State) : State :=
  match s.master.script with
  | [] => s
  | op :: rest => s.perform op rest

/-! ### Who moves next (R111, R235, R236) -/

/-- R111: the enabled step of the block fires now: a command executes, and either the drawn number of the host's turns has
gone by or the host has nothing left to do (R236). Before the first reset the block has no step of its own (R221, R225, log 10). -/
def State.completionDue (s : State) : Bool :=
  s.hasReset && s.status.busy && (s.master.script.isEmpty || s.latency == 0)

/-- R221, R225: a step before the first reset. The host may reset the block, or do what needs no access; it must not access
it, and an access then is outside the spec (log 10). -/
def State.powerOnTurn (s : State) : Host.Outcome State Fault Refusal :=
  match s.master.script with
  | [] => .next s
  | op :: rest => if op.accesses then .fault .accessBeforeReset else .next (s.perform op rest)

/-- One turn of the host of the drawn number has gone by. -/
def State.countTurn (s : State) : State := { s with latency := s.latency - 1 }

end Sys2Proof.Machine
end

