-- ==== Sys2Proof/Machine/Control.lean ====
section
/-! DEFINITION. The control commands (R114, R115). -/

namespace Sys2Proof.Machine

/-- R114: NOP. -/
def execNop (s : State) : Host.Outcome State Fault Refusal := runStages [] s

/-- R115: the assignments of CLEAR. -/
def clearStage (s : State) : StageResult :=
  .done { s with
    freq := Table.tabulate (fun _ => 0#32)
    ct := Table.tabulate (fun _ => CtEntry.absent)
    leafCount := 0#9
    root := 0#9
    nodeCount := 0#10
    minLen := 0#8
    maxLen := 0#8
    dropCount := 0#32
    status := { s.status with treeValid := false, trieValid := false, degenerate := false }
    trie := [] }

/-- R115: CLEAR. -/
def execClear (s : State) : Host.Outcome State Fault Refusal := runStages [clearStage] s

end Sys2Proof.Machine
end

