-- ==== Sys2Proof/Machine/Decoder.lean ====
section
/-! DEFINITION. The decoder commands (R150 to R162): BUILD_DECODE_TREE, DESERIALIZE as the table scan of R155, DECODE,
which chains them, and the prefix-tree walker of R160 beside the scan. -/

namespace Sys2Proof.Machine

/-! ### BUILD_DECODE_TREE -/

/-- R152: BUILD_DECODE_TREE. -/
def buildDecodeTreeStage (s : State) : StageResult :=
  let d := decodableSet s.ct
  if prefixClash d then .raised .tableInvalid
  else if trieNodes d > s.params.trieCap then .raised .tableInvalid
  else
    .done { s with
      trie := d
      minLen := BitVec.ofNat 8 (minDecodable s.ct)
      maxLen := BitVec.ofNat 8 (maxDecodable s.ct)
      status := { s.status with trieValid := true } }

/-- R152. -/
def execBuildDecodeTree (s : State) : Host.Outcome State Fault Refusal := runStages [buildDecodeTreeStage] s

/-! ### DESERIALIZE -/

/-- R155: `out`, `buf`, `last` and the number of characters read so far. -/
structure Scan where
  out : List Byte
  buf : List BitChar
  last : Nat
  pos : Nat
deriving DecidableEq, Repr

/-- R155: the scan before the first character. -/
def Scan.start : Scan := ⟨[], [], 0, 0⟩

/-- R155: m, the least length of a code of TRIE. -/
def trieMinLen (trie : List CodePair) : Nat := ((trie.map (fun e => e.code.length)).min?).getD 0

/-- R155: the first pair of TRIE, in ascending symbol order, whose code is the buffer. -/
def matchCode (trie : List CodePair) (buf : List BitChar) : Option CodePair :=
  trie.find? (fun e => e.code.map BitChar.ofBit == buf)

/-- R155: one character of the bit-string. -/
def Scan.read (trie : List CodePair) (m : Nat) (st : Scan) (c : BitChar) : Scan :=
  let buf := st.buf ++ [c]
  if m ≤ buf.length then
    match matchCode trie buf with
    | some e => ⟨st.out ++ [e.symbol], [], st.pos + 1, st.pos + 1⟩
    | none => ⟨st.out, buf, st.last, st.pos + 1⟩
  else ⟨st.out, buf, st.last, st.pos + 1⟩

/-- R155: the scan of a whole bit-string. -/
def scanBits (trie : List CodePair) (chars : List BitChar) : Scan :=
  chars.foldl (Scan.read trie (trieMinLen trie)) Scan.start

/-- R155: DESERIALIZE. -/
def deserializeStage (s : State) : StageResult :=
  if !s.status.trieValid then .raised .noTrie
  else if s.bitsLen.toNat > s.params.bitsCap then .raised .length
  else if s.trie.isEmpty then
    if s.bitsLen = 0#32 then .done { s with textLen := 0#32, dropCount := 0#32 } else .raised .noCodes
  else
    let result := scanBits s.trie s.charInput
    if result.out.length > s.params.textCap then .raised .textOverflow
    else
      .done { s with
        text := Sparse.overwrite s.text result.out
        textLen := BitVec.ofNat 32 result.out.length
        dropCount := s.bitsLen - BitVec.ofNat 32 result.last }

/-- R155. -/
def execDeserialize (s : State) : Host.Outcome State Fault Refusal := runStages [deserializeStage] s

/-! ### DECODE -/

/-- R161: DECODE. -/
def execDecode (s : State) : Host.Outcome State Fault Refusal :=
  runStages [buildDecodeTreeStage, deserializeStage] s

/-! ### The prefix-tree walker (R160)

A node of the prefix tree of TRIE is named by the path from the root to it. -/

/-- R160: the walker. `node` is the path to the current node, `none` the dead state. -/
structure Walker where
  out : List Byte
  node : Option Code
  last : Nat
  pos : Nat
deriving DecidableEq, Repr

/-- R160: the walker at the root. -/
def Walker.start : Walker := ⟨[], some [], 0, 0⟩

/-- R160: the child of a node for a character, if the prefix tree has one. -/
def childNode (trie : List CodePair) (p : Code) : BitChar → Option Code
  | .zero => if trie.any (fun e => (p ++ [false]).isPrefixOf e.code) then some (p ++ [false]) else none
  | .one => if trie.any (fun e => (p ++ [true]).isPrefixOf e.code) then some (p ++ [true]) else none
  | .other => none

/-- R160: one character: go to the child, emit the symbol of a leaf and return to the root, or enter the dead state. -/
def Walker.read (trie : List CodePair) (w : Walker) (c : BitChar) : Walker :=
  match w.node with
  | none => ⟨w.out, none, w.last, w.pos + 1⟩
  | some p =>
    match childNode trie p c with
    | none => ⟨w.out, none, w.last, w.pos + 1⟩
    | some q =>
      match trie.find? (fun e => e.code == q) with
      | some e => ⟨w.out ++ [e.symbol], some [], w.pos + 1, w.pos + 1⟩
      | none => ⟨w.out, some q, w.last, w.pos + 1⟩

/-- R160: the walk over a whole bit-string. -/
def walkBits (trie : List CodePair) (chars : List BitChar) : Walker :=
  chars.foldl (Walker.read trie) Walker.start

end Sys2Proof.Machine
end

