-- ==== Sys2Proof/Machine/Encoder.lean ====
section
/-! DEFINITION. The encoder commands (R120 to R138): COUNT_FREQ, BUILD_TREE with its priority queue, GEN_CODES,
SERIALIZE, and ENCODE, which chains them. -/

namespace Sys2Proof.Machine

/-! ### COUNT_FREQ -/

/-- R121: how often a symbol occurs in a text, as a 32-bit counter. -/
def countOf (text : List Byte) (s : Byte) : Word := BitVec.ofNat 32 (text.count s)

/-- R121: COUNT_FREQ. -/
def countFreqStage (s : State) : StageResult :=
  if s.textLen.toNat > s.params.textCap then .raised .length
  else
    let freq := Table.tabulate (countOf s.textInput)
    .done { s with freq := freq, leafCount := BitVec.ofNat 9 (leafTotal freq) }

/-- R121. -/
def execCountFreq (s : State) : Host.Outcome State Fault Refusal := runStages [countFreqStage] s

/-! ### BUILD_TREE -/

/-- R123: the order of the queue, by frequency and then by node index. -/
def QueueItem.precedes (a b : QueueItem) : Bool :=
  decide (a.freq < b.freq) || (a.freq == b.freq && decide (a.node < b.node))

/-- R123: the least of an item and the items of a list. -/
def leastItem (a : QueueItem) : List QueueItem → QueueItem
  | [] => a
  | b :: rest => leastItem (if b.precedes a then b else a) rest

/-- R123: a pop takes the least item out of the queue. -/
def popLeast : List QueueItem → Option (QueueItem × List QueueItem)
  | [] => none
  | q :: rest => some (leastItem q rest, (q :: rest).erase (leastItem q rest))

/-- R122: the leaves, in ascending symbol order. -/
def leafNodes (f : Table Word) : List Node :=
  (f.pairs.filter (fun p => p.2 != 0#32)).map (fun p => .leaf p.1 p.2)

/-- The frequency of a node (R48). -/
def Node.freq : Node → Word
  | .leaf _ f => f
  | .internal _ _ f => f

/-- R125: the queue `{k, k+1, ...}` over nodes that stand at indices from k on. -/
def queueFrom (k : Nat) : List Node → List QueueItem
  | [] => []
  | n :: rest => ⟨k, n.freq⟩ :: queueFrom (k + 1) rest

/-- R125: what the loop works on: the nodes made so far, the node at position i being NODE[i], and the queue. -/
structure Forest where
  nodes : List Node
  queue : List QueueItem
deriving DecidableEq, Repr

/-- R125: one turn of the loop; a queue of fewer than two nodes is left as it is. The first node popped is LEFT, the
second RIGHT, and the new node takes the next free index (R124). -/
def Forest.combine (t : Forest) : Forest :=
  match popLeast t.queue with
  | none => t
  | some (a, q) =>
    match popLeast q with
    | none => t
    | some (b, q') =>
      ⟨t.nodes ++ [.internal (BitVec.ofNat 9 a.node) (BitVec.ofNat 9 b.node) (a.freq + b.freq)],
        q' ++ [⟨t.nodes.length, a.freq + b.freq⟩]⟩

/-- R125: the loop, with at most this many turns. -/
def Forest.combineAll : Nat → Forest → Forest
  | 0, t => t
  | turns + 1, t => Forest.combineAll turns t.combine

/-- R125: the leaves and the queue of their indices. -/
def leafForest (f : Table Word) : Forest := ⟨leafNodes f, queueFrom 0 (leafNodes f)⟩

/-- R125: the loop run to its end: every turn takes one node out of the queue, so as many turns as there are leaves are
enough. -/
def huffmanForest (f : Table Word) : Forest := (leafForest f).combineAll (leafTotal f)

/-- R125: the only element of the queue at the end of the loop. -/
def Forest.rootNode (t : Forest) : Nat := ((t.queue.head?).map QueueItem.node).getD 0

/-- R125: BUILD_TREE. -/
def buildTreeStage (s : State) : StageResult :=
  if leafTotal s.freq = 0 then .raised .emptyText
  else
    let tree := huffmanForest s.freq
    .done { s with
      nodes := Sparse.overwrite s.nodes tree.nodes
      root := BitVec.ofNat 9 tree.rootNode
      nodeCount := BitVec.ofNat 10 tree.nodes.length
      status := { s.status with treeValid := true, degenerate := decide (leafTotal s.freq = 1) } }

/-- R125. -/
def execBuildTree (s : State) : Host.Outcome State Fault Refusal := runStages [buildTreeStage] s

/-! ### GEN_CODES -/

/-- R128: `walk(i, c)`, as the list of the leaves it visits with the codes it records. `depth` is how many more nodes a
path may visit. -/
def treeWalk (node : Nat → Node) : Nat → Nat → Code → Except Fault (List CodePair)
  | 0, _, _ => .error .walkTooDeep
  | depth + 1, i, c =>
    if i < Config.nodeCap then
      match node i with
      | .leaf s _ => .ok [⟨s, c⟩]
      | .internal l r _ =>
        match treeWalk node depth l.toNat (c ++ [false]), treeWalk node depth r.toNat (c ++ [true]) with
        | .ok a, .ok b => .ok (a ++ b)
        | .error e, _ => .error e
        | .ok _, .error e => .error e
    else .error .walkLeavesArena

/-- R128: the walk from the root. A path of 256 nodes gives a code of 255 characters (R137). -/
def State.treeCodes (s : State) : Except Fault (List CodePair) :=
  treeWalk s.nodeAt (Config.maxCodeLen + 1) s.root.toNat []

/-- R128: the code table with an entry for each leaf visited and every other entry absent. -/
def codeTable (leaves : List CodePair) : Table CtEntry :=
  leaves.foldl (fun t e => t.put e.symbol (CtEntry.ofCode e.code)) (Table.tabulate (fun _ => CtEntry.absent))

/-- R128: GEN_CODES. -/
def genCodesStage (s : State) : StageResult :=
  if !s.status.treeValid then .raised .noTree
  else
    match s.treeCodes with
    | .error f => .stuck f
    | .ok leaves =>
      let ct := codeTable leaves
      .done { s with
        ct := ct
        minLen := BitVec.ofNat 8 (minDecodable ct)
        maxLen := BitVec.ofNat 8 (maxDecodable ct)
        status := { s.status with trieValid := false } }

/-- R128. -/
def execGenCodes (s : State) : Host.Outcome State Fault Refusal := runStages [genCodesStage] s

/-! ### SERIALIZE -/

/-- R130: the concatenation of the codes of the bytes of a text, in order. -/
def bitString (ct : Table CtEntry) (text : List Byte) : Code := text.flatMap (fun b => (ct.entry b).code)

/-- R130: `total`, the sum of the lengths of the codes. -/
def totalLen (ct : Table CtEntry) (text : List Byte) : Nat := (text.map (fun b => (ct.entry b).len.toNat)).sum

/-- R130: SERIALIZE. -/
def serializeStage (s : State) : StageResult :=
  if s.textLen.toNat > s.params.textCap then .raised .length
  else if s.textInput.any (fun b => !(s.ct.entry b).valid) then .raised .symbolAbsent
  else if totalLen s.ct s.textInput > s.params.bitsCap then .raised .bitsOverflow
  else
    .done { s with
      bits := Sparse.overwrite s.bits ((bitString s.ct s.textInput).map byteOfBit)
      bitsLen := BitVec.ofNat 32 (totalLen s.ct s.textInput) }

/-- R130. -/
def execSerialize (s : State) : Host.Outcome State Fault Refusal := runStages [serializeStage] s

/-! ### ENCODE -/

/-- R132: the two checks ENCODE makes before any stage. -/
def encodeChecks (s : State) : StageResult :=
  if s.textLen.toNat > s.params.textCap then .raised .length
  else if s.textLen = 0#32 then .raised .emptyText
  else .done s

/-- R132: ENCODE. -/
def execEncode (s : State) : Host.Outcome State Fault Refusal :=
  runStages [encodeChecks, countFreqStage, buildTreeStage, genCodesStage, serializeStage] s

end Sys2Proof.Machine
end

