-- ==== Sys2Proof/Machine/Dispatch.lean ====
section
/-! DEFINITION. The meaning of every command (R92): one arm for each constructor of Instr. -/

namespace Sys2Proof.Machine

def exec (i : Instr) (s : State) : Host.Outcome State Fault Refusal :=
  match i with
  | .nop => Sys2Proof.Machine.execNop s
  | .clear => Sys2Proof.Machine.execClear s
  | .countFreq => Sys2Proof.Machine.execCountFreq s
  | .buildTree => Sys2Proof.Machine.execBuildTree s
  | .genCodes => Sys2Proof.Machine.execGenCodes s
  | .serialize => Sys2Proof.Machine.execSerialize s
  | .encode => Sys2Proof.Machine.execEncode s
  | .buildDecodeTree => Sys2Proof.Machine.execBuildDecodeTree s
  | .deserialize => Sys2Proof.Machine.execDeserialize s
  | .decode => Sys2Proof.Machine.execDecode s

end Sys2Proof.Machine
end

