-- ==== Sys2Proof/Machine/Step.lean ====
section
/-! DEFINITION. One step of the machine: the block completes the command it executes (R111), or the host has its turn
(R76). -/

namespace Sys2Proof.Machine

/-- R111, R93, R94: the completion step runs the command in LAST_CMD; a word that is no command is illegal. -/
def completeStep (s : State) : Host.Outcome State Fault Refusal :=
  match decodeWord s.lastCmd with
  | .ok i => exec i s
  | .error _ => execIllegal s

/-- One step. While a command executes and its completion is not due, the host has one turn, which counts. Before the first
reset the host must not access the block (R221). -/
def step (s : State) : Host.Outcome State Fault Refusal :=
  if s.completionDue then completeStep s
  else if !s.hasReset then s.powerOnTurn
  else if s.status.busy then .next s.countTurn.hostTurn
  else .next s.hostTurn

/-- The state in which the very next step runs the command with these bits: the word stands issued (R110) and its
completion is due, in a block that has been reset (R221). -/
def State.withFetchWord (s : State) (nbits w : Nat) : State :=
  { s with
    hasReset := true
    lastCmd := BitVec.ofNat 32 (w % 2 ^ nbits)
    status := { s.status with busy := true, done := false, errCode := 0#8 }
    latency := 0 }

end Sys2Proof.Machine
end

