-- ==== Sys2Proof/Machine/HostScript.lean ====
section
/-! DEFINITION. Host programs: the host-script notation and its pseudo-instructions (R101, R102), bursts (R61), and
the host's side of the contract (R202 to R206) as far as it is a fixed list of accesses or arithmetic. -/

namespace Sys2Proof.Machine

/-! ### Primitive lines (R101); `rd` stands beside the host's turn -/

/-- R101: `wr OFF, VAL`, with OFF as in `rd`. -/
def wr (off : Nat) (v : Word) : HostOp := .write 4 (BitVec.ofNat 20 off) v

/-- R101: `expect OFF, VAL, MASK`, with OFF as in `rd`. -/
def expectMasked (off : Nat) (v mask : Word) : HostOp := .expect (BitVec.ofNat 20 off) v mask

/-- R101: `expect OFF, VAL`. -/
def expectWord (off : Nat) (v : Word) : HostOp := expectMasked off v 0xFFFFFFFF#32

/-! ### Pseudo-instructions (R102); `wait` is an operation of its own -/

/-- R102: `cmd MNEMONIC`. -/
def cmd (i : Instr) : List HostOp := [wr 0x018 (encodeWord i)]

/-- R102: `ack`. -/
def ackDone : List HostOp := [wr 0x014 0x00000002#32]

/-- The first `n` words of a byte sequence into the window that starts at `base`. -/
def wrWords (base n : Nat) (bs : List Byte) : List HostOp :=
  (List.range n).map (fun k => wr (base + 4 * k) (wordOfList bs k))

/-- How many words hold a byte sequence. -/
def wordCount (bs : List Byte) : Nat := (bs.length + 3) / 4

/-- The word a host writes to a length register for a byte sequence. The spec does not say what it writes for 2^32 bytes
or more, which no 32-bit register holds; DESIGN CHOICE (log 19): 0xFFFFFFFF, the greatest length it can, which is above
every capacity, so the command then ends with LENGTH (R204, D45). -/
def lengthWord (bs : List Byte) : Word := BitVec.ofNat 32 (min bs.length 0xFFFFFFFF)

/-- R102: `wrtext`, every word of the sequence, also past the end of the window (log 18); the length of 2^32 bytes or more
is DESIGN CHOICE (log 19). -/
def wrText (bs : List Byte) : List HostOp := wrWords 0x10000 (wordCount bs) bs ++ [wr 0x01C (lengthWord bs)]

/-- R102: `wrbits`, as `wrtext`; a character stands as its byte (R96). -/
def wrBits (bs : List Byte) : List HostOp := wrWords 0x80000 (wordCount bs) bs ++ [wr 0x020 (lengthWord bs)]

/-- The writes of words 1 to 8, the code bits (R100), of the code-table entry of a symbol. -/
def wrCodeBits (c : Byte) (e : CtEntry) : List HostOp :=
  (List.range 8).map (fun w => wr (0x2000 + 64 * c.toNat + 4 + 4 * w) (e.word (w + 1)))

/-- The writes of words 0 to 8 of the code-table entry of a symbol. -/
def wrEntry (c : Byte) (e : CtEntry) : List HostOp := wr (0x2000 + 64 * c.toNat) (e.word 0) :: wrCodeBits c e

/-- R102: word 0 of `wrcode`, 0x80000000 + len(c). For a code of 2^31 characters or more the sum is no 32-bit word, and the
spec does not say what is written; DESIGN CHOICE (log 20): the sum modulo 2^32. -/
def codeControlWord (code : Code) : Word := BitVec.ofNat 32 (0x80000000 + code.length)

/-- R102: `wrcode`. -/
def wrCode (c : Byte) (code : Code) : List HostOp :=
  wr (0x2000 + 64 * c.toNat) (codeControlWord code) :: wrCodeBits c (CtEntry.ofCode code)

/-- R102: `nocode`. -/
def noCode (c : Byte) : List HostOp := [wr (0x2000 + 64 * c.toNat) 0x00000000#32]

/-! ### Bursts of writes (R61); `burstRead` stands beside the host's turn -/

/-- R61: a burst of writes is as many single-word writes in address order; past the end of the aperture the offset wraps
(DESIGN CHOICE, log 18). -/
def burstWrite (off : Nat) : List Word → List HostOp
  | [] => []
  | v :: vs => wr off v :: burstWrite (off + 4) vs

/-! ### The host contract (R202 to R206) -/

/-- R203: restore a saved code table, all 256 entries. -/
def restoreTable (t : Table CtEntry) : List HostOp := symbols.flatMap (fun c => wrEntry c (t.entry c))

/-- R203: read all 256 entries of the code table. -/
def saveTable : List HostOp := symbols.flatMap (fun c => burstRead (0x2000 + 64 * c.toNat) 9)

/-- R202, R225: issue a command and wait for its completion: by reads of STATUS, or by `irq`, which CTRL then enables. -/
def runCommand (byIrq : Bool) (i : Instr) : List HostOp :=
  if byIrq then wr 0x010 0x00000001#32 :: cmd i ++ [.waitIrq] else cmd i ++ [.wait]

/-- R202: check ERR_CODE, and do this only if the command completed with OK. -/
def onOk (ops : List HostOp) : List HostOp := [rd 0x014, .ifOk ops.length] ++ ops

/-- R202: load a value as text: the words of it that the TEXT window has (R62, R69), then its length. So a value longer
than TEXT_CAP gets LENGTH (R204), and nothing outside the window is written. -/
def loadText (bs : List Byte) : List HostOp :=
  wrWords 0x10000 (min (wordCount bs) 0x4000) bs ++ [wr 0x01C (lengthWord bs)]

/-- R202: load a value as bits, in the same way: the words of it that the BITS window has (R62, R70), then its length. -/
def loadBits (bs : List Byte) : List HostOp :=
  wrWords 0x80000 (min (wordCount bs) 0x20000) bs ++ [wr 0x020 (lengthWord bs)]

/-- R204: load a text, encode it, wait, and on OK read BITS_LEN, the BITS window and the CT window. -/
def encodeRequest (byIrq : Bool) (text : List Byte) : List HostOp :=
  loadText text ++ runCommand byIrq .encode ++ onOk ([rd 0x020, .readWindow 0x80000#20] ++ saveTable)

/-- R205: restore a table, load a bit-string, decode it, wait, and on OK read TEXT_LEN and the TEXT window. -/
def decodeRequest (byIrq : Bool) (t : Table CtEntry) (bits : List Byte) : List HostOp :=
  restoreTable t ++ loadBits bits ++ runCommand byIrq .decode ++ onOk [rd 0x01C, .readWindow 0x10000#20]

/-- R68 to R70: the bytes in the words read from a window. -/
def bytesOfWords (len : Nat) (ws : List Word) : List Byte :=
  (List.range len).map (fun i => byteOfWord (ws.getD (i / 4) 0#32) (i % 4))

/-- R71, R100: the code-table entry in the words 0 to 8 read from the CT window. -/
def CtEntry.ofWords (word : Nat → Word) : CtEntry :=
  (List.range 9).foldl (fun e w => e.writeWord w (word w)) CtEntry.absent

/-- R203: the code table in the words `saveTable` reads. -/
def tableOfWords (ws : List Word) : Table CtEntry :=
  Table.tabulate (fun c => CtEntry.ofWords (fun w => ws.getD (9 * c.toNat + w) 0#32))

/-- R204: the new value and its code table, from BITS_LEN and the words of the BITS and CT windows. -/
def encodeResult (bitsLen : Word) (bits table : List Word) : List Byte × Table CtEntry :=
  (bytesOfWords bitsLen.toNat bits, tableOfWords table)

/-- R205: the plain value, from TEXT_LEN and the words of the TEXT window. -/
def decodeResult (textLen : Word) (text : List Word) : List Byte := bytesOfWords textLen.toNat text

/-- R206: the compression percentage, truncated toward zero; none when the original size is 0 (D34). -/
def compressionPercent (decodedLen bitsLen : Nat) : Option Int :=
  if decodedLen = 0 then none
  else some (Int.tdiv (((decodedLen * 8 : Nat) - (bitsLen : Int)) * 100) (decodedLen * 8 : Nat))

end Sys2Proof.Machine
end

