-- ==== Sys2Proof/Safety.lean ====
section
/-! DEFINITION. The terms the statements use: the offsets by kind of access (R44, R62, R67), the codes a command may
complete with (R181, R184), paths in the encoder's tree, the shape of that tree (R127), the agreement of TRIE with the
code table (R52), and the invariant of the machine. -/

namespace Sys2Proof.Machine

/-! ### Offsets -/

/-- R44, R62: the reserved offsets and the RAZ words of the NODE window. -/
abbrev ReservedOffset (a : Nat) : Prop :=
  (0x0003C ≤ a ∧ a < 0x00100) ∨ (0x00500 ≤ a ∧ a < 0x01000) ∨ (0x01FF8 ≤ a ∧ a < 0x02000) ∨
    (0x06000 ≤ a ∧ a < 0x10000) ∨ (0x20000 ≤ a ∧ a < 0x80000)

/-- R67: ID, CAP_*, ROOT, NODE_COUNT, LEAF_COUNT, MIN_LEN, MAX_LEN, DROP_COUNT and the FREQ and NODE windows. -/
abbrev ReadOnlyOffset (a : Nat) : Prop :=
  a < 0x00010 ∨ (0x00024 ≤ a ∧ a < 0x0003C) ∨ (0x00100 ≤ a ∧ a < 0x00500) ∨ (0x01000 ≤ a ∧ a < 0x01FF8)

/-- R75: COMMAND, TEXT_LEN, BITS_LEN and the CT, TEXT and BITS windows. -/
abbrev InputOffset (a : Nat) : Prop :=
  (0x00018 ≤ a ∧ a < 0x00024) ∨ (0x02000 ≤ a ∧ a < 0x06000) ∨ (0x10000 ≤ a ∧ a < 0x20000) ∨ 0x80000 ≤ a

/-- R75: ID, CAP_*, CTRL, STATUS and the reserved offsets. -/
abbrev AlwaysReadableOffset (a : Nat) : Prop := a < 0x00018 ∨ ReservedOffset a

/-- R97, R181, R184: the result codes a command may complete with. -/
def resultCodes : Instr → List Byte
  | .nop => [0#8]
  | .clear => [0#8]
  | .countFreq => [0#8, 2#8]
  | .buildTree => [0#8, 1#8]
  | .genCodes => [0#8, 4#8]
  | .serialize => [0#8, 2#8, 5#8, 3#8]
  | .encode => [0#8, 2#8, 1#8, 3#8]
  | .buildDecodeTree => [0#8, 6#8]
  | .deserialize => [0#8, 7#8, 2#8, 8#8, 9#8]
  | .decode => [0#8, 6#8, 2#8, 8#8, 9#8]

/-! ### The encoder's tree -/

/-- The node a path from node i leads to: '0' goes to LEFT, '1' to RIGHT (R128). -/
def State.follow (s : State) (i : Nat) : Code → Option Nat
  | [] => some i
  | b :: p =>
    match s.nodeAt i with
    | .leaf _ _ => none
    | .internal l r _ => s.follow (if b then r.toNat else l.toNat) p

/-- R127: with n leaves, NODE_COUNT = 2n − 1 and ROOT = 2n − 2; the first n nodes are leaves and each later node is
internal with two children of lower index and the sum of their frequencies (R124); DEGENERATE says n = 1 (R33). -/
structure State.TreeOf (s : State) (n : Nat) : Prop where
  some_leaf : 1 ≤ n
  at_most : n ≤ 256
  count : s.nodeCount.toNat = 2 * n - 1
  root : s.root.toNat = 2 * n - 2
  degenerate : s.status.degenerate = decide (n = 1)
  leaves : ∀ i, i < n → ∃ c f, Sparse.get? s.nodes i = some (.leaf c f)
  internals : ∀ i, n ≤ i → i < 2 * n - 1 →
    ∃ l r f, Sparse.get? s.nodes i = some (.internal l r f) ∧ l.toNat < i ∧ r.toNat < i ∧
      f = (s.nodeAt l.toNat).freq + (s.nodeAt r.toNat).freq

/-- R127, R128: the walk from ROOT ends, and it visits no symbol twice. -/
def State.WalkEnds (s : State) : Prop :=
  ∃ leaves, s.treeCodes = .ok leaves ∧ (leaves.map CodePair.symbol).Nodup

/-! ### The decoder's set and the invariant -/

/-- R52, R152: TRIE is the decodable set of the current code table, which passes the checks of BUILD_DECODE_TREE, and
MIN_LEN and MAX_LEN are its lengths. -/
structure State.TrieMatches (s : State) : Prop where
  trie : s.trie = decodableSet s.ct
  prefixFree : prefixClash s.trie = false
  fits : trieNodes s.trie ≤ s.params.trieCap
  minLen : s.minLen.toNat = minDecodable s.ct
  maxLen : s.maxLen.toNat = maxDecodable s.ct

/-- The invariant of the machine. -/
structure State.Inv (s : State) : Prop where
  /-- R221: the block has been reset since power-on. -/
  hasReset : s.hasReset = true
  /-- R7. -/
  params : s.params.legal = true
  /-- R45: the canonical form of TEXT_MEM. -/
  text : Memory.wf s.params.textCap s.text = true
  /-- R46: the canonical form of BITS_MEM. -/
  bits : Memory.wf s.params.bitsCap s.bits = true
  /-- R48: the canonical form of the arena. -/
  nodes : Sparse.wf Config.nodeCap s.nodes = true
  /-- R28, R29: a command that executes has not completed. -/
  busyNotDone : s.status.busy = true → s.status.done = false
  /-- R34: ERR_CODE is 0 from acceptance to completion. -/
  busyNoError : s.status.busy = true → s.status.errCode = 0#8
  /-- R181: codes 11 to 255 are never written. -/
  errCode : s.status.errCode.toNat ≤ 10
  /-- R40. -/
  leafCount : s.leafCount.toNat ≤ 256
  /-- R39. -/
  nodeCount : s.nodeCount.toNat ≤ 511
  /-- R33: a degenerate tree is a tree. -/
  degenerate : s.status.degenerate = true → s.status.treeValid = true
  /-- R31, R127. -/
  tree : s.status.treeValid = true → ∃ n, s.TreeOf n
  /-- R31, R128. -/
  walk : s.status.treeValid = true → s.WalkEnds
  /-- R32, R52. -/
  trie : s.status.trieValid = true → s.TrieMatches

/-- A step is safe: it answers a next state (R180: no error stops the block). -/
def State.StepGoesOn (s : State) : Prop := ∃ t, step s = .next t

end Sys2Proof.Machine
end

