-- ==== Sys2Proof/Certificates/Slice0/Obligations.lean ====
section
/-! DEFINITION. The statements for the provers. Each docstring names the rule it formalises. A statement that speaks of
a next state of a command says in full what that state is: what is not written in it is as it was. -/

open Sys2Proof Sys2Proof.Machine

/-! ### The command word -/

/-- R93, with the words of R92: a word is a command exactly when it is that command's table word, so decoding undoes
encoding, no two commands share a word, and every other word is rejected. -/
def Obligations.DecodedWordsAreExactlyTheTableWords : Prop :=
  ∀ (w : Word) (i : Instr), decodeWord w = .ok i ↔ w = encodeWord i

/-- R92: the ten words, written out, decode to the ten commands, and bits 7:4 and 3:0 of the opcode name the group and
the stage. -/
def Obligations.TableWordsDecodeToTheirCommands : Prop :=
  decodeWord 0x00000000#32 = .ok .nop ∧ decodeWord 0x00000001#32 = .ok .clear ∧
  decodeWord 0x00000010#32 = .ok .countFreq ∧ decodeWord 0x00000011#32 = .ok .buildTree ∧
  decodeWord 0x00000012#32 = .ok .genCodes ∧ decodeWord 0x00000013#32 = .ok .serialize ∧
  decodeWord 0x0000001F#32 = .ok .encode ∧ decodeWord 0x00000020#32 = .ok .buildDecodeTree ∧
  decodeWord 0x00000021#32 = .ok .deserialize ∧ decodeWord 0x0000002F#32 = .ok .decode ∧
  (∀ i : Instr, (i.group = .control ↔ (encodeWord i).extractLsb' 4 4 = 0#4) ∧
    (i.group = .encoder ↔ (encodeWord i).extractLsb' 4 4 = 1#4) ∧
    (i.group = .decoder ↔ (encodeWord i).extractLsb' 4 4 = 2#4) ∧
    ((encodeWord i).extractLsb' 0 4 = 0xF#4 ↔ i = .encode ∨ i = .decode))

/-- R94: the words that are rejected are those with bits 31:8 not 0 and the opcodes of the four reserved ranges, each
under its own name. -/
def Obligations.RejectedWordsAreTheReservedOnes : Prop :=
  ∀ w : Word,
    (decodeWord w = .error .zeroFieldSet ↔ 0x100 ≤ w.toNat) ∧
    (decodeWord w = .error .reservedOpcode ↔
      (0x02 ≤ w.toNat ∧ w.toNat ≤ 0x0F) ∨ (0x14 ≤ w.toNat ∧ w.toNat ≤ 0x1E) ∨
        (0x22 ≤ w.toNat ∧ w.toNat ≤ 0x2E) ∨ (0x30 ≤ w.toNat ∧ w.toNat ≤ 0xFF))

/-! ### The life of a command -/

/-- R110, R111: in a block that has been reset, when the completion is due and LAST_CMD is the word of a command, the step
is that command's meaning; and the state `withFetchWord` makes is such a state. -/
def Obligations.StepRunsTheDecodedCommand : Prop :=
  (∀ (s : State) (i : Instr), s.hasReset = true → s.status.busy = true → (s.master.script = [] ∨ s.latency = 0) →
    decodeWord s.lastCmd = .ok i → step s = exec i s) ∧
  ∀ (s : State) (i : Instr),
    step (s.withFetchWord 32 (encodeWord i).toNat) = exec i (s.withFetchWord 32 (encodeWord i).toNat)

/-- R76, R111, R201: in a block that has been reset, a step that completes no command is the host's next operation; while
a command executes it counts toward the latency (log 4); a host with nothing to do leaves an idle block as it is. Before
the first reset (R221) only what makes no access can happen, and an access stops the model (log 10). What an access is
(R64, R101): a write leaves the state `busWrite` leaves and its response, a read the state `busRead` leaves with its
response and data, an `expect` that of a read, noting a failure exactly when the word read and the value differ under
the mask. How the host acts on a word it has just read (R202, R204, R205, log 16): `ifOk` leaves out the next n
operations exactly when its bits 15:8 are not 0, and `readWindow` reads the words of a window that hold that many
bytes. -/
def Obligations.OtherStepsAreTheHostsAccesses : Prop :=
  (∀ s : State, s.hasReset = true → s.status.busy = false → s.master.script = [] → step s = .next s) ∧
  (∀ (s : State) (op : HostOp) (rest : List HostOp), s.hasReset = true → s.status.busy = false →
    s.master.script = op :: rest → step s = .next (s.perform op rest)) ∧
  (∀ (s : State) (op : HostOp) (rest : List HostOp) (k : Nat), s.hasReset = true → s.status.busy = true →
    s.master.script = op :: rest → s.latency = k + 1 →
    step s = .next (State.perform { s with latency := k } op rest)) ∧
  (∀ s : State, s.hasReset = false →
    (s.master.script = [] → step s = .next s) ∧
    (∀ op rest, (op = .reset ∨ op = .waitIrq ∨ (∃ n, op = .ifOk n) ∨ ∃ base, op = .readWindow base) →
      s.master.script = op :: rest → step s = .next (s.perform op rest)) ∧
    (∀ op rest, ¬ (op = .reset ∨ op = .waitIrq ∨ (∃ n, op = .ifOk n) ∨ ∃ base, op = .readWindow base) →
      s.master.script = op :: rest → step s = .fault .accessBeforeReset)) ∧
  (∀ (s : State) (size : Nat) (off : Offset) (v : Word) (rest : List HostOp),
    s.perform (.write size off v) rest = { (s.busWrite size off v).state with master := { s.master with
      script := rest, replies := .write (s.busWrite size off v).resp :: s.master.replies } }) ∧
  (∀ (s : State) (size : Nat) (off : Offset) (rest : List HostOp),
    s.perform (.read size off) rest = { (s.busRead size off).state with master := { s.master with
      script := rest
      replies := .read (s.busRead size off).resp (s.busRead size off).data :: s.master.replies } }) ∧
  (∀ (s : State) (off : Offset) (v mask : Word) (rest : List HostOp), ∃ failed : Bool,
    s.perform (.expect off v mask) rest = { (s.busRead 4 off).state with master := {
      script := rest
      replies := .read (s.busRead 4 off).resp (s.busRead 4 off).data :: s.master.replies
      failed := failed } } ∧
    (failed = true ↔ s.master.failed = true ∨ (s.busRead 4 off).data &&& mask ≠ v &&& mask)) ∧
  (∀ (s : State) (d : Word) (older : List Reply) (rest : List HostOp), s.master.replies = .read .okay d :: older →
    (∀ n, (d.extractLsb' 8 8 = 0#8 → s.perform (.ifOk n) rest = { s with master := { s.master with script := rest } }) ∧
      (d.extractLsb' 8 8 ≠ 0#8 →
        s.perform (.ifOk n) rest = { s with master := { s.master with script := rest.drop n } })) ∧
    ∀ base : Offset, s.perform (.readWindow base) rest = { s with master := { s.master with
      script := (List.range ((d.toNat + 3) / 4)).map (fun k => .read 4 (BitVec.ofNat 20 (base.toNat + 4 * k))) ++
        rest } })

/-- R110: an accepted write to COMMAND while BUSY = 0 issues the word, and the phase becomes EXECUTING; while BUSY = 1
it is dropped and sets OVERRUN. (`latency` and `draws` are the model's own fields, log 4.) -/
def Obligations.CommandWriteIssuesTheWord : Prop :=
  ∀ (s : State) (w : Word),
    (s.status.busy = false →
      s.busWrite 4 0x018#20 w = ⟨.okay, { s with
        lastCmd := w
        status := { s.status with busy := true, done := false, errCode := 0#8 }
        latency := Config.latency s.draws
        draws := s.draws + 1 }⟩ ∧
      (s.busWrite 4 0x018#20 w).state.phase = .executing) ∧
    (s.status.busy = true →
      s.busWrite 4 0x018#20 w = ⟨.okay, { s with status := { s.status with overrun := true } }⟩)

/-- R236: a command that executes, in a block that has been reset, comes to its completion step after at most as many
steps as its latency, whatever the host does, unless the host resets the block; the word in LAST_CMD is still the one
that was issued. -/
def Obligations.RunningCommandComesToCompletion : Prop :=
  ∀ s : State, s.hasReset = true → s.status.busy = true → HostOp.reset ∉ s.master.script →
    ∃ k t, k ≤ s.latency ∧ Sys2Proof.core.run k s = .next t ∧ t.completionDue = true ∧ t.lastCmd = s.lastCmd

/-- R113: a word R94 calls illegal completes with ILLEGAL_CMD (code 10), DONE = 1, BUSY = 0 and no other effect. -/
def Obligations.IllegalWordCompletesWithIllegalCmd : Prop :=
  ∀ s : State, s.hasReset = true → s.status.busy = true → (s.master.script = [] ∨ s.latency = 0) →
    (∀ i : Instr, s.lastCmd ≠ encodeWord i) →
    step s = .next { s with status := { s.status with busy := false, done := true, errCode := 10#8 } }

/-- R112, R186: every command that answers a next state has ended: BUSY is 0 and DONE is 1; and one that is no composite
and ends with an error has changed nothing else. -/
def Obligations.FailedCommandChangesOnlyItsResult : Prop :=
  ∀ (i : Instr) (s t : State), exec i s = .next t →
    t.status.busy = false ∧ t.status.done = true ∧
    (i ≠ .encode → i ≠ .decode → t.status.errCode ≠ 0#8 →
      t = { s with status := { s.status with busy := false, done := true, errCode := t.status.errCode } })

/-- R181: the codes each command completes with, the ones the table says it raises and no other; in particular ENCODE
never raises SYMBOL_ABSENT and DECODE never raises NO_TRIE. -/
def Obligations.CommandsRaiseOnlyTheirOwnCodes : Prop :=
  ∀ (i : Instr) (s t : State), exec i s = .next t → t.status.errCode ∈ resultCodes i

/-- R26, R30, R35, R20: no command writes CTRL, OVERRUN or LAST_CMD, or touches the parameters, the host or the model's
counters. -/
def Obligations.CommandsKeepHostAndControlState : Prop :=
  ∀ (i : Instr) (s t : State), exec i s = .next t →
    t.irqEn = s.irqEn ∧ t.status.overrun = s.status.overrun ∧ t.lastCmd = s.lastCmd ∧ t.params = s.params ∧
    t.hasReset = s.hasReset ∧ t.master = s.master ∧ t.latency = s.latency ∧ t.fill = s.fill ∧ t.draws = s.draws

/-! ### The host interface -/

/-- R65: an access of another size than 4 bytes, or at an offset that is no multiple of 4, is rejected: ERROR, data 0,
no change, whether the block is busy or not. -/
def Obligations.RejectedAccessesChangeNothing : Prop :=
  ∀ (s : State) (size : Nat) (off : Offset) (v : Word), size ≠ 4 ∨ off.toNat % 4 ≠ 0 →
    s.busRead size off = ⟨.error, 0#32, s⟩ ∧ s.busWrite size off v = ⟨.error, s⟩

/-- R66: a reserved offset reads 0 and ignores a write, with OKAY and no OVERRUN, whether the block is busy or not. -/
def Obligations.ReservedOffsetsReadZeroAndIgnoreWrites : Prop :=
  ∀ (s : State) (off : Offset) (v : Word), off.toNat % 4 = 0 → ReservedOffset off.toNat →
    s.busRead 4 off = ⟨.okay, 0#32, s⟩ ∧ s.busWrite 4 off v = ⟨.okay, s⟩

/-- R67: a write to a read-only register or window is accepted and changes nothing; a write to CTRL or STATUS changes
only the writable fields of it. -/
def Obligations.ReadOnlyOffsetsIgnoreWrites : Prop :=
  ∀ (s : State) (off : Offset) (v : Word), off.toNat % 4 = 0 →
    (ReadOnlyOffset off.toNat → s.busWrite 4 off v = ⟨.okay, s⟩) ∧
    (off.toNat = 0x010 → ∃ e, s.busWrite 4 off v = ⟨.okay, { s with irqEn := e }⟩) ∧
    (off.toNat = 0x014 → ∃ d o, s.busWrite 4 off v =
      ⟨.okay, { s with status := { s.status with done := d, overrun := o } }⟩)

/-- R22 to R25: the identification and capacity registers read their constants in every state, busy or not, and ignore
writes. -/
def Obligations.IdentificationRegistersAreConstant : Prop :=
  ∀ (s : State) (v : Word),
    s.busRead 4 0x000#20 = ⟨.okay, 0x48554646#32, s⟩ ∧
    s.busRead 4 0x004#20 = ⟨.okay, BitVec.ofNat 32 s.params.textCap, s⟩ ∧
    s.busRead 4 0x008#20 = ⟨.okay, BitVec.ofNat 32 s.params.bitsCap, s⟩ ∧
    s.busRead 4 0x00C#20 = ⟨.okay, BitVec.ofNat 32 s.params.trieCap, s⟩ ∧
    s.busWrite 4 0x000#20 v = ⟨.okay, s⟩ ∧ s.busWrite 4 0x004#20 v = ⟨.okay, s⟩ ∧
    s.busWrite 4 0x008#20 v = ⟨.okay, s⟩ ∧ s.busWrite 4 0x00C#20 v = ⟨.okay, s⟩

/-- R26: CTRL reads IRQ_EN in bit 0 and 0 elsewhere, takes bit 0 of what is written, busy or not, is 0 after reset,
and no command writes it. -/
def Obligations.CtrlHoldsIrqEnable : Prop :=
  (∀ (s : State) (v : Word),
    s.busRead 4 0x010#20 = ⟨.okay, (if s.irqEn then 1#32 else 0#32), s⟩ ∧
    s.busWrite 4 0x010#20 v = ⟨.okay, { s with irqEn := v.getLsbD 0 }⟩) ∧
  State.reset.irqEn = false ∧
  ∀ (i : Instr) (s t : State), exec i s = .next t → t.irqEn = s.irqEn

/-- R27: the bits STATUS reads, busy or not, and its write: only DONE and OVERRUN change, each cleared where a 1 is
written; and STATUS reads 0 after reset. -/
def Obligations.StatusReadsItsFieldsAndClearsOnOnes : Prop :=
  (∀ s : State, ∃ w, s.busRead 4 0x014#20 = ⟨.okay, w, s⟩ ∧
    w.getLsbD 0 = s.status.busy ∧ w.getLsbD 1 = s.status.done ∧ w.getLsbD 2 = s.status.overrun ∧
    w.getLsbD 3 = s.status.treeValid ∧ w.getLsbD 4 = s.status.trieValid ∧ w.getLsbD 5 = s.status.degenerate ∧
    w.getLsbD 6 = false ∧ w.getLsbD 7 = false ∧ w.extractLsb' 8 8 = s.status.errCode ∧
    w.extractLsb' 16 16 = 0#16) ∧
  (∀ (s : State) (v : Word), s.busWrite 4 0x014#20 v = ⟨.okay, { s with status := { s.status with
    done := if v.getLsbD 1 then false else s.status.done
    overrun := if v.getLsbD 2 then false else s.status.overrun } }⟩) ∧
  (State.reset.busRead 4 0x014#20).data = 0#32

/-- R35 to R43: what the result and length registers read while BUSY = 0, with zeros above the field, and that a host
write to a length register stores the value as written. -/
def Obligations.RegistersReadTheirFields : Prop :=
  ∀ (s : State) (v : Word), s.status.busy = false →
    s.busRead 4 0x018#20 = ⟨.okay, s.lastCmd, s⟩ ∧
    s.busRead 4 0x01C#20 = ⟨.okay, s.textLen, s⟩ ∧
    s.busRead 4 0x020#20 = ⟨.okay, s.bitsLen, s⟩ ∧
    s.busRead 4 0x024#20 = ⟨.okay, BitVec.ofNat 32 s.root.toNat, s⟩ ∧
    s.busRead 4 0x028#20 = ⟨.okay, BitVec.ofNat 32 s.nodeCount.toNat, s⟩ ∧
    s.busRead 4 0x02C#20 = ⟨.okay, BitVec.ofNat 32 s.leafCount.toNat, s⟩ ∧
    s.busRead 4 0x030#20 = ⟨.okay, BitVec.ofNat 32 s.minLen.toNat, s⟩ ∧
    s.busRead 4 0x034#20 = ⟨.okay, BitVec.ofNat 32 s.maxLen.toNat, s⟩ ∧
    s.busRead 4 0x038#20 = ⟨.okay, s.dropCount, s⟩ ∧
    s.busWrite 4 0x01C#20 v = ⟨.okay, { s with textLen := v }⟩ ∧
    s.busWrite 4 0x020#20 v = ⟨.okay, { s with bitsLen := v }⟩

/-- R68 to R70: a word of the TEXT or BITS window reads the four bytes at 4k to 4k + 3, the first in bits 7:0, bytes
at and above the capacity as 0. So the bytes a host makes of the words it reads back (R204, R205) are the first bytes of
the memory. -/
def Obligations.ByteWindowsReadLittleEndian : Prop :=
  (∀ (s : State) (len : Nat), s.status.busy = false →
    (len ≤ 0x10000 → len ≤ s.params.textCap →
      bytesOfWords len ((List.range ((len + 3) / 4)).map
        (fun k => (s.busRead 4 (BitVec.ofNat 20 (0x10000 + 4 * k))).data)) = (List.range len).map s.textByte) ∧
    (len ≤ 0x80000 → len ≤ s.params.bitsCap →
      bytesOfWords len ((List.range ((len + 3) / 4)).map
        (fun k => (s.busRead 4 (BitVec.ofNat 20 (0x80000 + 4 * k))).data)) = (List.range len).map s.bitsByte)) ∧
  ∀ (s : State) (k j : Nat), s.status.busy = false → j < 4 →
    (k < 0x4000 → ∃ w, s.busRead 4 (BitVec.ofNat 20 (0x10000 + 4 * k)) = ⟨.okay, w, s⟩ ∧
      w.extractLsb' (8 * j) 8 = if 4 * k + j < s.params.textCap then s.textByte (4 * k + j) else 0#8) ∧
    (k < 0x20000 → ∃ w, s.busRead 4 (BitVec.ofNat 20 (0x80000 + 4 * k)) = ⟨.okay, w, s⟩ ∧
      w.extractLsb' (8 * j) 8 = if 4 * k + j < s.params.bitsCap then s.bitsByte (4 * k + j) else 0#8)

/-- R68 to R70: a write to word k of the TEXT or BITS window sets the bytes 4k to 4k + 3 that lie below the capacity,
from bits 7:0 up; every other byte of the memory reads as before, and nothing else changes. So a host that loads a value
into an idle block (R202, R204, R205) stores the bytes of it that lie below the capacity, 0 up to the end of its last word,
and its length, which is above the capacity whenever the value is (for 2^32 bytes or more by the choice of log 19), and
changes nothing else. -/
def Obligations.ByteWindowsWriteLittleEndian : Prop :=
  (∀ (s : State) (bs : List Byte) (rest : List HostOp),
    s.params.legal = true → s.hasReset = true → s.status.busy = false →
    (s.master.script = loadText bs ++ rest → ∃ t, Sys2Proof.core.run (loadText bs).length s = .next t ∧
      (bs.length < 2 ^ 32 → t.textLen.toNat = bs.length) ∧
      (s.params.textCap < bs.length → s.params.textCap < t.textLen.toNat) ∧
      (∀ i, t.textByte i = if i < 4 * ((bs.length + 3) / 4) ∧ i < s.params.textCap
        then bs.getD i 0#8 else s.textByte i) ∧
      t = { s with text := t.text, textLen := t.textLen, master := { s.master with
        script := rest, replies := t.master.replies } }) ∧
    (s.master.script = loadBits bs ++ rest → ∃ t, Sys2Proof.core.run (loadBits bs).length s = .next t ∧
      (bs.length < 2 ^ 32 → t.bitsLen.toNat = bs.length) ∧
      (s.params.bitsCap < bs.length → s.params.bitsCap < t.bitsLen.toNat) ∧
      (∀ i, t.bitsByte i = if i < 4 * ((bs.length + 3) / 4) ∧ i < s.params.bitsCap
        then bs.getD i 0#8 else s.bitsByte i) ∧
      t = { s with bits := t.bits, bitsLen := t.bitsLen, master := { s.master with
        script := rest, replies := t.master.replies } })) ∧
  ∀ (s : State) (k : Nat) (v : Word), s.status.busy = false →
    (k < 0x4000 → ∃ t, s.busWrite 4 (BitVec.ofNat 20 (0x10000 + 4 * k)) v = ⟨.okay, t⟩ ∧
      t = { s with text := t.text } ∧
      ∀ i, t.textByte i = if 4 * k ≤ i ∧ i < 4 * k + 4 ∧ i < s.params.textCap
        then v.extractLsb' (8 * (i - 4 * k)) 8 else s.textByte i) ∧
    (k < 0x20000 → ∃ t, s.busWrite 4 (BitVec.ofNat 20 (0x80000 + 4 * k)) v = ⟨.okay, t⟩ ∧
      t = { s with bits := t.bits } ∧
      ∀ i, t.bitsByte i = if 4 * k ≤ i ∧ i < 4 * k + 4 ∧ i < s.params.bitsCap
        then v.extractLsb' (8 * (i - 4 * k)) 8 else s.bitsByte i)

/-- R71, R100: what the words of a code-table entry read while BUSY = 0: VALID and LEN in word 0, 32 code bits in each
of words 1 to 8, 0 in words 9 to 15; and the code of an entry has LEN characters, character j being BITS[j] (R12). So the
entry a host makes of the words 0 to 8 it reads back (R203) is the entry. -/
def Obligations.CodeTableWordsRead : Prop :=
  (∀ e : CtEntry, e.code.length = e.len.toNat ∧
    ∀ j, j < e.len.toNat → e.code[j]? = some (e.bits.getLsbD j)) ∧
  (∀ (s : State) (c : Byte), s.status.busy = false →
    CtEntry.ofWords (fun w => (s.busRead 4 (BitVec.ofNat 20 (0x2000 + 64 * c.toNat + 4 * w))).data) = s.ct.entry c) ∧
  ∀ (s : State) (c : Byte) (w : Nat), s.status.busy = false → w < 16 →
    ∃ d, s.busRead 4 (BitVec.ofNat 20 (0x2000 + 64 * c.toNat + 4 * w)) = ⟨.okay, d, s⟩ ∧
      (w = 0 → d.getLsbD 31 = (s.ct.entry c).valid ∧ d.extractLsb' 8 23 = 0#23 ∧
        d.extractLsb' 0 8 = (s.ct.entry c).len) ∧
      (1 ≤ w → w ≤ 8 → ∀ j, j < 32 → d.getLsbD j = (s.ct.entry c).bits.getLsbD (32 * (w - 1) + j)) ∧
      (9 ≤ w → d = 0#32)

/-- R71: a write to word 0 of an entry while BUSY = 0 sets VALID and LEN, to words 1 to 8 their 32 code bits; each of
them clears TRIE_VALID; a write to words 9 to 15 changes nothing; no other entry and nothing else changes. -/
def Obligations.CodeTableWordsWrite : Prop :=
  ∀ (s : State) (c : Byte) (w : Nat) (v : Word), s.status.busy = false → w < 16 →
    ∃ t, s.busWrite 4 (BitVec.ofNat 20 (0x2000 + 64 * c.toNat + 4 * w)) v = ⟨.okay, t⟩ ∧
      (w ≤ 8 → t = { s with ct := t.ct, status := { s.status with trieValid := false } } ∧
        ∀ d, d ≠ c → t.ct.entry d = s.ct.entry d) ∧
      (w = 0 → t.ct.entry c = { s.ct.entry c with valid := v.getLsbD 31, len := v.extractLsb' 0 8 }) ∧
      (1 ≤ w → w ≤ 8 → (t.ct.entry c).valid = (s.ct.entry c).valid ∧ (t.ct.entry c).len = (s.ct.entry c).len ∧
        ∀ j, j < 256 → (t.ct.entry c).bits.getLsbD j =
          if 32 * (w - 1) ≤ j ∧ j < 32 * w then v.getLsbD (j - 32 * (w - 1)) else (s.ct.entry c).bits.getLsbD j) ∧
      (9 ≤ w → t = s)

/-- R72, R99, R226: while BUSY = 0 the FREQ window reads the counters, and the NODE window the two words of every node:
those of R99's layout for a node a BUILD_TREE has written, any value at all (log 5, 6) for one that none has written
since reset; writes to both are ignored. -/
def Obligations.FreqAndNodeWindowsRead : Prop :=
  ∀ (s : State) (v : Word), s.status.busy = false →
    (∀ c : Byte, s.busRead 4 (BitVec.ofNat 20 (0x100 + 4 * c.toNat)) = ⟨.okay, s.freq.entry c, s⟩ ∧
      s.busWrite 4 (BitVec.ofNat 20 (0x100 + 4 * c.toNat)) v = ⟨.okay, s⟩) ∧
    ∀ i, i ≤ 510 →
      (match Sparse.get? s.nodes i with
        | none =>
          s.busRead 4 (BitVec.ofNat 20 (0x1000 + 8 * i)) = ⟨.okay, Config.nodeFill s.fill i false, s⟩ ∧
          s.busRead 4 (BitVec.ofNat 20 (0x1000 + 8 * i + 4)) = ⟨.okay, Config.nodeFill s.fill i true, s⟩
        | some (.leaf c f) =>
          s.busRead 4 (BitVec.ofNat 20 (0x1000 + 8 * i)) = ⟨.okay, f, s⟩ ∧
          s.busRead 4 (BitVec.ofNat 20 (0x1000 + 8 * i + 4)) = ⟨.okay, BitVec.ofNat 32 c.toNat, s⟩
        | some (.internal l r f) =>
          s.busRead 4 (BitVec.ofNat 20 (0x1000 + 8 * i)) = ⟨.okay, f, s⟩ ∧
          s.busRead 4 (BitVec.ofNat 20 (0x1000 + 8 * i + 4)) =
            ⟨.okay, BitVec.ofNat 32 (0x80000000 + r.toNat * 65536 + l.toNat), s⟩) ∧
      s.busWrite 4 (BitVec.ofNat 20 (0x1000 + 8 * i)) v = ⟨.okay, s⟩ ∧
      s.busWrite 4 (BitVec.ofNat 20 (0x1000 + 8 * i + 4)) v = ⟨.okay, s⟩

/-- R75: every access to a busy block: what is performed, what has no effect, what is dropped and sets OVERRUN, what
reads its defined value and what reads a fresh free value. -/
def Obligations.BusyBlockAnswersByTheTable : Prop :=
  ∀ (s : State) (off : Offset) (v : Word), s.status.busy = true → off.toNat % 4 = 0 →
    (off.toNat = 0x010 → s.busWrite 4 off v = ⟨.okay, { s with irqEn := v.getLsbD 0 }⟩) ∧
    (off.toNat = 0x014 → s.busWrite 4 off v = ⟨.okay, { s with status := { s.status with
      done := s.status.done && !v.getLsbD 1, overrun := s.status.overrun && !v.getLsbD 2 } }⟩) ∧
    (ReservedOffset off.toNat ∨ ReadOnlyOffset off.toNat → s.busWrite 4 off v = ⟨.okay, s⟩) ∧
    (InputOffset off.toNat →
      s.busWrite 4 off v = ⟨.okay, { s with status := { s.status with overrun := true } }⟩) ∧
    (off.toNat = 0x000 → s.busRead 4 off = ⟨.okay, 0x48554646#32, s⟩) ∧
    (off.toNat = 0x004 → s.busRead 4 off = ⟨.okay, BitVec.ofNat 32 s.params.textCap, s⟩) ∧
    (off.toNat = 0x008 → s.busRead 4 off = ⟨.okay, BitVec.ofNat 32 s.params.bitsCap, s⟩) ∧
    (off.toNat = 0x00C → s.busRead 4 off = ⟨.okay, BitVec.ofNat 32 s.params.trieCap, s⟩) ∧
    (off.toNat = 0x010 → s.busRead 4 off = ⟨.okay, (if s.irqEn then 1#32 else 0#32), s⟩) ∧
    (off.toNat = 0x014 → s.busRead 4 off = ⟨.okay, s.status.word, s⟩) ∧
    (ReservedOffset off.toNat → s.busRead 4 off = ⟨.okay, 0#32, s⟩) ∧
    (¬ AlwaysReadableOffset off.toNat →
      s.busRead 4 off = ⟨.okay, Config.busyRead s.draws, { s with draws := s.draws + 1 }⟩)

/-- R73: no read changes the block (a read of "any value" uses up one draw of the model, log 4), and every write but one
to COMMAND is idempotent: made twice it leaves what it leaves made once. -/
def Obligations.AccessesAreIdempotentExceptCommand : Prop :=
  ∀ (s : State) (size : Nat) (off : Offset) (v : Word),
    (∃ d, (s.busRead size off).state = { s with draws := d }) ∧
    (off ≠ 0x018#20 →
      ((s.busWrite size off v).state.busWrite size off v).state = (s.busWrite size off v).state)

/-- R77: while a command executes, no host operation but a reset changes anything a command reads or writes, the command
itself, or BUSY. What may change is IRQ_EN, DONE, OVERRUN, the host's own state and the draw counter. -/
def Obligations.HostCannotChangeARunningCommandsInputs : Prop :=
  ∀ (s : State) (op : HostOp) (rest : List HostOp), s.status.busy = true → op ≠ .reset →
    ∃ e d o m n, s.perform op rest = { s with
      irqEn := e, status := { s.status with done := d, overrun := o }, master := m, draws := n }

/-- R192: the interrupt level is IRQ_EN and DONE at every instant: a write of CTRL or STATUS moves it at once, and so
does the completion of any command with IRQ_EN = 1, with or without an error (R190). -/
def Obligations.InterruptFollowsEnableAndDone : Prop :=
  (∀ s : State, s.irq = true ↔ s.irqEn = true ∧ s.status.done = true) ∧
  (∀ (s : State) (v : Word),
    (s.busWrite 4 0x010#20 v).state.irq = (v.getLsbD 0 && s.status.done) ∧
    (s.busWrite 4 0x014#20 v).state.irq = (s.irq && !v.getLsbD 1)) ∧
  (∀ (i : Instr) (s t : State), exec i s = .next t → t.irq = s.irqEn)

/-- R30: OVERRUN, once 1, stays 1 over every step but one in which the host writes STATUS with bit 2 set or resets the
block; and a step raises it only as one in which the host makes, and the block drops, a write to COMMAND, a length
register or the CT, TEXT or BITS window while BUSY = 1. A step in which a completion is due is no step of the host. -/
def Obligations.OverrunIsStickyAndRecordsADroppedWrite : Prop :=
  ∀ s t : State, step s = .next t →
    (s.status.overrun = true → t.status.overrun = true ∨
      s.completionDue = false ∧ ((∃ rest, s.master.script = .reset :: rest) ∨
        ∃ v rest, s.master.script = .write 4 0x014#20 v :: rest ∧ v.getLsbD 2 = true)) ∧
    (s.status.overrun = false → t.status.overrun = true → s.status.busy = true ∧ s.completionDue = false ∧
      ∃ off v rest, s.master.script = .write 4 off v :: rest ∧ off.toNat % 4 = 0 ∧ InputOffset off.toNat)

/-- R31: TREE_VALID is set by a successful BUILD_TREE, also as the stage of an ENCODE that gets so far, cleared by CLEAR
and reset, and changed by nothing else: no other command, no failed BUILD_TREE, no host access. -/
def Obligations.TreeValidFollowsBuildTree : Prop :=
  (∀ (i : Instr) (s t : State), exec i s = .next t → t.status.treeValid =
    match i with
    | .buildTree => s.status.treeValid || t.status.errCode == 0#8
    | .encode => s.status.treeValid || t.status.errCode == 0#8 || t.status.errCode == 3#8
    | .clear => false
    | _ => s.status.treeValid) ∧
  (∀ (s : State) (op : HostOp) (rest : List HostOp), (s.perform op rest).status.treeValid =
    match op with
    | .reset => false
    | _ => s.status.treeValid) ∧
  State.reset.status.treeValid = false

/-- R32: TRIE_VALID is set by a successful BUILD_DECODE_TREE, also as the stage of a DECODE, cleared by a successful
GEN_CODES (also the stage of ENCODE), by an accepted write to words 0 to 8 of the code-table window while BUSY = 0, by
CLEAR and by reset, and changed by nothing else; and when BUILD_DECODE_TREE fails in a state of the invariant, it is
0. -/
def Obligations.TrieValidFollowsTheCodeTable : Prop :=
  (∀ (i : Instr) (s t : State), exec i s = .next t → t.status.trieValid =
    match i with
    | .buildDecodeTree => s.status.trieValid || t.status.errCode == 0#8
    | .decode => s.status.trieValid || t.status.errCode != 6#8
    | .genCodes => s.status.trieValid && t.status.errCode != 0#8
    | .encode => s.status.trieValid && t.status.errCode != 0#8 && t.status.errCode != 3#8
    | .clear => false
    | _ => s.status.trieValid) ∧
  (∀ (s : State) (off : Offset) (v : Word), off.toNat % 4 = 0 →
    (s.busWrite 4 off v).state.status.trieValid =
      (s.status.trieValid && !(!s.status.busy && decide (0x2000 ≤ off.toNat ∧ off.toNat < 0x6000 ∧
        (off.toNat - 0x2000) % 64 < 36)))) ∧
  (∀ s t : State, s.Inv → exec .buildDecodeTree s = .next t → t.status.errCode ≠ 0#8 →
    s.status.trieValid = false ∧ t.status.trieValid = false) ∧
  State.reset.status.trieValid = false

/-- R54, R220, R221, R222: a step in which the host resets the block, from any state at all before the first reset, and
after it from any state in which no completion is due, so also while a command executes, gives every register, FREQ, CT
and TRIE its reset value and drops the command; TEXT_MEM, BITS_MEM and NODE hold any value, that of a new draw (`fill`
and `draws`, the model's own fields, log 5, 14). The parameters stay, and the host goes on with the rest of its
script. -/
def Obligations.ResetGivesTheTable : Prop :=
  ∀ (s : State) (rest : List HostOp), s.master.script = .reset :: rest →
    (s.hasReset = false ∨ s.completionDue = false) →
    ∃ t, step s = .next t ∧ t.phase = .idle ∧ t.hasReset = true ∧
      t.irqEn = false ∧ t.status.word = 0#32 ∧ t.lastCmd = 0#32 ∧ t.textLen = 0#32 ∧ t.bitsLen = 0#32 ∧
      t.root = 0#9 ∧ t.nodeCount = 0#10 ∧ t.leafCount = 0#9 ∧ t.minLen = 0#8 ∧ t.maxLen = 0#8 ∧
      t.dropCount = 0#32 ∧ (∀ c, t.freq.entry c = 0#32) ∧
      (∀ c, (t.ct.entry c).valid = false ∧ (t.ct.entry c).len = 0#8 ∧ (t.ct.entry c).bits = 0#256) ∧
      t.trie = [] ∧ t.params = s.params ∧ t.master = { s.master with script := rest } ∧
      t.fill = s.draws ∧ t.draws = s.draws + 1 ∧
      (∀ i, t.textByte i = Config.textFill t.fill i) ∧ (∀ i, t.bitsByte i = Config.bitsFill t.fill i) ∧
      (∀ i second, t.nodeWord i second = Config.nodeFill t.fill i second)

/-- R102: `wait` reads STATUS, once a step; it stays the host's next operation while BUSY reads 1 and is over when BUSY
reads 0. R202: `waitIrq` makes no access; it stays the host's next operation while `irq` is 0 and is over when `irq`
is 1. -/
def Obligations.WaitReadsStatusUntilBusyIsZero : Prop :=
  (∀ (s : State) (rest : List HostOp), s.master.script = .waitIrq :: rest →
    (s.irq = false → s.perform .waitIrq rest = s) ∧
    (s.irq = true → s.perform .waitIrq rest = { s with master := { s.master with script := rest } })) ∧
  ∀ (s : State) (rest : List HostOp), s.master.script = .wait :: rest →
    (s.status.busy = true → s.perform .wait rest = { s with master := { s.master with
      replies := .read .okay s.status.word :: s.master.replies } }) ∧
    (s.status.busy = false → s.perform .wait rest = { s with master := { s.master with
      script := rest, replies := .read .okay s.status.word :: s.master.replies } })

/-! ### Control commands -/

/-- R114: NOP is the word 0; it completes with OK and changes nothing else. -/
def Obligations.NopCompletesWithNoEffect : Prop :=
  encodeWord .nop = 0x00000000#32 ∧
  ∀ s : State, exec .nop s =
    .next { s with status := { s.status with busy := false, done := true, errCode := 0#8 } }

/-- R115: CLEAR is the word 1; it always completes with OK; FREQ, CT, the six result registers, the three validity
flags and TRIE take their reset values; nothing else changes. -/
def Obligations.ClearReturnsEngineStateToReset : Prop :=
  encodeWord .clear = 0x00000001#32 ∧
  ∀ s : State, ∃ t, exec .clear s = .next t ∧
    (∀ c, t.freq.entry c = 0#32) ∧
    (∀ c, (t.ct.entry c).valid = false ∧ (t.ct.entry c).len = 0#8 ∧ (t.ct.entry c).bits = 0#256) ∧
    t = { s with
      freq := t.freq, ct := t.ct
      leafCount := 0#9, root := 0#9, nodeCount := 0#10, minLen := 0#8, maxLen := 0#8, dropCount := 0#32
      trie := []
      status := { s.status with
        busy := false, done := true, errCode := 0#8, treeValid := false, trieValid := false, degenerate := false } }

/-! ### Encoder commands -/

/-- R121: COUNT_FREQ is the word 0x10; it fails with LENGTH when TEXT_LEN > TEXT_CAP; else it completes with OK,
FREQ[c] is the number of indices below TEXT_LEN whose byte is c, LEAF_COUNT the number of symbols that occur, and
nothing else changes. -/
def Obligations.CountFreqCountsTheText : Prop :=
  encodeWord .countFreq = 0x00000010#32 ∧
  ∀ s : State,
    (s.params.textCap < s.textLen.toNat → exec .countFreq s =
      .next { s with status := { s.status with busy := false, done := true, errCode := 2#8 } }) ∧
    (s.textLen.toNat ≤ s.params.textCap → ∃ t, exec .countFreq s = .next t ∧
      (∀ c, (t.freq.entry c).toNat =
        ((List.range s.textLen.toNat).filter (fun i => s.textByte i = c)).length) ∧
      t.leafCount.toNat = (symbols.filter (fun c => t.freq.entry c ≠ 0#32)).length ∧
      t = { s with
        freq := t.freq, leafCount := t.leafCount
        status := { s.status with busy := false, done := true, errCode := 0#8 } })

/-- R123, R124: with at least two nodes in the queue, one turn of the loop takes out the least node and then the least
of the others, by frequency and then by index; the first becomes LEFT and the second RIGHT of a new internal node with
the sum of their frequencies; it takes the next free index and joins the queue. -/
def Obligations.CombinationTakesTheTwoLeastNodes : Prop :=
  ∀ t : Forest, 2 ≤ t.queue.length → (t.queue.map QueueItem.node).Nodup →
    ∃ a b, a ∈ t.queue ∧ b ∈ t.queue ∧ a.node ≠ b.node ∧
      (∀ c ∈ t.queue, c.node ≠ a.node → a.freq < c.freq ∨ (a.freq = c.freq ∧ a.node < c.node)) ∧
      (∀ c ∈ t.queue, c.node ≠ a.node → c.node ≠ b.node →
        b.freq < c.freq ∨ (b.freq = c.freq ∧ b.node < c.node)) ∧
      t.combine = ⟨t.nodes ++ [.internal (BitVec.ofNat 9 a.node) (BitVec.ofNat 9 b.node) (a.freq + b.freq)],
        t.queue.filter (fun c => c.node ≠ a.node ∧ c.node ≠ b.node) ++ [⟨t.nodes.length, a.freq + b.freq⟩]⟩

/-- R125: the queue starts with the indices of the leaves, and after every turn of the loop each item of the queue carries
the frequency of its node (R123, log 15). BUILD_TREE fails with EMPTY_TEXT when every count is 0; else it completes with
OK and writes the nodes the loop makes from the leaves, run until one node is left in the queue, at indices from 0, that
node as ROOT, their number as NODE_COUNT, TREE_VALID and DEGENERATE; nodes above and everything else are as they
were. -/
def Obligations.BuildTreeRunsTheLoopToItsEnd : Prop :=
  (∀ f : Table Word, (leafForest f).queue.map QueueItem.node = List.range (leafForest f).nodes.length ∧
    ∀ turns, ∀ item ∈ ((leafForest f).combineAll turns).queue,
      ∃ n, ((leafForest f).combineAll turns).nodes[item.node]? = some n ∧ n.freq = item.freq) ∧
  ∀ s : State,
    ((∀ c, s.freq.entry c = 0#32) → exec .buildTree s =
      .next { s with status := { s.status with busy := false, done := true, errCode := 1#8 } }) ∧
    ((∃ c, s.freq.entry c ≠ 0#32) → ∃ t q turns, exec .buildTree s = .next t ∧
      (leafForest s.freq).combineAll turns = q ∧ q.queue = [⟨t.root.toNat, (t.nodeAt t.root.toNat).freq⟩] ∧
      t.nodeCount.toNat = q.nodes.length ∧
      (∀ i, (h : i < q.nodes.length) → t.nodeAt i = q.nodes[i] ∧
        ∀ second, t.nodeWord i second = q.nodes[i].word second) ∧
      (∀ i, q.nodes.length ≤ i → t.nodeAt i = s.nodeAt i ∧
        ∀ second, t.nodeWord i second = s.nodeWord i second) ∧
      t = { s with
        nodes := t.nodes, root := t.root, nodeCount := t.nodeCount
        status := { s.status with
          busy := false, done := true, errCode := 0#8, treeValid := true
          degenerate := decide ((symbols.filter (fun c => s.freq.entry c ≠ 0#32)).length = 1) } })

/-- R122: after a successful BUILD_TREE the node of a symbol with a non-zero count is a leaf with that symbol and
count, at the index that is the number of smaller such symbols. -/
def Obligations.LeavesStandInSymbolOrder : Prop :=
  ∀ s t : State, exec .buildTree s = .next t → t.status.errCode = 0#8 →
    ∀ c, s.freq.entry c ≠ 0#32 →
      t.nodeAt (symbols.filter (fun d => d < c ∧ s.freq.entry d ≠ 0#32)).length = .leaf c (s.freq.entry c)

/-- R126: with exactly one symbol of non-zero count, BUILD_TREE writes that leaf at index 0, ROOT = 0, NODE_COUNT = 1
and DEGENERATE = 1; GEN_CODES then gives the symbol VALID = 1 and LEN = 0 and no other symbol an entry. -/
def Obligations.DegenerateTreeIsOneLeafWithTheEmptyCode : Prop :=
  ∀ (s : State) (c : Byte), s.freq.entry c ≠ 0#32 → (∀ d, d ≠ c → s.freq.entry d = 0#32) →
    ∃ t u, exec .buildTree s = .next t ∧ t.nodeAt 0 = .leaf c (s.freq.entry c) ∧ t.root = 0#9 ∧
      t.nodeCount = 1#10 ∧ t.status.degenerate = true ∧ exec .genCodes t = .next u ∧
      (u.ct.entry c).valid = true ∧ (u.ct.entry c).len = 0#8 ∧ (∀ d, d ≠ c → (u.ct.entry d).valid = false)

/-- R127: the shape of a built tree of n leaves: NODE_COUNT = 2n − 1, ROOT = 2n − 2, every node below NODE_COUNT is a leaf
(the first n) or has two children of lower index and the sum of their frequencies (R124), the frequency of the root is
the sum of all counts, which is TEXT_LEN when the counts came from COUNT_FREQ, and every node below NODE_COUNT is
reached from ROOT by exactly one path. -/
def Obligations.BuiltTreeHasTheStatedShape : Prop :=
  ∀ s t : State, exec .buildTree s = .next t → t.status.errCode = 0#8 →
    ∃ n, n = (symbols.filter (fun c => s.freq.entry c ≠ 0#32)).length ∧ t.TreeOf n ∧
      (t.nodeAt t.root.toNat).freq = (symbols.map s.freq.entry).sum ∧
      (∀ i, i < t.nodeCount.toNat → ∃ p, t.follow t.root.toNat p = some i ∧
        ∀ q, t.follow t.root.toNat q = some i → q = p) ∧
      ∀ r : State, exec .countFreq r = .next s → s.status.errCode = 0#8 →
        (t.nodeAt t.root.toNat).freq = s.textLen

/-- R128: GEN_CODES fails with NO_TREE when TREE_VALID = 0; else, on a tree whose walk ends (`WalkEnds`, which the
invariant keeps), it completes with OK: a symbol has a present entry exactly when a path leads from ROOT to a leaf of
it, that path is its code, the path's length its LEN, BITS[j] character j of the path (R100) and 0 above, every other
entry is absent, MIN_LEN and MAX_LEN follow the table, TRIE_VALID is 0, and nothing else changes. -/
def Obligations.GenCodesRecordsThePathsToTheLeaves : Prop :=
  ∀ s : State,
    (s.status.treeValid = false → exec .genCodes s =
      .next { s with status := { s.status with busy := false, done := true, errCode := 4#8 } }) ∧
    (s.status.treeValid = true → s.WalkEnds → ∃ t, exec .genCodes s = .next t ∧
      (∀ (c : Byte) (p : Code) (i : Nat) (f : Word),
        s.follow s.root.toNat p = some i → s.nodeAt i = .leaf c f →
        (t.ct.entry c).valid = true ∧ (t.ct.entry c).len.toNat = p.length ∧ (t.ct.entry c).code = p ∧
          (∀ j, (h : j < p.length) → (t.ct.entry c).bits.getLsbD j = p[j]) ∧
          ∀ j, p.length ≤ j → (t.ct.entry c).bits.getLsbD j = false) ∧
      (∀ c : Byte, (∀ p i f, s.follow s.root.toNat p = some i → s.nodeAt i ≠ .leaf c f) →
        t.ct.entry c = ⟨false, 0#8, 0#256⟩) ∧
      t.minLen.toNat = minDecodable t.ct ∧ t.maxLen.toNat = maxDecodable t.ct ∧
      t = { s with
        ct := t.ct, minLen := t.minLen, maxLen := t.maxLen
        status := { s.status with busy := false, done := true, errCode := 0#8, trieValid := false } })

/-- R135: MIN_LEN and MAX_LEN, as GEN_CODES and BUILD_DECODE_TREE compute them, are the least and the greatest LEN of an
entry with VALID = 1 and LEN > 0, and 0 when there is none. -/
def Obligations.MinAndMaxLenRangeOverDecodableEntries : Prop :=
  ∀ ct : Table CtEntry,
    ((∀ c, (ct.entry c).valid = true → (ct.entry c).len = 0#8) → minDecodable ct = 0 ∧ maxDecodable ct = 0) ∧
    ((∃ c, (ct.entry c).valid = true ∧ (ct.entry c).len ≠ 0#8) →
      (∃ c, (ct.entry c).valid = true ∧ (ct.entry c).len ≠ 0#8 ∧ (ct.entry c).len.toNat = minDecodable ct) ∧
      (∃ c, (ct.entry c).valid = true ∧ (ct.entry c).len ≠ 0#8 ∧ (ct.entry c).len.toNat = maxDecodable ct) ∧
      ∀ c, (ct.entry c).valid = true → (ct.entry c).len ≠ 0#8 →
        minDecodable ct ≤ (ct.entry c).len.toNat ∧ (ct.entry c).len.toNat ≤ maxDecodable ct)

/-- R129: the code table of a tree of n leaves: exactly the symbols with a non-zero count are present; for n ≥ 2 each
has LEN ≥ 1, no present code is a prefix of another, and the sum of 2^−LEN is exactly 1 (here times 2^255); for n = 1
the one entry has LEN = 0. -/
def Obligations.GeneratedCodesAreACompletePrefixFreeCode : Prop :=
  ∀ s t u : State, exec .buildTree s = .next t → t.status.errCode = 0#8 → exec .genCodes t = .next u →
    (∀ c, (u.ct.entry c).valid = true ↔ s.freq.entry c ≠ 0#32) ∧
    (2 ≤ (symbols.filter (fun c => s.freq.entry c ≠ 0#32)).length →
      (∀ c, (u.ct.entry c).valid = true → 1 ≤ (u.ct.entry c).len.toNat) ∧
      (∀ c d, c ≠ d → (u.ct.entry c).valid = true → (u.ct.entry d).valid = true →
        ¬ (u.ct.entry c).code <+: (u.ct.entry d).code) ∧
      ((symbols.filter (fun c => (u.ct.entry c).valid)).map
        (fun c => 2 ^ (255 - (u.ct.entry c).len.toNat))).sum = 2 ^ 255) ∧
    ((symbols.filter (fun c => s.freq.entry c ≠ 0#32)).length = 1 →
      ∀ c, (u.ct.entry c).valid = true → (u.ct.entry c).len = 0#8)

/-- R130: SERIALIZE is the word 0x13; it fails with LENGTH, then SYMBOL_ABSENT, then BITS_OVERFLOW, each leaving
everything else as it was; else it completes with OK, BITS_LEN is the total length, the bytes below it are the
characters of the codes of the text in order, every other byte of BITS_MEM and everything else is as it was. -/
def Obligations.SerializeConcatenatesTheCodes : Prop :=
  encodeWord .serialize = 0x00000013#32 ∧
  ∀ s : State,
    let text := (List.range s.textLen.toNat).map s.textByte
    let total := (text.map (fun b => (s.ct.entry b).len.toNat)).sum
    let chars := text.flatMap (fun b => (s.ct.entry b).code)
    (s.params.textCap < s.textLen.toNat → exec .serialize s =
      .next { s with status := { s.status with busy := false, done := true, errCode := 2#8 } }) ∧
    (s.textLen.toNat ≤ s.params.textCap → (∃ b ∈ text, (s.ct.entry b).valid = false) → exec .serialize s =
      .next { s with status := { s.status with busy := false, done := true, errCode := 5#8 } }) ∧
    (s.textLen.toNat ≤ s.params.textCap → (∀ b ∈ text, (s.ct.entry b).valid = true) →
      s.params.bitsCap < total → exec .serialize s =
      .next { s with status := { s.status with busy := false, done := true, errCode := 3#8 } }) ∧
    (s.textLen.toNat ≤ s.params.textCap → (∀ b ∈ text, (s.ct.entry b).valid = true) →
      total ≤ s.params.bitsCap → chars.length = total ∧ ∃ t, exec .serialize s = .next t ∧
      (∀ i, t.bitsByte i = match chars[i]? with
        | some true => 0x31#8
        | some false => 0x30#8
        | none => s.bitsByte i) ∧
      t = { s with
        bits := t.bits, bitsLen := BitVec.ofNat 32 total
        status := { s.status with busy := false, done := true, errCode := 0#8 } })

/-- R132: with a non-empty text within TEXT_CAP, ENCODE does what COUNT_FREQ, BUILD_TREE, GEN_CODES and SERIALIZE do
when they are run one after the other, and ends with the code SERIALIZE ends with. -/
def Obligations.EncodeIsItsFourStagesInOrder : Prop :=
  ∀ s : State, s.textLen.toNat ≤ s.params.textCap → s.textLen ≠ 0#32 →
    ∃ a b c d, exec .countFreq s = .next a ∧ exec .buildTree a = .next b ∧ exec .genCodes b = .next c ∧
      exec .serialize c = .next d ∧ exec .encode s = .next d ∧
      a.status.errCode = 0#8 ∧ b.status.errCode = 0#8 ∧ c.status.errCode = 0#8

/-- R132, R133: ENCODE fails with LENGTH or EMPTY_TEXT before any stage and with no other effect; else it always
completes: with OK and the bit-string of the text when that fits BITS_CAP, with BITS_OVERFLOW and BITS_MEM and
BITS_LEN as they were when it does not. Either way the tree and the code table are those of the new text; what no
stage writes is as it was. -/
def Obligations.EncodeCompletesOnEveryText : Prop :=
  ∀ s : State,
    let text := (List.range s.textLen.toNat).map s.textByte
    (s.params.textCap < s.textLen.toNat → exec .encode s =
      .next { s with status := { s.status with busy := false, done := true, errCode := 2#8 } }) ∧
    (s.textLen.toNat ≤ s.params.textCap → s.textLen = 0#32 → exec .encode s =
      .next { s with status := { s.status with busy := false, done := true, errCode := 1#8 } }) ∧
    (s.textLen.toNat ≤ s.params.textCap → s.textLen ≠ 0#32 → ∃ t, exec .encode s = .next t ∧
      (∀ c, (t.freq.entry c).toNat = text.count c) ∧ (∀ c, (t.ct.entry c).valid = true ↔ c ∈ text) ∧
      (t.status.errCode = 0#8 ∧ (text.map (fun b => (t.ct.entry b).len.toNat)).sum ≤ s.params.bitsCap ∧
        t.bitsLen = BitVec.ofNat 32 (text.map (fun b => (t.ct.entry b).len.toNat)).sum ∧
        (∀ i, t.bitsByte i = match (text.flatMap (fun b => (t.ct.entry b).code))[i]? with
          | some true => 0x31#8
          | some false => 0x30#8
          | none => s.bitsByte i) ∨
       t.status.errCode = 3#8 ∧ s.params.bitsCap < (text.map (fun b => (t.ct.entry b).len.toNat)).sum ∧
        t.bits = s.bits ∧ t.bitsLen = s.bitsLen) ∧
      t = { s with
        freq := t.freq, leafCount := t.leafCount, nodes := t.nodes, root := t.root, nodeCount := t.nodeCount
        ct := t.ct, minLen := t.minLen, maxLen := t.maxLen, bits := t.bits, bitsLen := t.bitsLen
        status := { s.status with
          busy := false, done := true, errCode := t.status.errCode, treeValid := true, trieValid := false
          degenerate := t.status.degenerate } })

/-- R9, R133: with BITS_CAP at least 8 × TEXT_CAP, ENCODE never fails with BITS_OVERFLOW, and the bit-string it leaves
takes at most eight characters for each byte of the text. -/
def Obligations.EncodeNeverOverflowsEightTimesTheText : Prop :=
  ∀ s t : State, 8 * s.params.textCap ≤ s.params.bitsCap → exec .encode s = .next t →
    t.status.errCode ≠ 3#8 ∧ (t.status.errCode = 0#8 → t.bitsLen.toNat ≤ 8 * s.textLen.toNat)

/-! ### Decoder commands -/

/-- R152, R153: BUILD_DECODE_TREE fails with TABLE_INVALID, and no other effect, when the decodable code of some
symbol is a prefix of that of another, or the codes have more than TRIE_CAP distinct prefixes (the empty one counted);
else it completes with OK: TRIE holds exactly the decodable pairs, MIN_LEN and MAX_LEN follow the table, TRIE_VALID is
1, and nothing else changes. -/
def Obligations.BuildDecodeTreeChecksAndCapturesTheTable : Prop :=
  ∀ s : State,
    let decodable := fun c : Byte => (s.ct.entry c).valid = true ∧ (s.ct.entry c).len ≠ 0#8
    let clash := ∃ c d, c ≠ d ∧ decodable c ∧ decodable d ∧ (s.ct.entry c).code <+: (s.ct.entry d).code
    let prefixes := { p : Code | p = [] ∨ ∃ c, decodable c ∧ p <+: (s.ct.entry c).code }
    (clash ∨ s.params.trieCap < prefixes.ncard → exec .buildDecodeTree s =
      .next { s with status := { s.status with busy := false, done := true, errCode := 6#8 } }) ∧
    (¬ clash → prefixes.ncard ≤ s.params.trieCap → ∃ t, exec .buildDecodeTree s = .next t ∧
      (∀ c p, ⟨c, p⟩ ∈ t.trie ↔ decodable c ∧ p = (s.ct.entry c).code) ∧
      t.minLen.toNat = minDecodable s.ct ∧ t.maxLen.toNat = maxDecodable s.ct ∧
      t = { s with
        trie := t.trie, minLen := t.minLen, maxLen := t.maxLen
        status := { s.status with busy := false, done := true, errCode := 0#8, trieValid := true } })

/-- R155, R158: the errors of DESERIALIZE in their order, each with no other effect: NO_TRIE, LENGTH, NO_CODES, and
TEXT_OVERFLOW; and with an empty TRIE an empty bit-string decodes to the empty text. -/
def Obligations.DeserializeErrorsInOrder : Prop :=
  ∀ s : State,
    (s.status.trieValid = false → exec .deserialize s =
      .next { s with status := { s.status with busy := false, done := true, errCode := 7#8 } }) ∧
    (s.status.trieValid = true → s.params.bitsCap < s.bitsLen.toNat → exec .deserialize s =
      .next { s with status := { s.status with busy := false, done := true, errCode := 2#8 } }) ∧
    (s.status.trieValid = true → s.bitsLen.toNat ≤ s.params.bitsCap → s.trie = [] → s.bitsLen ≠ 0#32 →
      exec .deserialize s =
      .next { s with status := { s.status with busy := false, done := true, errCode := 8#8 } }) ∧
    (s.status.trieValid = true → s.trie = [] → s.bitsLen = 0#32 → exec .deserialize s =
      .next { s with
        textLen := 0#32, dropCount := 0#32
        status := { s.status with busy := false, done := true, errCode := 0#8 } }) ∧
    (s.status.trieValid = true → s.bitsLen.toNat ≤ s.params.bitsCap → s.trie ≠ [] →
      s.params.textCap < (scanBits s.trie s.charInput).out.length → exec .deserialize s =
      .next { s with status := { s.status with busy := false, done := true, errCode := 9#8 } })

/-- R155, R157, R159: when DESERIALIZE gets past its checks it completes with OK, its output is the text, DROP_COUNT
the number of characters after the last completed symbol; the other bytes of TEXT_MEM and everything else are as they
were. -/
def Obligations.DeserializeWritesTheDecodedText : Prop :=
  ∀ s : State, s.status.trieValid = true → s.bitsLen.toNat ≤ s.params.bitsCap → s.trie ≠ [] →
    (scanBits s.trie s.charInput).out.length ≤ s.params.textCap →
    ∃ t, exec .deserialize s = .next t ∧
      t.textLen.toNat = (scanBits s.trie s.charInput).out.length ∧
      t.dropCount.toNat + (scanBits s.trie s.charInput).last = s.bitsLen.toNat ∧
      (∀ i, t.textByte i = ((scanBits s.trie s.charInput).out[i]?).getD (s.textByte i)) ∧
      t = { s with
        text := t.text, textLen := t.textLen, dropCount := t.dropCount
        status := { s.status with busy := false, done := true, errCode := 0#8 } }

/-- R155: the scan is the greedy parse of the bit-string: the characters up to `last` are the codes of the output
symbols one after the other, and no code is a beginning of what is left. -/
def Obligations.ScanIsTheGreedyParse : Prop :=
  ∀ (trie : List CodePair) (chars : List BitChar), (∀ e ∈ trie, e.code ≠ []) →
    ∃ parsed : List CodePair, (∀ e ∈ parsed, e ∈ trie) ∧
      (scanBits trie chars).out = parsed.map CodePair.symbol ∧
      (scanBits trie chars).last ≤ chars.length ∧
      chars.take (scanBits trie chars).last = parsed.flatMap (fun e => e.code.map BitChar.ofBit) ∧
      ∀ e ∈ trie, ¬ e.code.map BitChar.ofBit <+: chars.drop (scanBits trie chars).last

/-- R154: byte i of the bit-string is read as '0' when it is 0x30, as '1' when it is 0x31, and as a character that is
neither for every other byte; and such a character stops all further output: what follows it changes neither the output
nor where the last symbol ended. -/
def Obligations.NonBitByteStopsTheOutput : Prop :=
  (∀ b : Byte, (BitChar.ofByte b = .zero ↔ b = 0x30#8) ∧ (BitChar.ofByte b = .one ↔ b = 0x31#8) ∧
    (BitChar.ofByte b = .other ↔ b ≠ 0x30#8 ∧ b ≠ 0x31#8)) ∧
  (∀ s : State, s.charInput.length = s.bitsLen.toNat ∧
    ∀ i, i < s.bitsLen.toNat → s.charInput[i]? = some (BitChar.ofByte (s.bitsByte i))) ∧
  ∀ (trie : List CodePair) (before rest : List BitChar),
    (scanBits trie (before ++ .other :: rest)).out = (scanBits trie before).out ∧
    (scanBits trie (before ++ .other :: rest)).last = (scanBits trie before).last

/-- R160: for a prefix-free TRIE of non-empty codes, the walk over the prefix tree gives the same output and the same
`last` as the table scan. -/
def Obligations.WalkerAgreesWithTheScan : Prop :=
  ∀ (trie : List CodePair) (chars : List BitChar),
    prefixClash trie = false → (trie.map CodePair.symbol).Nodup → (∀ e ∈ trie, e.code ≠ []) →
    (walkBits trie chars).out = (scanBits trie chars).out ∧ (walkBits trie chars).last = (scanBits trie chars).last

/-- R162: after a DESERIALIZE that ends with OK in a state of the invariant, TEXT_LEN ≤ BITS_LEN, and when TRIE is not
empty, TEXT_LEN × MIN_LEN + DROP_COUNT ≤ BITS_LEN ≤ TEXT_LEN × MAX_LEN + DROP_COUNT. -/
def Obligations.DecodedLengthsAreBounded : Prop :=
  ∀ s t : State, s.Inv → exec .deserialize s = .next t → t.status.errCode = 0#8 →
    t.textLen.toNat ≤ t.bitsLen.toNat ∧
    (t.trie ≠ [] →
      t.textLen.toNat * t.minLen.toNat + t.dropCount.toNat ≤ t.bitsLen.toNat ∧
      t.bitsLen.toNat ≤ t.textLen.toNat * t.maxLen.toNat + t.dropCount.toNat)

/-- R161: DECODE is BUILD_DECODE_TREE and then, when that succeeds, DESERIALIZE; when it fails DECODE does what it
does. -/
def Obligations.DecodeIsItsTwoStagesInOrder : Prop :=
  ∀ s : State, ∃ a d, exec .buildDecodeTree s = .next a ∧ exec .decode s = .next d ∧
    (a.status.errCode = 0#8 → exec .deserialize a = .next d) ∧ (a.status.errCode ≠ 0#8 → d = a)

/-- R161: DECODE of a table that passes the checks, a bit-string within BITS_CAP and an output within TEXT_CAP completes
with OK, leaves the decoded text and what BUILD_DECODE_TREE captures, and changes nothing else. -/
def Obligations.DecodeLeavesTheDecodedText : Prop :=
  ∀ s : State, prefixClash (decodableSet s.ct) = false → trieNodes (decodableSet s.ct) ≤ s.params.trieCap →
    s.bitsLen.toNat ≤ s.params.bitsCap → decodableSet s.ct ≠ [] →
    (scanBits (decodableSet s.ct) s.charInput).out.length ≤ s.params.textCap →
    ∃ t, exec .decode s = .next t ∧
      t.textLen.toNat = (scanBits (decodableSet s.ct) s.charInput).out.length ∧
      t.dropCount.toNat + (scanBits (decodableSet s.ct) s.charInput).last = s.bitsLen.toNat ∧
      (∀ i, t.textByte i = ((scanBits (decodableSet s.ct) s.charInput).out[i]?).getD (s.textByte i)) ∧
      t = { s with
        trie := decodableSet s.ct, minLen := t.minLen, maxLen := t.maxLen
        text := t.text, textLen := t.textLen, dropCount := t.dropCount
        status := { s.status with busy := false, done := true, errCode := 0#8, trieValid := true } }

/-! ### The whole machine -/

/-- R136: for a text with two distinct symbols, ENCODE that ends with OK, followed by the issue of DECODE and its
completion, gives the text back: TEXT_LEN and the bytes below it are as they were and DROP_COUNT is 0. For a text of one
symbol the round trip gives TEXT_LEN = 0 (R126, R158). -/
def Obligations.DecodeAfterEncodeGivesTheTextBack : Prop :=
  ∀ s t : State, s.Inv → exec .encode s = .next t → t.status.errCode = 0#8 →
    ∃ u, exec .decode (t.issue (encodeWord .decode)) = .next u ∧ u.status.errCode = 0#8 ∧ u.dropCount = 0#32 ∧
      ((∃ i j, i < s.textLen.toNat ∧ j < s.textLen.toNat ∧ s.textByte i ≠ s.textByte j) →
        u.textLen = s.textLen ∧ ∀ i, i < s.textLen.toNat → u.textByte i = s.textByte i) ∧
      ((∀ i j, i < s.textLen.toNat → j < s.textLen.toNat → s.textByte i = s.textByte j) → u.textLen = 0#32)

/-- The invariant holds after reset (the reset values of R54, with the parameters of log 3). -/
def Obligations.InvariantHoldsAtReset : Prop := State.reset.Inv

/-- Every step keeps the invariant, from every state that has it: the memories stay in canonical form, BUSY and DONE are
never both 1, ERR_CODE stays a known code, TREE_VALID = 1 means a tree of R127's shape, TRIE_VALID = 1 means TRIE is the
decodable set of the current table (R31, R32, R52, R127, R181). -/
def Obligations.EveryStepKeepsTheInvariant : Prop :=
  ∀ s t : State, s.Inv → step s = .next t → t.Inv

/-- R180: no error stops the block: from every state of the invariant a step answers a next state, never a fault and
never a refusal. -/
def Obligations.NoStepStopsTheMachine : Prop :=
  ∀ s : State, s.Inv → ∃ t, step s = .next t
end

