-- ==== Sys2Proof/Laws/State.lean ====
section
/-! SUPPORT. The laws of the state's updates: one lemma for each field an update leaves or sets, and one lemma for each
shared operation that says everything it does. -/

namespace Sys2Proof.Machine

/-! ### Ending a command (R112) -/

theorem State.complete_eq (s : State) (c : Byte) :
    s.complete c = { s with status := { s.status with busy := false, done := true, errCode := c } } := rfl

@[simp] theorem State.complete_busy (s : State) (c : Byte) : (s.complete c).status.busy = false := rfl
@[simp] theorem State.complete_done (s : State) (c : Byte) : (s.complete c).status.done = true := rfl
@[simp] theorem State.complete_errCode (s : State) (c : Byte) : (s.complete c).status.errCode = c := rfl
@[simp] theorem State.complete_overrun (s : State) (c : Byte) : (s.complete c).status.overrun = s.status.overrun := rfl
@[simp] theorem State.complete_treeValid (s : State) (c : Byte) :
    (s.complete c).status.treeValid = s.status.treeValid := rfl
@[simp] theorem State.complete_trieValid (s : State) (c : Byte) :
    (s.complete c).status.trieValid = s.status.trieValid := rfl
@[simp] theorem State.complete_degenerate (s : State) (c : Byte) :
    (s.complete c).status.degenerate = s.status.degenerate := rfl
@[simp] theorem State.complete_irqEn (s : State) (c : Byte) : (s.complete c).irqEn = s.irqEn := rfl
@[simp] theorem State.complete_lastCmd (s : State) (c : Byte) : (s.complete c).lastCmd = s.lastCmd := rfl
@[simp] theorem State.complete_textLen (s : State) (c : Byte) : (s.complete c).textLen = s.textLen := rfl
@[simp] theorem State.complete_bitsLen (s : State) (c : Byte) : (s.complete c).bitsLen = s.bitsLen := rfl
@[simp] theorem State.complete_root (s : State) (c : Byte) : (s.complete c).root = s.root := rfl
@[simp] theorem State.complete_nodeCount (s : State) (c : Byte) : (s.complete c).nodeCount = s.nodeCount := rfl
@[simp] theorem State.complete_leafCount (s : State) (c : Byte) : (s.complete c).leafCount = s.leafCount := rfl
@[simp] theorem State.complete_minLen (s : State) (c : Byte) : (s.complete c).minLen = s.minLen := rfl
@[simp] theorem State.complete_maxLen (s : State) (c : Byte) : (s.complete c).maxLen = s.maxLen := rfl
@[simp] theorem State.complete_dropCount (s : State) (c : Byte) : (s.complete c).dropCount = s.dropCount := rfl
@[simp] theorem State.complete_text (s : State) (c : Byte) : (s.complete c).text = s.text := rfl
@[simp] theorem State.complete_bits (s : State) (c : Byte) : (s.complete c).bits = s.bits := rfl
@[simp] theorem State.complete_freq (s : State) (c : Byte) : (s.complete c).freq = s.freq := rfl
@[simp] theorem State.complete_nodes (s : State) (c : Byte) : (s.complete c).nodes = s.nodes := rfl
@[simp] theorem State.complete_ct (s : State) (c : Byte) : (s.complete c).ct = s.ct := rfl
@[simp] theorem State.complete_trie (s : State) (c : Byte) : (s.complete c).trie = s.trie := rfl
@[simp] theorem State.complete_params (s : State) (c : Byte) : (s.complete c).params = s.params := rfl
@[simp] theorem State.complete_master (s : State) (c : Byte) : (s.complete c).master = s.master := rfl
@[simp] theorem State.complete_hasReset (s : State) (c : Byte) : (s.complete c).hasReset = s.hasReset := rfl
@[simp] theorem State.complete_latency (s : State) (c : Byte) : (s.complete c).latency = s.latency := rfl
@[simp] theorem State.complete_fill (s : State) (c : Byte) : (s.complete c).fill = s.fill := rfl
@[simp] theorem State.complete_draws (s : State) (c : Byte) : (s.complete c).draws = s.draws := rfl

/-- Only the last of two results stays. -/
@[simp] theorem State.complete_complete (s : State) (c d : Byte) : (s.complete c).complete d = s.complete d := rfl

theorem State.finish_eq (s : State) : s.finish = s.complete 0#8 := rfl

theorem State.raise_eq (s : State) (e : Err) : s.raise e = s.complete e.code := rfl

theorem Err.code_ne_zero (e : Err) : e.code ≠ 0#8 := by cases e <;> decide

theorem Err.code_le (e : Err) : e.code.toNat ≤ 10 := by cases e <;> decide

/-! ### Issue, reset and the host's bookkeeping -/

@[simp] theorem State.issue_lastCmd (s : State) (w : Word) : (s.issue w).lastCmd = w := rfl
@[simp] theorem State.issue_busy (s : State) (w : Word) : (s.issue w).status.busy = true := rfl
@[simp] theorem State.issue_done (s : State) (w : Word) : (s.issue w).status.done = false := rfl
@[simp] theorem State.issue_errCode (s : State) (w : Word) : (s.issue w).status.errCode = 0#8 := rfl

@[simp] theorem State.afterRst_params (s : State) : s.afterRst.params = s.params := rfl
@[simp] theorem State.afterRst_hasReset (s : State) : s.afterRst.hasReset = true := rfl
@[simp] theorem State.afterRst_master (s : State) : s.afterRst.master = s.master := rfl
@[simp] theorem State.afterRst_busy (s : State) : s.afterRst.status.busy = false := rfl

@[simp] theorem State.goOn_status (s : State) (r : List HostOp) : (s.goOn r).status = s.status := rfl
@[simp] theorem State.goOn_script (s : State) (r : List HostOp) : (s.goOn r).master.script = r := rfl
@[simp] theorem State.reply_status (s : State) (r : Reply) : (s.reply r).status = s.status := rfl
@[simp] theorem State.reply_script (s : State) (r : Reply) : (s.reply r).master.script = s.master.script := rfl
@[simp] theorem State.noteExpect_status (s : State) (b : Bool) : (s.noteExpect b).status = s.status := rfl
@[simp] theorem State.noteExpect_script (s : State) (b : Bool) :
    (s.noteExpect b).master.script = s.master.script := rfl

theorem Master.lastOk_cons (m : Master) (d : Word) (older : List Reply) (h : m.replies = .read .okay d :: older) :
    m.lastOk = (d.extractLsb' 8 8 == 0#8) := by
  simp [Master.lastOk, Master.lastRead, h]

theorem Master.lastWords_cons (m : Master) (d : Word) (older : List Reply) (h : m.replies = .read .okay d :: older) :
    m.lastWords = (d.toNat + 3) / 4 := by
  simp [Master.lastWords, Master.lastRead, h]

/-- Waiting for `irq` changes nothing but where the host stands in its script (R202). -/
theorem State.perform_waitIrq (s : State) (rest : List HostOp) :
    s.perform .waitIrq rest = if s.irq then s.goOn rest else s := rfl

/-- Everything an operation without an access can do, but a reset: it changes only the host's script, and adds nothing to
it but reads (R202, R204, R205). -/
theorem State.perform_of_no_access (s : State) {op : HostOp} (rest : List HostOp) (ha : op.accesses = false)
    (hr : op ≠ .reset) : ∃ script, s.perform op rest = s.goOn script ∧
      ∀ o ∈ script, o ∈ s.master.script ∨ o ∈ rest ∨ ∃ off, o = .read 4 off := by
  cases op with
  | reset => exact absurd rfl hr
  | waitIrq =>
    rw [State.perform_waitIrq]
    split
    · exact ⟨rest, rfl, fun o ho => .inr (.inl ho)⟩
    · exact ⟨s.master.script, rfl, fun o ho => .inl ho⟩
  | ifOk n =>
    refine ⟨_, rfl, fun o ho => .inr (.inl ?_)⟩
    split at ho
    · exact ho
    · exact List.mem_of_mem_drop ho
  | readWindow base =>
    refine ⟨_, rfl, fun o ho => ?_⟩
    rcases List.mem_append.1 ho with ho | ho
    · obtain ⟨k, -, rfl⟩ := List.mem_map.1 ho
      exact .inr (.inr ⟨_, rfl⟩)
    · exact .inr (.inl ho)
  | _ => simp [HostOp.accesses] at ha

/-! ### Stages (R112) -/

/-- Everything a chain of stages can answer, one stage at a time. -/
theorem runStages_cons (stage : State → StageResult) (rest : List (State → StageResult)) (s : State) :
    runStages (stage :: rest) s =
      match stage s with
      | .done s' => runStages rest s'
      | .raised e => .next (s.complete e.code)
      | .stuck f => .fault f := rfl

@[simp] theorem runStages_nil (s : State) : runStages [] s = .next (s.complete 0#8) := rfl

/-- A command of one stage ends in one of two next states or in a fault. -/
theorem runStages_one_next {stage : State → StageResult} {s t : State} (h : runStages [stage] s = .next t) :
    (∃ s', stage s = .done s' ∧ t = s'.complete 0#8) ∨ ∃ e, stage s = .raised e ∧ t = s.complete e.code := by
  rw [runStages_cons] at h
  split at h
  · rename_i s' hs
    exact .inl ⟨s', hs, by simpa using h.symm⟩
  · rename_i e hs
    exact .inr ⟨e, hs, by simpa using h.symm⟩
  · cases h

/-- A command that answers a next state has ended with some result code. -/
theorem runStages_next {stages : List (State → StageResult)} {s t : State} (h : runStages stages s = .next t) :
    ∃ (s' : State) (c : Byte), t = s'.complete c := by
  induction stages generalizing s with
  | nil => exact ⟨s, 0#8, by simpa using h.symm⟩
  | cons stage rest ih =>
    rw [runStages_cons] at h
    split at h
    · exact ih h
    · exact ⟨s, _, by simpa using h.symm⟩
    · cases h

theorem exec_next {i : Instr} {s t : State} (h : exec i s = .next t) : ∃ (s' : State) (c : Byte), t = s'.complete c := by
  cases i <;> exact runStages_next h

/-! ### Everything a step can do -/

theorem State.completionDue_iff (s : State) :
    s.completionDue = true ↔
      s.hasReset = true ∧ s.status.busy = true ∧ (s.master.script = [] ∨ s.latency = 0) := by
  simp [State.completionDue, and_assoc]

/-- Everything a step before the first reset can do (R221). -/
theorem State.powerOnTurn_cases (s : State) :
    (s.master.script = [] ∧ s.powerOnTurn = .next s) ∨
    (∃ op rest, s.master.script = op :: rest ∧ op.accesses = false ∧ s.powerOnTurn = .next (s.perform op rest)) ∨
    (∃ op rest, s.master.script = op :: rest ∧ op.accesses = true ∧ s.powerOnTurn = .fault .accessBeforeReset) := by
  unfold State.powerOnTurn
  cases s.master.script with
  | nil => exact .inl ⟨rfl, rfl⟩
  | cons op rest =>
    cases ha : op.accesses
    · exact .inr (.inl ⟨op, rest, rfl, ha, by simp [ha]⟩)
    · exact .inr (.inr ⟨op, rest, rfl, ha, by simp [ha]⟩)

/-- A step that answers a next state has completed a command, completed an illegal word, left the block as it is, or done
the host's next operation (R111, R113, R76), which before the first reset makes no access (R221). -/
theorem step_cases {s t : State} (h : step s = .next t) :
    (s.completionDue = true ∧ ∃ i, decodeWord s.lastCmd = .ok i ∧ exec i s = .next t) ∨
    (s.completionDue = true ∧ (∃ e, decodeWord s.lastCmd = .error e) ∧ t = s.complete 10#8) ∨
    ((s.status.busy = false ∨ s.hasReset = false) ∧ s.master.script = [] ∧ t = s) ∨
    (s.completionDue = false ∧ ∃ op rest latency, s.master.script = op :: rest ∧
      (s.hasReset = false → op.accesses = false) ∧ (s.status.busy = false → latency = s.latency) ∧
      t = State.perform { s with latency := latency } op rest) := by
  unfold step at h
  split at h
  · rename_i hd
    unfold completeStep at h
    split at h
    · exact .inl ⟨hd, _, ‹_›, h⟩
    · exact .inr (.inl ⟨hd, ⟨_, ‹_›⟩, by simpa [execIllegal, State.raise, Err.code] using h.symm⟩)
  · rename_i hd
    have hd : s.completionDue = false := by simpa using hd
    rcases Bool.eq_false_or_eq_true s.hasReset with hr | hr
    rotate_left
    · simp only [hr, Bool.not_false, if_true] at h
      rcases s.powerOnTurn_cases with ⟨hs, hp⟩ | ⟨op, rest, hs, ha, hp⟩ | ⟨op, rest, -, -, hp⟩ <;> rw [hp] at h
      · exact .inr (.inr (.inl ⟨.inr hr, hs, by simpa using h.symm⟩))
      · exact .inr (.inr (.inr ⟨hd, op, rest, s.latency, hs, fun _ => ha, fun _ => rfl, by simpa using h.symm⟩))
      · cases h
    · simp only [hr, Bool.not_true, Bool.false_eq_true, if_false] at h
      split at h
      · rename_i hb
        cases hs : s.master.script with
        | nil => simp [State.completionDue, hb, hs, hr] at hd
        | cons op rest =>
          refine .inr (.inr (.inr ⟨hd, op, rest, s.latency - 1, rfl, by simp [hr], by simp [hb], ?_⟩))
          simpa [State.countTurn, State.hostTurn, hs] using h.symm
      · rename_i hb
        have hb : s.status.busy = false := by simpa using hb
        cases hs : s.master.script with
        | nil => exact .inr (.inr (.inl ⟨.inl hb, rfl, by simpa [State.hostTurn, hs] using h.symm⟩))
        | cons op rest =>
          refine .inr (.inr (.inr ⟨hd, op, rest, s.latency, rfl, by simp [hr], fun _ => rfl, ?_⟩))
          simpa [State.hostTurn, hs] using h.symm

/-! ### Inversion of each stage: everything it can do -/

theorem countFreqStage_cases (s : State) :
    (s.params.textCap < s.textLen.toNat ∧ countFreqStage s = .raised .length) ∨
    (s.textLen.toNat ≤ s.params.textCap ∧ countFreqStage s = .done { s with
      freq := Table.tabulate (countOf s.textInput)
      leafCount := BitVec.ofNat 9 (leafTotal (Table.tabulate (countOf s.textInput))) }) := by
  unfold countFreqStage
  split
  · exact .inl ⟨‹_›, rfl⟩
  · exact .inr ⟨by omega, rfl⟩

theorem buildTreeStage_cases (s : State) :
    (leafTotal s.freq = 0 ∧ buildTreeStage s = .raised .emptyText) ∨
    (leafTotal s.freq ≠ 0 ∧ buildTreeStage s = .done { s with
      nodes := Sparse.overwrite s.nodes (huffmanForest s.freq).nodes
      root := BitVec.ofNat 9 (huffmanForest s.freq).rootNode
      nodeCount := BitVec.ofNat 10 (huffmanForest s.freq).nodes.length
      status := { s.status with treeValid := true, degenerate := decide (leafTotal s.freq = 1) } }) := by
  unfold buildTreeStage
  split
  · exact .inl ⟨‹_›, rfl⟩
  · exact .inr ⟨‹_›, rfl⟩

theorem genCodesStage_cases (s : State) :
    (s.status.treeValid = false ∧ genCodesStage s = .raised .noTree) ∨
    (s.status.treeValid = true ∧ ∃ f, s.treeCodes = .error f ∧ genCodesStage s = .stuck f) ∨
    (s.status.treeValid = true ∧ ∃ leaves, s.treeCodes = .ok leaves ∧ genCodesStage s = .done { s with
      ct := codeTable leaves
      minLen := BitVec.ofNat 8 (minDecodable (codeTable leaves))
      maxLen := BitVec.ofNat 8 (maxDecodable (codeTable leaves))
      status := { s.status with trieValid := false } }) := by
  unfold genCodesStage
  split
  · exact .inl ⟨by simpa using ‹(!s.status.treeValid) = true›, rfl⟩
  · have ht : s.status.treeValid = true := by simpa using ‹¬(!s.status.treeValid) = true›
    split
    · rename_i f hf
      exact .inr (.inl ⟨ht, f, hf, rfl⟩)
    · rename_i leaves hl
      exact .inr (.inr ⟨ht, leaves, hl, rfl⟩)

theorem serializeStage_cases (s : State) :
    (s.params.textCap < s.textLen.toNat ∧ serializeStage s = .raised .length) ∨
    (s.textLen.toNat ≤ s.params.textCap ∧ (∃ b ∈ s.textInput, (s.ct.entry b).valid = false) ∧
      serializeStage s = .raised .symbolAbsent) ∨
    (s.textLen.toNat ≤ s.params.textCap ∧ (∀ b ∈ s.textInput, (s.ct.entry b).valid = true) ∧
      s.params.bitsCap < totalLen s.ct s.textInput ∧ serializeStage s = .raised .bitsOverflow) ∨
    (s.textLen.toNat ≤ s.params.textCap ∧ (∀ b ∈ s.textInput, (s.ct.entry b).valid = true) ∧
      totalLen s.ct s.textInput ≤ s.params.bitsCap ∧ serializeStage s = .done { s with
        bits := Sparse.overwrite s.bits ((bitString s.ct s.textInput).map byteOfBit)
        bitsLen := BitVec.ofNat 32 (totalLen s.ct s.textInput) }) := by
  unfold serializeStage
  split
  · exact .inl ⟨‹_›, rfl⟩
  · rename_i h1
    split
    · rename_i h2
      refine .inr (.inl ⟨by omega, ?_, rfl⟩)
      simpa using h2
    · rename_i h2
      have h2' : ∀ b ∈ s.textInput, (s.ct.entry b).valid = true := by simpa using h2
      split
      · exact .inr (.inr (.inl ⟨by omega, h2', ‹_›, rfl⟩))
      · exact .inr (.inr (.inr ⟨by omega, h2', by omega, rfl⟩))

theorem encodeChecks_cases (s : State) :
    (s.params.textCap < s.textLen.toNat ∧ encodeChecks s = .raised .length) ∨
    (s.textLen.toNat ≤ s.params.textCap ∧ s.textLen = 0#32 ∧ encodeChecks s = .raised .emptyText) ∨
    (s.textLen.toNat ≤ s.params.textCap ∧ s.textLen ≠ 0#32 ∧ encodeChecks s = .done s) := by
  unfold encodeChecks
  split
  · exact .inl ⟨‹_›, rfl⟩
  · split
    · exact .inr (.inl ⟨by omega, ‹_›, rfl⟩)
    · exact .inr (.inr ⟨by omega, ‹_›, rfl⟩)

theorem buildDecodeTreeStage_cases (s : State) :
    ((prefixClash (decodableSet s.ct) = true ∨ s.params.trieCap < trieNodes (decodableSet s.ct)) ∧
      buildDecodeTreeStage s = .raised .tableInvalid) ∨
    (prefixClash (decodableSet s.ct) = false ∧ trieNodes (decodableSet s.ct) ≤ s.params.trieCap ∧
      buildDecodeTreeStage s = .done { s with
        trie := decodableSet s.ct
        minLen := BitVec.ofNat 8 (minDecodable s.ct)
        maxLen := BitVec.ofNat 8 (maxDecodable s.ct)
        status := { s.status with trieValid := true } }) := by
  unfold buildDecodeTreeStage
  simp only
  split
  · exact .inl ⟨.inl ‹_›, rfl⟩
  · split
    · exact .inl ⟨.inr ‹_›, rfl⟩
    · exact .inr ⟨by simpa using ‹¬ prefixClash (decodableSet s.ct) = true›, by omega, rfl⟩

theorem deserializeStage_cases (s : State) :
    (s.status.trieValid = false ∧ deserializeStage s = .raised .noTrie) ∨
    (s.status.trieValid = true ∧ s.params.bitsCap < s.bitsLen.toNat ∧ deserializeStage s = .raised .length) ∨
    (s.status.trieValid = true ∧ s.bitsLen.toNat ≤ s.params.bitsCap ∧ s.trie = [] ∧ s.bitsLen = 0#32 ∧
      deserializeStage s = .done { s with textLen := 0#32, dropCount := 0#32 }) ∨
    (s.status.trieValid = true ∧ s.bitsLen.toNat ≤ s.params.bitsCap ∧ s.trie = [] ∧ s.bitsLen ≠ 0#32 ∧
      deserializeStage s = .raised .noCodes) ∨
    (s.status.trieValid = true ∧ s.bitsLen.toNat ≤ s.params.bitsCap ∧ s.trie ≠ [] ∧
      s.params.textCap < (scanBits s.trie s.charInput).out.length ∧ deserializeStage s = .raised .textOverflow) ∨
    (s.status.trieValid = true ∧ s.bitsLen.toNat ≤ s.params.bitsCap ∧ s.trie ≠ [] ∧
      (scanBits s.trie s.charInput).out.length ≤ s.params.textCap ∧ deserializeStage s = .done { s with
        text := Sparse.overwrite s.text (scanBits s.trie s.charInput).out
        textLen := BitVec.ofNat 32 (scanBits s.trie s.charInput).out.length
        dropCount := s.bitsLen - BitVec.ofNat 32 (scanBits s.trie s.charInput).last }) := by
  unfold deserializeStage
  split
  · exact .inl ⟨by simpa using ‹(!s.status.trieValid) = true›, rfl⟩
  · have hv : s.status.trieValid = true := by simpa using ‹¬(!s.status.trieValid) = true›
    refine .inr ?_
    split
    · exact .inl ⟨hv, ‹_›, rfl⟩
    · refine .inr ?_
      split
      · have he : s.trie = [] := by simpa using ‹s.trie.isEmpty = true›
        split
        · exact .inl ⟨hv, by omega, he, ‹_›, rfl⟩
        · exact .inr (.inl ⟨hv, by omega, he, ‹_›, rfl⟩)
      · have he : s.trie ≠ [] := by simpa using ‹¬ s.trie.isEmpty = true›
        simp only
        split
        · exact .inr (.inr (.inl ⟨hv, by omega, he, ‹_›, rfl⟩))
        · exact .inr (.inr (.inr ⟨hv, by omega, he, by omega, rfl⟩))

end Sys2Proof.Machine
end

