-- ==== Sys2Proof/Laws/Storage.lean ====
section
/-! SUPPORT. The laws of storage: a read after a write, that every operation keeps the canonical form, that equal memories
are equal data, and what a table holds. -/

namespace Sys2Proof.Machine

/-! ### Sparse storage: reads -/

variable {α : Type}

@[simp] theorem Sparse.get?_nil (k : Nat) : Sparse.get? ([] : Sparse α) k = none := rfl

theorem Sparse.get?_cons (k k' : Nat) (v : α) (m : Sparse α) :
    Sparse.get? ((k, v) :: m) k' = if k = k' then some v else Sparse.get? m k' := rfl

theorem Sparse.get?_set (m : Sparse α) (k j : Nat) (v : α) :
    Sparse.get? (Sparse.set m k v) j = if k = j then some v else Sparse.get? m j := by
  induction m with
  | nil => simp [Sparse.set, Sparse.get?_cons]
  | cons e m ih =>
    obtain ⟨k', v'⟩ := e
    simp only [Sparse.set]
    split
    · simp [Sparse.get?_cons]
    · split
      · rename_i _ h
        subst h
        simp only [Sparse.get?_cons]
        split <;> rfl
      · simp only [Sparse.get?_cons, ih]
        split
        · rename_i h1 h2 h3
          rw [if_neg (by omega)]
        · rfl

@[simp] theorem Sparse.get?_set_self (m : Sparse α) (k : Nat) (v : α) :
    Sparse.get? (Sparse.set m k v) k = some v := by simp [Sparse.get?_set]

theorem Sparse.get?_set_ne (m : Sparse α) {k j : Nat} (v : α) (h : k ≠ j) :
    Sparse.get? (Sparse.set m k v) j = Sparse.get? m j := by simp [Sparse.get?_set, h]

theorem Sparse.set_set (m : Sparse α) (k : Nat) (v : α) :
    Sparse.set (Sparse.set m k v) k v = Sparse.set m k v := by
  induction m with
  | nil => simp [Sparse.set]
  | cons e m ih =>
    obtain ⟨k', v'⟩ := e
    by_cases h1 : k < k'
    · simp [Sparse.set, h1]
    · by_cases h2 : k = k'
      · simp [Sparse.set, h2]
      · simp [Sparse.set, h1, h2, ih]

theorem Sparse.get?_append (m n : Sparse α) (j : Nat) :
    Sparse.get? (m ++ n) j = (Sparse.get? m j).or (Sparse.get? n j) := by
  induction m with
  | nil => simp
  | cons e m ih =>
    obtain ⟨k, v⟩ := e
    simp only [List.cons_append, Sparse.get?_cons, ih]
    split <;> simp

theorem Sparse.get?_listFrom (vs : List α) (k j : Nat) :
    Sparse.get? (Sparse.listFrom k vs) j = if k ≤ j then vs[j - k]? else none := by
  induction vs generalizing k with
  | nil => simp [Sparse.listFrom]
  | cons v vs ih =>
    simp only [Sparse.listFrom, Sparse.get?_cons, ih]
    by_cases h : k = j
    · simp [h]
    · by_cases h2 : k ≤ j
      · have h3 : j - k = (j - (k + 1)) + 1 := by omega
        simp [h, h2, show k + 1 ≤ j by omega, h3]
      · simp [h, h2, show ¬ k + 1 ≤ j by omega]

theorem Sparse.get?_filter_le (m : Sparse α) (n j : Nat) :
    Sparse.get? (m.filter (fun e => decide (n ≤ e.1))) j = if n ≤ j then Sparse.get? m j else none := by
  induction m with
  | nil => simp
  | cons e m ih =>
    obtain ⟨k, v⟩ := e
    by_cases h : n ≤ k
    · simp only [List.filter_cons, h, decide_true, if_true, Sparse.get?_cons, ih]
      split
      · rename_i h2; simp [← h2, h]
      · rfl
    · simp only [List.filter_cons, h, decide_false, Bool.false_eq_true, if_false, Sparse.get?_cons, ih]
      split
      · rw [if_neg (by omega)]
      · rfl

/-- What storage holds after its first indices were overwritten. -/
theorem Sparse.get?_overwrite (m : Sparse α) (vs : List α) (j : Nat) :
    Sparse.get? (Sparse.overwrite m vs) j = (vs[j]?).or (Sparse.get? m j) := by
  rw [Sparse.overwrite, Sparse.get?_append, Sparse.get?_listFrom, Sparse.get?_filter_le]
  by_cases h : vs.length ≤ j
  · simp [h]
  · have h2 : j < vs.length := by omega
    simp [h2]

/-! ### Sparse storage: the canonical form -/

theorem Sparse.wf_iff (bound : Nat) (m : Sparse α) :
    Sparse.wf bound m = true ↔ m.Pairwise (fun a b => a.1 < b.1) ∧ ∀ e ∈ m, e.1 < bound := by
  simp [Sparse.wf]

@[simp] theorem Sparse.wf_nil (bound : Nat) : Sparse.wf bound ([] : Sparse α) = true := by simp [Sparse.wf]

theorem Sparse.mem_set {m : Sparse α} {k : Nat} {v : α} {e : Nat × α} (h : e ∈ Sparse.set m k v) :
    e = (k, v) ∨ e ∈ m := by
  induction m with
  | nil => simpa [Sparse.set] using h
  | cons x m ih =>
    obtain ⟨k', v'⟩ := x
    simp only [Sparse.set] at h
    split at h
    · simpa using h
    · split at h
      · rcases List.mem_cons.1 h with h | h
        · exact .inl h
        · exact .inr (List.mem_cons_of_mem _ h)
      · rcases List.mem_cons.1 h with h | h
        · exact .inr (h ▸ List.mem_cons_self)
        · exact (ih h).imp_right (List.mem_cons_of_mem _)

/-- A write below the bound keeps the canonical form. -/
theorem Sparse.wf_set {bound : Nat} {m : Sparse α} {k : Nat} (v : α) (h : Sparse.wf bound m = true)
    (hk : k < bound) : Sparse.wf bound (Sparse.set m k v) = true := by
  rw [Sparse.wf_iff] at h ⊢
  refine ⟨?_, fun e he => ?_⟩
  · obtain ⟨hp, -⟩ := h
    induction m with
    | nil => simp [Sparse.set]
    | cons x m ih =>
      obtain ⟨k', v'⟩ := x
      obtain ⟨hx, hm⟩ := List.pairwise_cons.1 hp
      simp only [Sparse.set]
      split
      · rename_i hlt
        refine List.pairwise_cons.2 ⟨fun e he => ?_, hp⟩
        rcases List.mem_cons.1 he with rfl | he
        · exact hlt
        · exact Nat.lt_trans hlt (hx e he)
      · split
        · rename_i heq
          exact List.pairwise_cons.2 ⟨fun e he => by simpa [heq] using hx e he, hm⟩
        · rename_i h1 h2
          refine List.pairwise_cons.2 ⟨fun e he => ?_, ih hm⟩
          rcases Sparse.mem_set he with rfl | he
          · show k' < k
            omega
          · exact hx e he
  · rcases Sparse.mem_set he with rfl | he
    · exact hk
    · exact h.2 e he

theorem Sparse.mem_listFrom {vs : List α} {k : Nat} {e : Nat × α} (h : e ∈ Sparse.listFrom k vs) :
    k ≤ e.1 ∧ e.1 < k + vs.length := by
  induction vs generalizing k with
  | nil => simp [Sparse.listFrom] at h
  | cons v vs ih =>
    rcases List.mem_cons.1 h with rfl | h
    · simp
    · have := ih h
      simp only [List.length_cons]
      omega

theorem Sparse.pairwise_listFrom (vs : List α) (k : Nat) :
    (Sparse.listFrom k vs).Pairwise (fun a b => a.1 < b.1) := by
  induction vs generalizing k with
  | nil => simp [Sparse.listFrom]
  | cons v vs ih =>
    exact List.pairwise_cons.2 ⟨fun e he => by have := (Sparse.mem_listFrom he).1; simp; omega, ih (k + 1)⟩

/-- Overwriting the first indices, all of them below the bound, keeps the canonical form. -/
theorem Sparse.wf_overwrite {bound : Nat} {m : Sparse α} {vs : List α} (h : Sparse.wf bound m = true)
    (hv : vs.length ≤ bound) : Sparse.wf bound (Sparse.overwrite m vs) = true := by
  rw [Sparse.wf_iff] at h ⊢
  refine ⟨List.pairwise_append.2 ⟨Sparse.pairwise_listFrom vs 0, h.1.sublist List.filter_sublist, ?_⟩, fun e he => ?_⟩
  · intro a ha b hb
    have h1 := (Sparse.mem_listFrom ha).2
    have h2 := of_decide_eq_true (List.mem_filter.1 hb).2
    omega
  · rcases List.mem_append.1 he with he | he
    · have := (Sparse.mem_listFrom he).2
      omega
    · exact h.2 e (List.mem_filter.1 he).1

theorem Sparse.get?_eq_none_of_lt {m : Sparse α} {k : Nat} (h : ∀ e ∈ m, k < e.1) : Sparse.get? m k = none := by
  induction m with
  | nil => rfl
  | cons e m ih =>
    obtain ⟨k', v⟩ := e
    have h1 : k < k' := h (k', v) List.mem_cons_self
    rw [Sparse.get?_cons, if_neg (by omega)]
    exact ih fun e he => h e (List.mem_cons_of_mem _ he)

/-- Equal memories are equal data: two canonical memories that hold the same at every index are the same list. -/
theorem Sparse.wf_ext {bound : Nat} {m n : Sparse α} (hm : Sparse.wf bound m = true) (hn : Sparse.wf bound n = true)
    (h : ∀ k, Sparse.get? m k = Sparse.get? n k) : m = n := by
  rw [Sparse.wf_iff] at hm hn
  replace hm := hm.1
  replace hn := hn.1
  induction m generalizing n with
  | nil =>
    cases n with
    | nil => rfl
    | cons e n =>
      have := h e.1
      simp [Sparse.get?] at this
  | cons e m ih =>
    obtain ⟨k, v⟩ := e
    cases n with
    | nil =>
      have := h k
      simp [Sparse.get?] at this
    | cons e' n =>
      obtain ⟨k', v'⟩ := e'
      obtain ⟨hk, hm'⟩ := List.pairwise_cons.1 hm
      obtain ⟨hk', hn'⟩ := List.pairwise_cons.1 hn
      have hkk : k = k' := by
        rcases Nat.lt_trichotomy k k' with hlt | heq | hgt
        · have h1 := h k
          rw [Sparse.get?_cons, if_pos rfl, Sparse.get?_eq_none_of_lt] at h1
          · simp at h1
          · intro e he
            rcases List.mem_cons.1 he with rfl | he
            · exact hlt
            · exact Nat.lt_trans hlt (hk' e he)
        · exact heq
        · have h1 := h k'
          rw [Sparse.get?_cons (k := k'), if_pos rfl, Sparse.get?_eq_none_of_lt] at h1
          · simp at h1
          · intro e he
            rcases List.mem_cons.1 he with rfl | he
            · exact hgt
            · exact Nat.lt_trans hgt (hk e he)
      subst hkk
      have hv : v = v' := by simpa [Sparse.get?_cons] using h k
      subst hv
      congr 1
      refine ih (fun j => ?_) hm' hn'
      by_cases hj : k = j
      · subst hj
        rw [Sparse.get?_eq_none_of_lt hk, Sparse.get?_eq_none_of_lt hk']
      · simpa [Sparse.get?_cons, hj] using h j

/-! ### Tables -/

theorem symbols_getElem (i : Nat) (h : i < symbols.length) : symbols[i] = BitVec.ofNat 8 i := by
  simp [symbols]

theorem mem_symbols (c : Byte) : c ∈ symbols :=
  List.mem_map.2 ⟨c.toNat, List.mem_range.2 c.isLt, by simp⟩

theorem symbols_nodup : symbols.Nodup := by
  refine (List.nodup_map_iff_inj_on List.nodup_range).2 fun i hi j hj h => ?_
  have := congrArg BitVec.toNat h
  simp only [BitVec.toNat_ofNat, List.mem_range] at this hi hj
  omega

@[simp] theorem Table.entry_tabulate (f : Byte → α) (c : Byte) : (Table.tabulate f).entry c = f c := by
  have h : c.toNat < 256 := c.isLt
  simp [Table.tabulate, Table.entry, symbols]

@[simp] theorem Table.entry_replicate (v : α) (c : Byte) : Table.entry (Vector.replicate 256 v) c = v := by
  simp [Table.entry]

theorem Table.entry_put (t : Table α) (c d : Byte) (v : α) :
    (t.put c v).entry d = if c = d then v else t.entry d := by
  simp only [Table.put, Table.entry, Vector.getElem_set]
  by_cases h : c = d
  · simp [h]
  · rw [if_neg h, if_neg fun h' => h (BitVec.eq_of_toNat_eq h')]

@[simp] theorem Table.entry_put_self (t : Table α) (c : Byte) (v : α) : (t.put c v).entry c = v := by
  simp [Table.entry_put]

theorem Table.ext {t u : Table α} (h : ∀ c, t.entry c = u.entry c) : t = u := by
  apply Vector.ext
  intro i hi
  simpa [Table.entry, Nat.mod_eq_of_lt hi] using h (BitVec.ofNat 8 i)

theorem Table.pairs_eq (t : Table α) : t.pairs = symbols.map (fun c => (c, t.entry c)) := by
  apply List.ext_getElem
  · simp [Table.pairs, symbols_length]
  · intro i h1 h2
    have hi : i < 256 := by simpa [symbols_length] using h2
    simp [Table.pairs, symbols_getElem, Table.entry, Nat.mod_eq_of_lt hi]

/-! ### Bytes and nodes of the state -/

theorem State.textByte_set (s : State) (k j : Nat) (b : Byte) :
    State.textByte { s with text := Sparse.set s.text k b } j = if k = j then b else s.textByte j := by
  simp only [State.textByte, Sparse.get?_set]
  split <;> rfl

theorem State.bitsByte_set (s : State) (k j : Nat) (b : Byte) :
    State.bitsByte { s with bits := Sparse.set s.bits k b } j = if k = j then b else s.bitsByte j := by
  simp only [State.bitsByte, Sparse.get?_set]
  split <;> rfl

theorem State.textByte_overwrite (s : State) (vs : List Byte) (i : Nat) :
    State.textByte { s with text := Sparse.overwrite s.text vs } i = (vs[i]?).getD (s.textByte i) := by
  simp only [State.textByte, Sparse.get?_overwrite]
  cases vs[i]? <;> simp

theorem State.bitsByte_overwrite (s : State) (vs : List Byte) (i : Nat) :
    State.bitsByte { s with bits := Sparse.overwrite s.bits vs } i = (vs[i]?).getD (s.bitsByte i) := by
  simp only [State.bitsByte, Sparse.get?_overwrite]
  cases vs[i]? <;> simp

/-- A node that was written reads as written. -/
theorem State.nodeAt_of_get? {s : State} {i : Nat} {n : Node} (h : Sparse.get? s.nodes i = some n) :
    s.nodeAt i = n := by
  simp [State.nodeAt, h]

theorem State.nodeAt_overwrite (s : State) (vs : List Node) (i : Nat) :
    State.nodeAt { s with nodes := Sparse.overwrite s.nodes vs } i = (vs[i]?).getD (s.nodeAt i) := by
  simp only [State.nodeAt, Sparse.get?_overwrite]
  cases vs[i]? <;> simp

end Sys2Proof.Machine
end

