-- ==== Sys2Proof/Laws/Bus.lean ====
section
/-! SUPPORT. The laws of the host interface: what stands at each offset, what the words of the windows hold, what a store
to a window does to every byte, and that stores keep the canonical form of the memories. -/

namespace Sys2Proof.Machine

/-! ### Offsets -/

theorem accessAccepted_word {off : Offset} (h : off.toNat % 4 = 0) : accessAccepted 4 off = true := by
  simp [accessAccepted, h]

theorem accessAccepted_rejected {size : Nat} {off : Offset} (h : size ≠ 4 ∨ off.toNat % 4 ≠ 0) :
    accessAccepted size off = false := by
  rcases h with h | h <;> simp [accessAccepted, h]

theorem toNat_offset {n : Nat} (h : n < 2 ^ 20) : (BitVec.ofNat 20 n).toNat = n := by
  simp
  omega

/-- R62, FREQ window. -/
theorem regionAt_freq (c : Byte) : regionAt (0x100 + 4 * c.toNat) = .freq c := by
  have := c.isLt
  have hk : (0x100 + 4 * c.toNat - 0x00100) / 4 = c.toNat := by omega
  simp (disch := omega) only [regionAt, if_neg, if_pos, hk, BitVec.ofNat_toNat, BitVec.setWidth_eq]

/-- R62, NODE window, word 0 of a node. -/
theorem regionAt_node_first {i : Nat} (h : i ≤ 510) : regionAt (0x1000 + 8 * i) = .node i false := by
  have hk : (0x1000 + 8 * i - 0x01000) / 8 = i := by omega
  have hw : decide ((0x1000 + 8 * i - 0x01000) % 8 = 4) = false := by rw [decide_eq_false_iff_not]; omega
  simp (disch := omega) only [regionAt, if_neg, if_pos, hk, hw]

/-- R62, NODE window, word 1 of a node. -/
theorem regionAt_node_second {i : Nat} (h : i ≤ 510) : regionAt (0x1000 + 8 * i + 4) = .node i true := by
  have hk : (0x1000 + 8 * i + 4 - 0x01000) / 8 = i := by omega
  have hw : decide ((0x1000 + 8 * i + 4 - 0x01000) % 8 = 4) = true := by rw [decide_eq_true_iff]; omega
  simp (disch := omega) only [regionAt, if_neg, if_pos, hk, hw]

/-- R62, R71, CT window. -/
theorem regionAt_ct (c : Byte) {w : Nat} (h : w < 16) : regionAt (0x2000 + 64 * c.toNat + 4 * w) = .ct c w := by
  have := c.isLt
  have hk : (0x2000 + 64 * c.toNat + 4 * w - 0x02000) / 64 = c.toNat := by omega
  have hw : (0x2000 + 64 * c.toNat + 4 * w - 0x02000) % 64 / 4 = w := by omega
  simp (disch := omega) only [regionAt, if_neg, if_pos, hk, hw, BitVec.ofNat_toNat, BitVec.setWidth_eq]

/-- R62, R69, TEXT window. -/
theorem regionAt_text {k : Nat} (h : k < 0x4000) : regionAt (0x10000 + 4 * k) = .text k := by
  have hk : (0x10000 + 4 * k - 0x10000) / 4 = k := by omega
  simp (disch := omega) only [regionAt, if_neg, if_pos, hk]

/-- R62, R70, BITS window. -/
theorem regionAt_bits {k : Nat} (h : k < 0x20000) : regionAt (0x80000 + 4 * k) = .bits k := by
  have hk : (0x80000 + 4 * k - 0x80000) / 4 = k := by omega
  simp (disch := omega) only [regionAt, if_neg, hk]

/-! ### Everything an access can do -/

/-- A read leaves the block as it is; at most it uses up a draw (R73). -/
theorem State.busRead_state (s : State) (size : Nat) (off : Offset) :
    ∃ d, (s.busRead size off).state = { s with draws := d } := by
  unfold State.busRead
  split
  · simp only
    split <;> exact ⟨_, rfl⟩
  · exact ⟨s.draws, rfl⟩

/-- A write is rejected, dropped, or carried out (R64, R65, R75). -/
theorem State.busWrite_cases (s : State) (size : Nat) (off : Offset) (v : Word) :
    (accessAccepted size off = false ∧ s.busWrite size off v = ⟨.error, s⟩) ∨
    (accessAccepted size off = true ∧ s.status.busy = true ∧ (regionAt off.toNat).droppedWhileBusy = true ∧
      s.busWrite size off v = ⟨.okay, s.dropWrite⟩) ∨
    (accessAccepted size off = true ∧
      (s.status.busy = false ∨ (regionAt off.toNat).droppedWhileBusy = false) ∧
      s.busWrite size off v = ⟨.okay, s.writeRegion (regionAt off.toNat) v⟩) := by
  unfold State.busWrite
  cases ha : accessAccepted size off
  · simp
  · cases hb : s.status.busy <;> cases hd : (regionAt off.toNat).droppedWhileBusy <;> simp [hd]

/-- While a command executes a write moves at most IRQ_EN, DONE and OVERRUN (R75, R77). -/
theorem State.busWrite_state_of_busy (s : State) (h : s.status.busy = true) (size : Nat) (off : Offset) (v : Word) :
    ∃ e d o, (s.busWrite size off v).state = { s with
      irqEn := e, status := { s.status with done := d, overrun := o } } := by
  rcases s.busWrite_cases size off v with ⟨-, hw⟩ | ⟨-, -, -, hw⟩ | ⟨-, hd, hw⟩ <;> rw [hw]
  · exact ⟨s.irqEn, s.status.done, s.status.overrun, rfl⟩
  · exact ⟨s.irqEn, s.status.done, true, rfl⟩
  · have hd : (regionAt off.toNat).droppedWhileBusy = false := by simpa [h] using hd
    generalize regionAt off.toNat = r at hd
    cases r with
    | reg r =>
      cases r with
      | command => simp [Region.droppedWhileBusy] at hd
      | textLen => simp [Region.droppedWhileBusy] at hd
      | bitsLen => simp [Region.droppedWhileBusy] at hd
      | ctrl => exact ⟨v.getLsbD 0, s.status.done, s.status.overrun, rfl⟩
      | status => exact ⟨s.irqEn, _, _, rfl⟩
      | _ => exact ⟨s.irqEn, s.status.done, s.status.overrun, rfl⟩
    | ct c w => simp [Region.droppedWhileBusy] at hd
    | text k => simp [Region.droppedWhileBusy] at hd
    | bits k => simp [Region.droppedWhileBusy] at hd
    | freq c => exact ⟨s.irqEn, s.status.done, s.status.overrun, rfl⟩
    | node i second => exact ⟨s.irqEn, s.status.done, s.status.overrun, rfl⟩
    | reserved => exact ⟨s.irqEn, s.status.done, s.status.overrun, rfl⟩

/-! ### Words of the windows -/

theorem extractLsb'_wordOfBytes (b0 b1 b2 b3 : Byte) :
    (wordOfBytes b0 b1 b2 b3).extractLsb' 0 8 = b0 ∧ (wordOfBytes b0 b1 b2 b3).extractLsb' 8 8 = b1 ∧
    (wordOfBytes b0 b1 b2 b3).extractLsb' 16 8 = b2 ∧ (wordOfBytes b0 b1 b2 b3).extractLsb' 24 8 = b3 := by
  have h0 : ∀ (a : Byte) (k : Nat), 8 ≤ k → a.getLsbD k = false := fun a k h => BitVec.getLsbD_of_ge a k h
  refine ⟨?_, ?_, ?_, ?_⟩ <;> apply BitVec.eq_of_getLsbD_eq <;> intro i hi <;>
    simp only [wordOfBytes, BitVec.getLsbD_extractLsb', BitVec.getLsbD_or, BitVec.getLsbD_shiftLeft,
      BitVec.getLsbD_setWidth]
  · simp [show i < 32 by omega, show i < 8 by omega, show i < 16 by omega, show i < 24 by omega]
  · simp [show i < 8 by omega, show 8 + i < 32 by omega, show 8 + i < 16 by omega, show 8 + i < 24 by omega,
      show i < 32 by omega]
  · simp [show i < 8 by omega, show 16 + i < 32 by omega, show ¬ 16 + i < 16 by omega, show 16 + i < 24 by omega,
      show i < 32 by omega, show 16 + i - 8 = 8 + i by omega, show 8 + i < 32 by omega,
      h0 b0 (16 + i) (by omega)]
  · simp [show i < 8 by omega, show 24 + i < 32 by omega, show i < 32 by omega,
      show 24 + i - 8 = 16 + i by omega, show 24 + i - 16 = 8 + i by omega, show 8 + i < 32 by omega,
      show 16 + i < 32 by omega, h0 b0 (24 + i) (by omega), h0 b1 (16 + i) (by omega)]

/-- Byte j of word k of a window is byte 4k + j, or 0 at and above the capacity (R68 to R70). -/
theorem extractLsb'_windowWord (cap : Nat) (byteAt : Nat → Byte) (k : Nat) {j : Nat} (h : j < 4) :
    (windowWord cap byteAt k).extractLsb' (8 * j) 8 = if 4 * k + j < cap then byteAt (4 * k + j) else 0#8 := by
  have hw := extractLsb'_wordOfBytes
  have hj : j = 0 ∨ j = 1 ∨ j = 2 ∨ j = 3 := by omega
  rcases hj with rfl | rfl | rfl | rfl
  · exact (hw _ _ _ _).1
  · exact (hw _ _ _ _).2.1
  · exact (hw _ _ _ _).2.2.1
  · exact (hw _ _ _ _).2.2.2

/-- R99: word 1 of an internal node as a number. -/
theorem Node.word_internal (l r : BitVec 9) (f : Word) :
    (Node.internal l r f).word true = BitVec.ofNat 32 (0x80000000 + r.toNat * 65536 + l.toNat) := by
  have hr := r.isLt
  have hl := l.isLt
  apply BitVec.eq_of_toNat_eq
  simp only [Node.word, BitVec.toNat_or, BitVec.toNat_shiftLeft, BitVec.toNat_setWidth, BitVec.toNat_ofNat]
  rw [Nat.mod_eq_of_lt (a := r.toNat) (by omega), Nat.mod_eq_of_lt (a := l.toNat) (by omega),
    Nat.mod_eq_of_lt (b := 2 ^ 32) (a := 0x80000000 + r.toNat * 65536 + l.toNat) (by omega),
    Nat.mod_eq_of_lt (a := 0x80000000) (by omega), Nat.shiftLeft_eq, Nat.mod_eq_of_lt (b := 2 ^ 32) (by omega)]
  have h1 := Nat.two_pow_add_eq_or_of_lt (i := 31) (b := r.toNat * 2 ^ 16) (by omega) 1
  have h2 := Nat.two_pow_add_eq_or_of_lt (i := 16) (b := l.toNat) (by omega) (2 ^ 15 + r.toNat)
  have h3 : 2 ^ 16 * (2 ^ 15 + r.toNat) = 2 ^ 31 * 1 + r.toNat * 2 ^ 16 := by ring
  rw [show (0x80000000 : Nat) = 2 ^ 31 * 1 by norm_num, ← h1, ← h3, ← h2]
  ring

/-- A node that was written reads its words (R99). -/
theorem State.nodeWord_of_get? {s : State} {i : Nat} {n : Node} (h : Sparse.get? s.nodes i = some n) (b : Bool) :
    s.nodeWord i b = n.word b := by
  simp [State.nodeWord, h]

/-- A node that was not written reads any value (R99, R226). -/
theorem State.nodeWord_of_none {s : State} {i : Nat} (h : Sparse.get? s.nodes i = none) (b : Bool) :
    s.nodeWord i b = Config.nodeFill s.fill i b := by
  simp [State.nodeWord, h]

/-- Writing nodes from index 0 on leaves the words of the nodes above (R125). -/
theorem State.nodeWord_overwrite_of_le (s : State) {vs : List Node} {i : Nat} (h : vs.length ≤ i) (b : Bool) :
    State.nodeWord { s with nodes := Sparse.overwrite s.nodes vs } i b = s.nodeWord i b := by
  simp [State.nodeWord, Sparse.get?_overwrite, List.getElem?_eq_none h]

/-- R71: the bits of a code after a write of 32 of them. -/
theorem getLsbD_putWord (bits : BitVec 256) (i : Nat) (v : Word) {j : Nat} (hj : j < 256) :
    (putWord bits i v).getLsbD j = if i ≤ j ∧ j < i + 32 then v.getLsbD (j - i) else bits.getLsbD j := by
  have ones : ∀ k, (0xFFFFFFFF#32).getLsbD k = decide (k < 32) := by
    intro k
    by_cases h : k < 32
    · have : ∀ k, k < 32 → (0xFFFFFFFF#32).getLsbD k = true := by decide
      simp [h, this k h]
    · simp [h, BitVec.getLsbD_of_ge _ _ (show 32 ≤ k by omega)]
  unfold putWord
  simp only [BitVec.getLsbD_or, BitVec.getLsbD_and, BitVec.getLsbD_not, BitVec.getLsbD_shiftLeft,
    BitVec.getLsbD_setWidth, hj, decide_true, Bool.true_and, ones]
  by_cases h1 : i ≤ j
  · by_cases h2 : j < i + 32
    · simp [h1, h2, show ¬ j < i by omega, show j - i < 32 by omega, show j - i < 256 by omega]
    · simp [h1, h2, show ¬ j < i by omega, show ¬ j - i < 32 by omega,
        BitVec.getLsbD_of_ge v _ (show 32 ≤ j - i by omega)]
  · simp [h1, show j < i by omega]

/-! ### What the host makes of the words it reads (R203 to R205) -/

/-- The bytes in the words of a window are the bytes of the memory. -/
theorem bytesOfWords_window (cap : Nat) (byteAt : Nat → Byte) {len : Nat} (h : len ≤ cap) :
    bytesOfWords len ((List.range ((len + 3) / 4)).map (windowWord cap byteAt)) = (List.range len).map byteAt := by
  apply List.map_congr_left
  intro i hi
  have hi : i < len := List.mem_range.1 hi
  have hk : ((List.range ((len + 3) / 4)).map (windowWord cap byteAt)).getD (i / 4) 0#32 =
      windowWord cap byteAt (i / 4) := by
    rw [List.getD_eq_getElem?_getD, List.getElem?_map, List.getElem?_range (by omega)]
    rfl
  rw [hk, byteOfWord, extractLsb'_windowWord _ _ _ (Nat.mod_lt _ (by omega)), Nat.div_add_mod, if_pos (by omega)]

/-- R71: a write to one of the words 1 to 8 of an entry. -/
theorem CtEntry.writeWord_succ (e : CtEntry) {n : Nat} (h : n + 1 ≤ 8) (v : Word) :
    e.writeWord (n + 1) v = { e with bits := putWord e.bits (32 * n) v } := by
  simp [CtEntry.writeWord, h]

/-- What word 0 and the first `n` words of code bits put together. -/
theorem CtEntry.foldl_writeWord (e : CtEntry) (n : Nat) (hn : n ≤ 8) :
    let p := (List.range (n + 1)).foldl (fun q w => q.writeWord w (e.word w)) CtEntry.absent
    p.valid = e.valid ∧ p.len = e.len ∧
      ∀ j, j < 256 → p.bits.getLsbD j = if j < 32 * n then e.bits.getLsbD j else false := by
  induction n with
  | zero =>
    refine ⟨by simp [CtEntry.writeWord, CtEntry.word, bitAt], ?_, by simp [CtEntry.writeWord, CtEntry.absent]⟩
    apply BitVec.eq_of_getLsbD_eq
    intro i hi
    simp [CtEntry.writeWord, CtEntry.word, bitAt, show i < 8 from hi, show i < 31 by omega, show i < 32 by omega]
  | succ n ih =>
    obtain ⟨hv, hl, hb⟩ := ih (by omega)
    rw [List.range_succ, List.foldl_append]
    simp only [List.foldl_cons, List.foldl_nil, CtEntry.writeWord_succ _ hn]
    refine ⟨hv, hl, fun j hj => ?_⟩
    rw [getLsbD_putWord _ _ _ hj, hb j hj, CtEntry.word, if_neg (Nat.succ_ne_zero n), if_pos hn, Nat.add_sub_cancel]
    by_cases h1 : 32 * n ≤ j ∧ j < 32 * n + 32
    · rw [if_pos (by omega), if_pos (by omega), BitVec.getLsbD_extractLsb', decide_eq_true (by omega), Bool.true_and]
      congr 1
      omega
    · rw [if_neg (by omega)]
      by_cases h2 : j < 32 * n
      · rw [if_pos h2, if_pos (by omega)]
      · rw [if_neg h2, if_neg (by omega)]

/-- The entry in the nine words of an entry is that entry. -/
theorem CtEntry.ofWords_word (e : CtEntry) : CtEntry.ofWords e.word = e := by
  obtain ⟨hv, hl, hb⟩ := e.foldl_writeWord 8 (by omega)
  have hbits : (CtEntry.ofWords e.word).bits = e.bits := by
    apply BitVec.eq_of_getLsbD_eq
    intro j hj
    exact (hb j hj).trans (if_pos (by omega))
  exact (show ∀ p q : CtEntry, p.valid = q.valid → p.len = q.len → p.bits = q.bits → p = q from
    fun ⟨_, _, _⟩ ⟨_, _, _⟩ h1 h2 h3 => by cases h1; cases h2; cases h3; rfl) _ _ hv hl hbits

/-- An entry depends on its words 0 to 8 only. -/
theorem CtEntry.ofWords_congr {f g : Nat → Word} (h : ∀ w, w < 9 → f w = g w) :
    CtEntry.ofWords f = CtEntry.ofWords g := by
  simp [CtEntry.ofWords, List.range_succ, h]

/-- The table in the words of its entries, nine for each symbol in ascending order, is that table. -/
theorem tableOfWords_of {t : Table CtEntry} {ws : List Word}
    (h : ∀ (c : Byte) (w : Nat), w < 9 → ws.getD (9 * c.toNat + w) 0#32 = (t.entry c).word w) :
    tableOfWords ws = t :=
  Table.ext fun c => by
    rw [tableOfWords, Table.entry_tabulate, CtEntry.ofWords_congr (h c), CtEntry.ofWords_word]

/-! ### Stores to TEXT_MEM and BITS_MEM -/

theorem get?_storeByte (cap : Nat) (m : Memory) (i j : Nat) (b : Byte) :
    Sparse.get? (storeByte cap m i b) j = if i < cap ∧ i = j then some b else Sparse.get? m j := by
  unfold storeByte
  split
  · rw [Sparse.get?_set]
    simp [*]
  · simp [*]

/-- Everything a store to word k does: it sets the bytes 4k to 4k + 3 that lie below the capacity, and no other. -/
theorem get?_storeWord (cap : Nat) (m : Memory) (k i : Nat) (v : Word) :
    Sparse.get? (storeWord cap m k v) i = if 4 * k ≤ i ∧ i < 4 * k + 4 ∧ i < cap
      then some (v.extractLsb' (8 * (i - 4 * k)) 8) else Sparse.get? m i := by
  unfold storeWord
  simp only [get?_storeByte, byteOfWord]
  by_cases h : 4 * k ≤ i ∧ i < 4 * k + 4 ∧ i < cap
  · rw [if_pos h]
    have : i = 4 * k ∨ i = 4 * k + 1 ∨ i = 4 * k + 2 ∨ i = 4 * k + 3 := by omega
    rcases this with h2 | h2 | h2 | h2
    · rw [if_neg (by omega), if_neg (by omega), if_neg (by omega), if_pos (by omega), show i - 4 * k = 0 by omega]
    · rw [if_neg (by omega), if_neg (by omega), if_pos (by omega), show i - 4 * k = 1 by omega]
    · rw [if_neg (by omega), if_pos (by omega), show i - 4 * k = 2 by omega]
    · rw [if_pos (by omega), show i - 4 * k = 3 by omega]
  · rw [if_neg h, if_neg (by omega), if_neg (by omega), if_neg (by omega), if_neg (by omega)]

theorem Memory.wf_storeByte {cap : Nat} {m : Memory} (i : Nat) (b : Byte) (h : Memory.wf cap m = true) :
    Memory.wf cap (storeByte cap m i b) = true := by
  unfold storeByte
  split
  · exact Sparse.wf_set b h ‹_›
  · exact h

theorem Memory.wf_storeWord {cap : Nat} {m : Memory} (k : Nat) (v : Word) (h : Memory.wf cap m = true) :
    Memory.wf cap (storeWord cap m k v) = true :=
  wf_storeByte _ _ (wf_storeByte _ _ (wf_storeByte _ _ (wf_storeByte _ _ h)))

/-- A command that stores a result from byte 0 on keeps the canonical form (R130, R155). -/
theorem Memory.wf_overwrite {cap : Nat} {m : Memory} {bs : List Byte} (h : Memory.wf cap m = true)
    (hb : bs.length ≤ cap) : Memory.wf cap (Sparse.overwrite m bs) = true := Sparse.wf_overwrite h hb

theorem State.reset_text_wf (cap : Nat) : Memory.wf cap State.reset.text = true := Sparse.wf_nil cap

theorem State.reset_bits_wf (cap : Nat) : Memory.wf cap State.reset.bits = true := Sparse.wf_nil cap

end Sys2Proof.Machine
end

