-- ==== Sys2Proof/Laws/Codes.lean ====
section
/-! SUPPORT. The laws of codes and of the code table: an entry holds the code it was made of, what a generated table
holds, and what the decodable set, the prefix check, the node count and the two length registers are. -/

namespace Sys2Proof.Machine

/-! ### Entries -/

@[simp] theorem CtEntry.length_code (e : CtEntry) : e.code.length = e.len.toNat := by simp [CtEntry.code]

/-- R100: code character j is BITS[j]. -/
theorem CtEntry.getElem?_code (e : CtEntry) {j : Nat} (h : j < e.len.toNat) :
    e.code[j]? = some (e.bits.getLsbD j) := by
  simp [CtEntry.code, h]

theorem CtEntry.getLsbD_ofCode (c : Code) (hc : c.length ≤ 255) (j : Nat) :
    (CtEntry.ofCode c).bits.getLsbD j = c.getD j false := by
  simp only [CtEntry.ofCode, BitVec.getLsbD_setWidth, BitVec.getLsbD_ofBoolListLE]
  by_cases h : j < 256
  · simp [h]
  · simp [h, List.getElem?_eq_none (show c.length ≤ j by omega)]

theorem CtEntry.len_ofCode (c : Code) (hc : c.length ≤ 255) : (CtEntry.ofCode c).len.toNat = c.length := by
  simp [CtEntry.ofCode, Nat.mod_eq_of_lt (show c.length < 256 by omega)]

/-- R128: the entry made of a code has that code. -/
theorem CtEntry.code_ofCode (c : Code) (hc : c.length ≤ 255) : (CtEntry.ofCode c).code = c := by
  apply List.ext_getElem
  · rw [CtEntry.length_code, CtEntry.len_ofCode c hc]
  · intro i h1 h2
    simp [CtEntry.code, CtEntry.getLsbD_ofCode c hc, h2]

theorem CtEntry.decodable_iff (e : CtEntry) : e.decodable = true ↔ e.valid = true ∧ e.len ≠ 0#8 := by
  simp [CtEntry.decodable]

/-! ### Generated tables -/

theorem entry_foldl_put_of_not_mem (leaves : List CodePair) (t : Table CtEntry) (c : Byte)
    (h : c ∉ leaves.map CodePair.symbol) :
    (leaves.foldl (fun t e => t.put e.symbol (CtEntry.ofCode e.code)) t).entry c = t.entry c := by
  induction leaves generalizing t with
  | nil => rfl
  | cons e leaves ih =>
    simp only [List.map_cons, List.mem_cons, not_or] at h
    rw [List.foldl_cons, ih _ h.2, Table.entry_put, if_neg (fun he => h.1 he.symm)]

theorem entry_foldl_put_of_mem (leaves : List CodePair) (t : Table CtEntry) (hn : (leaves.map CodePair.symbol).Nodup)
    {e : CodePair} (h : e ∈ leaves) :
    (leaves.foldl (fun t e => t.put e.symbol (CtEntry.ofCode e.code)) t).entry e.symbol = CtEntry.ofCode e.code := by
  induction leaves generalizing t with
  | nil => simp at h
  | cons x leaves ih =>
    simp only [List.map_cons, List.nodup_cons] at hn
    rcases List.mem_cons.1 h with rfl | h
    · rw [List.foldl_cons, entry_foldl_put_of_not_mem _ _ _ hn.1, Table.entry_put_self]
    · exact ih _ hn.2 h

/-- R128: a symbol no leaf has stays absent. -/
theorem entry_codeTable_of_not_mem (leaves : List CodePair) (c : Byte) (h : c ∉ leaves.map CodePair.symbol) :
    (codeTable leaves).entry c = CtEntry.absent := by
  rw [codeTable, entry_foldl_put_of_not_mem _ _ _ h, Table.entry_tabulate]

/-- R128: with one leaf for a symbol, its entry has the leaf's code. -/
theorem entry_codeTable_of_mem (leaves : List CodePair) (hn : (leaves.map CodePair.symbol).Nodup)
    {e : CodePair} (h : e ∈ leaves) : (codeTable leaves).entry e.symbol = CtEntry.ofCode e.code :=
  entry_foldl_put_of_mem _ _ hn h

/-! ### The decodable set (R150) -/

theorem decodableSet_eq (ct : Table CtEntry) :
    decodableSet ct = (symbols.filter (fun c => (ct.entry c).decodable)).map (fun c => ⟨c, (ct.entry c).code⟩) := by
  rw [decodableSet, Table.pairs_eq, List.filter_map, List.map_map]
  rfl

theorem mem_decodableSet (ct : Table CtEntry) (e : CodePair) :
    e ∈ decodableSet ct ↔ (ct.entry e.symbol).decodable = true ∧ e.code = (ct.entry e.symbol).code := by
  rw [decodableSet_eq]
  constructor
  · intro h
    obtain ⟨c, hc, rfl⟩ := List.mem_map.1 h
    exact ⟨(List.mem_filter.1 hc).2, rfl⟩
  · rintro ⟨h1, h2⟩
    refine List.mem_map.2 ⟨e.symbol, List.mem_filter.2 ⟨mem_symbols _, h1⟩, ?_⟩
    rw [← h2]

theorem decodableSet_symbols_nodup (ct : Table CtEntry) : ((decodableSet ct).map CodePair.symbol).Nodup := by
  rw [decodableSet_eq, List.map_map]
  exact (List.nodup_map_iff_inj_on (symbols_nodup.filter _)).2 fun a _ b _ h => h

theorem decodableSet_code_ne_nil (ct : Table CtEntry) {e : CodePair} (h : e ∈ decodableSet ct) : e.code ≠ [] := by
  obtain ⟨h1, h2⟩ := (mem_decodableSet ct e).1 h
  rw [CtEntry.decodable_iff] at h1
  intro h3
  rw [h2] at h3
  have := congrArg List.length h3
  rw [CtEntry.length_code] at this
  exact h1.2 (BitVec.eq_of_toNat_eq this)

theorem decodableSet_code_length (ct : Table CtEntry) {e : CodePair} (h : e ∈ decodableSet ct) :
    e.code.length ≤ 255 := by
  obtain ⟨-, h2⟩ := (mem_decodableSet ct e).1 h
  have := (ct.entry e.symbol).len.isLt
  rw [h2, CtEntry.length_code]
  omega

/-! ### The checks of BUILD_DECODE_TREE (R152) -/

theorem prefixClash_eq_true (d : List CodePair) :
    prefixClash d = true ↔ ∃ a ∈ d, ∃ b ∈ d, a.symbol ≠ b.symbol ∧ a.code <+: b.code := by
  simp [prefixClash]

theorem prefixClash_eq_false (d : List CodePair) :
    prefixClash d = false ↔ ∀ a ∈ d, ∀ b ∈ d, a.symbol ≠ b.symbol → ¬ a.code <+: b.code := by
  rw [← Bool.not_eq_true, prefixClash_eq_true]
  simp only [not_exists, not_and]

theorem trieNodes_eq (d : List CodePair) :
    trieNodes d = { p : Code | p = [] ∨ ∃ e ∈ d, p <+: e.code }.ncard := by
  have h : { p : Code | p = [] ∨ ∃ e ∈ d, p <+: e.code } =
      (([] :: d.flatMap (fun e => e.code.inits)).toFinset : Set Code) := by
    ext p
    simp
  rw [h, Set.ncard_coe_finset, List.card_toFinset]
  rfl

/-- R152, R153: the first check, on the entries of the table. -/
theorem prefixClash_decodableSet (ct : Table CtEntry) :
    prefixClash (decodableSet ct) = true ↔ ∃ c d, c ≠ d ∧ ((ct.entry c).valid = true ∧ (ct.entry c).len ≠ 0#8) ∧
      ((ct.entry d).valid = true ∧ (ct.entry d).len ≠ 0#8) ∧ (ct.entry c).code <+: (ct.entry d).code := by
  rw [prefixClash_eq_true]
  constructor
  · rintro ⟨a, ha, b, hb, h1, h2⟩
    rw [mem_decodableSet, CtEntry.decodable_iff] at ha hb
    exact ⟨a.symbol, b.symbol, h1, ha.1, hb.1, by rw [← ha.2, ← hb.2]; exact h2⟩
  · rintro ⟨c, d, h1, h2, h3, h4⟩
    exact ⟨⟨c, (ct.entry c).code⟩, (mem_decodableSet _ _).2 ⟨(CtEntry.decodable_iff _).2 h2, rfl⟩,
      ⟨d, (ct.entry d).code⟩, (mem_decodableSet _ _).2 ⟨(CtEntry.decodable_iff _).2 h3, rfl⟩, h1, h4⟩

/-- R151: the second check's number, on the entries of the table. -/
theorem trieNodes_decodableSet (ct : Table CtEntry) :
    trieNodes (decodableSet ct) = { p : Code | p = [] ∨ ∃ c,
      ((ct.entry c).valid = true ∧ (ct.entry c).len ≠ 0#8) ∧ p <+: (ct.entry c).code }.ncard := by
  rw [trieNodes_eq]
  congr 1
  ext p
  simp only [Set.mem_ofPred_eq]
  apply or_congr Iff.rfl
  constructor
  · rintro ⟨e, he, hp⟩
    rw [mem_decodableSet, CtEntry.decodable_iff] at he
    exact ⟨e.symbol, he.1, by rw [← he.2]; exact hp⟩
  · rintro ⟨c, hc, hp⟩
    exact ⟨⟨c, (ct.entry c).code⟩, (mem_decodableSet _ _).2 ⟨(CtEntry.decodable_iff _).2 hc, rfl⟩, hp⟩

/-! ### MIN_LEN and MAX_LEN (R135) -/

theorem maxDecodable_le (ct : Table CtEntry) : maxDecodable ct ≤ 255 := by
  unfold maxDecodable
  cases h : ((decodableSet ct).map (fun e => e.code.length)).max? with
  | none => simp
  | some m =>
    obtain ⟨e, he, rfl⟩ := List.mem_map.1 (List.max?_mem h)
    simpa using decodableSet_code_length ct he

theorem minDecodable_le (ct : Table CtEntry) : minDecodable ct ≤ 255 := by
  unfold minDecodable
  cases h : ((decodableSet ct).map (fun e => e.code.length)).min? with
  | none => simp
  | some m =>
    obtain ⟨e, he, rfl⟩ := List.mem_map.1 (List.min?_mem h)
    simpa using decodableSet_code_length ct he

/-- R155: the m of DESERIALIZE is MIN_LEN's value when TRIE is the decodable set. -/
theorem trieMinLen_decodableSet (ct : Table CtEntry) : trieMinLen (decodableSet ct) = minDecodable ct := rfl

end Sys2Proof.Machine
end

