-- ==== Sys2Proof/Laws/Tree.lean ====
section
/-! SUPPORT. The laws of the tree builder and of the walk (R122 to R128): the tree an arena holds as a recursive value, what
one turn of the loop does to the trees of the queue, the one tree that is left, and the codes the walk records on it. -/

namespace Sys2Proof.Machine

/-! ### Trees -/

/-- A tree with the indices its nodes have in an arena. -/
inductive HTree where
  | leaf (i : Nat) (c : Byte) (f : Word)
  | node (i : Nat) (l r : HTree)
deriving DecidableEq

namespace HTree

/-- The index of the root of a tree. -/
def idx : HTree → Nat
  | .leaf i _ _ => i
  | .node i _ _ => i

/-- The sum of the counts of the leaves. -/
def weight : HTree → Word
  | .leaf _ _ f => f
  | .node _ l r => l.weight + r.weight

/-- The indices of all nodes, the root's first. -/
def indices : HTree → List Nat
  | .leaf i _ _ => [i]
  | .node i l r => i :: (l.indices ++ r.indices)

/-- The leaves from left to right: index and symbol. -/
def leaves : HTree → List (Nat × Byte)
  | .leaf i c _ => [(i, c)]
  | .node _ l r => l.leaves ++ r.leaves

/-- The number of nodes on a longest path. -/
def height : HTree → Nat
  | .leaf _ _ _ => 1
  | .node _ l r => max l.height r.height + 1

/-- The leaves from left to right: symbol and code, codes beginning with `c` (R128). -/
def codes (c : Code) : HTree → List CodePair
  | .leaf _ s _ => [⟨s, c⟩]
  | .node _ l r => l.codes (c ++ [false]) ++ r.codes (c ++ [true])

/-- The arena `look` holds the tree: leaves and internal nodes stand at their indices, children below their parent, and
the frequency of an internal node is the sum of its children's. -/
def Rep (look : Nat → Option Node) : HTree → Prop
  | .leaf i c f => look i = some (.leaf c f)
  | .node i l r => (∃ a b, look i = some (.internal a b (l.weight + r.weight)) ∧ a.toNat = l.idx ∧ b.toNat = r.idx) ∧
      l.idx < i ∧ r.idx < i ∧ Rep look l ∧ Rep look r

theorem Rep.mono {look look' : Nat → Option Node} (h : ∀ i n, look i = some n → look' i = some n) {t : HTree}
    (ht : t.Rep look) : t.Rep look' := by
  induction t with
  | leaf i c f => exact h _ _ ht
  | node i l r ihl ihr =>
    obtain ⟨⟨a, b, h1, h2⟩, hl, hr, htl, htr⟩ := ht
    exact ⟨⟨a, b, h _ _ h1, h2⟩, hl, hr, ihl htl, ihr htr⟩

theorem idx_mem_indices (t : HTree) : t.idx ∈ t.indices := by cases t <;> simp [idx, indices]

theorem Rep.le_idx {look : Nat → Option Node} {t : HTree} (ht : t.Rep look) : ∀ j ∈ t.indices, j ≤ t.idx := by
  induction t with
  | leaf i c f => simp [indices, idx]
  | node i l r ihl ihr =>
    obtain ⟨-, hl, hr, htl, htr⟩ := ht
    intro j hj
    simp only [indices, List.mem_cons, List.mem_append] at hj
    simp only [idx]
    rcases hj with rfl | hj | hj
    · omega
    · have := ihl htl j hj
      omega
    · have := ihr htr j hj
      omega

theorem Rep.node_freq {look : Nat → Option Node} {t : HTree} (ht : t.Rep look) :
    ∃ n, look t.idx = some n ∧ n.freq = t.weight := by
  cases t with
  | leaf i c f => exact ⟨_, ht, rfl⟩
  | node i l r =>
    obtain ⟨⟨a, b, h1, -⟩, -⟩ := ht
    exact ⟨_, h1, rfl⟩

theorem length_indices_pos (t : HTree) : 1 ≤ t.indices.length := by cases t <;> simp [indices]

theorem height_le (t : HTree) : 2 * t.height ≤ t.indices.length + 1 := by
  induction t with
  | leaf i c f => simp [height, indices]
  | node i l r ihl ihr =>
    have hl := length_indices_pos l
    have hr := length_indices_pos r
    simp only [height, indices, List.length_cons, List.length_append]
    omega

theorem leaves_sublist (t : HTree) : (t.leaves.map Prod.fst).Sublist t.indices := by
  induction t with
  | leaf i c f => simp [leaves, indices]
  | node i l r ihl ihr =>
    simp only [leaves, indices, List.map_append]
    exact (ihl.append ihr).cons _

theorem Rep.leaf_mem {look : Nat → Option Node} {t : HTree} (ht : t.Rep look) {i : Nat} {c : Byte}
    (h : (i, c) ∈ t.leaves) : ∃ f, look i = some (.leaf c f) := by
  induction t with
  | leaf j d f =>
    obtain ⟨rfl, rfl⟩ : i = j ∧ c = d := by simpa [leaves] using h
    exact ⟨f, ht⟩
  | node j l r ihl ihr =>
    obtain ⟨-, -, -, htl, htr⟩ := ht
    rcases List.mem_append.1 h with h | h
    · exact ihl htl h
    · exact ihr htr h

theorem Rep.mem_leaves {look : Nat → Option Node} {t : HTree} (ht : t.Rep look) {i : Nat} {c : Byte} {f : Word}
    (hi : i ∈ t.indices) (h : look i = some (.leaf c f)) : (i, c) ∈ t.leaves := by
  induction t with
  | leaf j d g =>
    obtain rfl : i = j := by simpa [indices] using hi
    rw [show look i = some (.leaf d g) from ht] at h
    cases h
    simp [leaves]
  | node j l r ihl ihr =>
    obtain ⟨⟨a, b, h1, -⟩, -, -, htl, htr⟩ := ht
    simp only [indices, List.mem_cons, List.mem_append] at hi
    rcases hi with rfl | hi | hi
    · rw [h1] at h
      cases h
    · exact List.mem_append_left _ (ihl htl hi)
    · exact List.mem_append_right _ (ihr htr hi)

theorem codes_symbols (t : HTree) (c : Code) : (t.codes c).map CodePair.symbol = t.leaves.map Prod.snd := by
  induction t generalizing c with
  | leaf i s f => rfl
  | node i l r ihl ihr => simp [codes, leaves, ihl, ihr]

theorem codes_prefix (t : HTree) (c : Code) {e : CodePair} (h : e ∈ t.codes c) : c <+: e.code := by
  induction t generalizing c with
  | leaf i s f =>
    obtain rfl : e = ⟨s, c⟩ := by simpa [codes] using h
    exact List.prefix_refl _
  | node i l r ihl ihr =>
    rcases List.mem_append.1 h with h | h
    · exact (List.prefix_append _ _).trans (ihl _ h)
    · exact (List.prefix_append _ _).trans (ihr _ h)

theorem codes_length (t : HTree) (c : Code) {e : CodePair} (h : e ∈ t.codes c) :
    e.code.length + 1 ≤ c.length + t.height := by
  induction t generalizing c with
  | leaf i s f =>
    obtain rfl : e = ⟨s, c⟩ := by simpa [codes] using h
    simp [height]
  | node i l r ihl ihr =>
    rcases List.mem_append.1 h with h | h
    · have := ihl _ h
      simp only [List.length_append, List.length_singleton, height] at this ⊢
      omega
    · have := ihr _ h
      simp only [List.length_append, List.length_singleton, height] at this ⊢
      omega

/-- R129: a code of the tree that is a prefix of another is that other. -/
theorem codes_prefixFree (t : HTree) (c : Code) {a b : CodePair} (ha : a ∈ t.codes c) (hb : b ∈ t.codes c)
    (h : a.code <+: b.code) : a = b := by
  induction t generalizing c with
  | leaf i s f =>
    rw [show a = ⟨s, c⟩ by simpa [codes] using ha, show b = ⟨s, c⟩ by simpa [codes] using hb]
  | node i l r ihl ihr =>
    have clash : ∀ x y : Bool, x ≠ y → ∀ {p q : Code}, c ++ [x] <+: p → c ++ [y] <+: q → ¬ p <+: q := by
      intro x y hxy p q hp hq hpq
      have h1 := hp.trans hpq
      have h2 := List.prefix_of_prefix_length_le h1 hq (by simp)
      have h3 := h2.eq_of_length (by simp)
      exact hxy (by simpa using h3)
    rcases List.mem_append.1 ha with ha | ha <;> rcases List.mem_append.1 hb with hb | hb
    · exact ihl _ ha hb
    · exact absurd h (clash false true (by decide) (codes_prefix _ _ ha) (codes_prefix _ _ hb))
    · exact absurd h (clash true false (by decide) (codes_prefix _ _ ha) (codes_prefix _ _ hb))
    · exact ihr _ ha hb

/-- The walk records the codes of the tree (R128). -/
theorem Rep.treeWalk_eq {look : Nat → Option Node} {node : Nat → Node} (hn : ∀ i n, look i = some n → node i = n)
    {t : HTree} (ht : t.Rep look) (hi : ∀ i ∈ t.indices, i < Config.nodeCap) (depth : Nat) (hd : t.height ≤ depth)
    (c : Code) : treeWalk node depth t.idx c = .ok (t.codes c) := by
  induction t generalizing depth c with
  | leaf i s f =>
    obtain ⟨d, rfl⟩ : ∃ d, depth = d + 1 := ⟨depth - 1, by simp [height] at hd; omega⟩
    have h1 : i < Config.nodeCap := hi i (by simp [indices])
    simp [treeWalk, idx, h1, hn _ _ ht, codes]
  | node i l r ihl ihr =>
    obtain ⟨⟨a, b, h1, ha, hb⟩, -, -, htl, htr⟩ := ht
    obtain ⟨d, rfl⟩ : ∃ d, depth = d + 1 := ⟨depth - 1, by simp [height] at hd; omega⟩
    have h2 : i < Config.nodeCap := hi i (by simp [indices])
    have hl := ihl htl (fun j hj => hi j (by simp [indices, hj])) d (by simp [height] at hd; omega) (c ++ [false])
    have hr := ihr htr (fun j hj => hi j (by simp [indices, hj])) d (by simp [height] at hd; omega) (c ++ [true])
    simp only [treeWalk, show (HTree.node i l r).idx = i from rfl, h2, if_true, hn _ _ h1, ha, hb, hl, hr, codes]

end HTree

/-! ### The queue (R123) -/

theorem QueueItem.precedes_iff (a b : QueueItem) :
    a.precedes b = true ↔ a.freq < b.freq ∨ (a.freq = b.freq ∧ a.node < b.node) := by
  simp [QueueItem.precedes]

theorem QueueItem.precedes_trans {a b c : QueueItem} (h1 : a.precedes b = true) (h2 : b.precedes c = true) :
    a.precedes c = true := by
  rw [QueueItem.precedes_iff] at *
  rcases h1 with h1 | ⟨h1, h1'⟩ <;> rcases h2 with h2 | ⟨h2, h2'⟩
  · exact .inl (BitVec.lt_trans h1 h2)
  · exact .inl (h2 ▸ h1)
  · exact .inl (h1 ▸ h2)
  · exact .inr ⟨h1.trans h2, Nat.lt_trans h1' h2'⟩

theorem QueueItem.eq_or_precedes (a b : QueueItem) : a = b ∨ a.precedes b = true ∨ b.precedes a = true := by
  obtain ⟨i, f⟩ := a
  obtain ⟨j, g⟩ := b
  simp only [QueueItem.precedes_iff, QueueItem.mk.injEq]
  rcases Nat.lt_trichotomy i j with hij | hij | hij <;> rcases Nat.lt_trichotomy f.toNat g.toNat with h | h | h
  all_goals first
    | exact .inr (.inl (.inl (BitVec.lt_def.2 h)))
    | exact .inr (.inr (.inl (BitVec.lt_def.2 h)))
    | exact .inr (.inl (.inr ⟨BitVec.eq_of_toNat_eq h, hij⟩))
    | exact .inr (.inr (.inr ⟨(BitVec.eq_of_toNat_eq h).symm, hij⟩))
    | exact .inl ⟨hij, BitVec.eq_of_toNat_eq h⟩

/-- R123: the least item is one of the list and precedes every other. -/
theorem leastItem_spec (a : QueueItem) (q : List QueueItem) :
    leastItem a q ∈ a :: q ∧ ∀ c ∈ a :: q, c = leastItem a q ∨ (leastItem a q).precedes c = true := by
  induction q generalizing a with
  | nil => simp [leastItem]
  | cons b q ih =>
    simp only [leastItem]
    split
    · rename_i hba
      obtain ⟨h1, h2⟩ := ih b
      refine ⟨List.mem_cons_of_mem _ h1, fun c hc => ?_⟩
      rcases List.mem_cons.1 hc with rfl | hc
      · rcases h2 b List.mem_cons_self with h | h
        · exact .inr (h ▸ hba)
        · exact .inr (QueueItem.precedes_trans h hba)
      · exact h2 c hc
    · rename_i hba
      obtain ⟨h1, h2⟩ := ih a
      refine ⟨?_, fun c hc => ?_⟩
      · rcases List.mem_cons.1 h1 with h | h
        · rw [h]
          exact List.mem_cons_self
        · exact List.mem_cons_of_mem _ (List.mem_cons_of_mem _ h)
      · rcases List.mem_cons.1 hc with rfl | hc
        · exact h2 _ List.mem_cons_self
        · rcases List.mem_cons.1 hc with rfl | hc
          · rcases QueueItem.eq_or_precedes a c with rfl | h | h
            · exact h2 _ List.mem_cons_self
            · rcases h2 a List.mem_cons_self with h3 | h3
              · exact .inr (h3 ▸ h)
              · exact .inr (QueueItem.precedes_trans h3 h)
            · exact absurd h hba
          · exact h2 c (List.mem_cons_of_mem _ hc)

/-- R123: a pop of a queue that is not empty. -/
theorem popLeast_spec {q : List QueueItem} (h : q ≠ []) :
    ∃ a, popLeast q = some (a, q.erase a) ∧ a ∈ q ∧ ∀ c ∈ q, c = a ∨ a.precedes c = true := by
  cases q with
  | nil => exact absurd rfl h
  | cons b q => exact ⟨leastItem b q, rfl, leastItem_spec b q⟩

/-- R124, R125: everything one turn of the loop does. -/
theorem Forest.combine_cases (t : Forest) :
    (t.queue.length < 2 ∧ t.combine = t) ∨
    ∃ a b, a ∈ t.queue ∧ b ∈ t.queue.erase a ∧ (∀ c ∈ t.queue, c = a ∨ a.precedes c = true) ∧
      (∀ c ∈ t.queue.erase a, c = b ∨ b.precedes c = true) ∧
      t.combine = ⟨t.nodes ++ [.internal (BitVec.ofNat 9 a.node) (BitVec.ofNat 9 b.node) (a.freq + b.freq)],
        (t.queue.erase a).erase b ++ [⟨t.nodes.length, a.freq + b.freq⟩]⟩ := by
  by_cases h0 : t.queue = []
  · exact .inl ⟨by simp [h0], by simp [Forest.combine, h0, popLeast]⟩
  · obtain ⟨a, ha, hmem, hleast⟩ := popLeast_spec h0
    by_cases h1 : t.queue.erase a = []
    · refine .inl ⟨?_, by simp only [Forest.combine, ha, h1, show popLeast [] = none from rfl]⟩
      have := List.length_erase_of_mem hmem
      rw [h1, List.length_nil] at this
      omega
    · obtain ⟨b, hb, hmem', hleast'⟩ := popLeast_spec h1
      exact .inr ⟨a, b, hmem, hmem', hleast, hleast', by simp [Forest.combine, ha, hb]⟩

/-! ### The loop (R125) -/

/-- The queue's view of a tree. -/
def HTree.item (t : HTree) : QueueItem := ⟨t.idx, t.weight⟩

/-- What holds at every turn of the loop that began with the leaves `base`: the queue holds the roots of the trees, whose
nodes are the nodes made so far, each once. -/
structure ForestOf (base : List Node) (t : Forest) (trees : List HTree) : Prop where
  queue : t.queue.Perm (trees.map HTree.item)
  rep : ∀ h ∈ trees, h.Rep (fun i => t.nodes[i]?)
  indices : (trees.flatMap HTree.indices).Perm (List.range t.nodes.length)
  count : t.nodes.length + trees.length = 2 * base.length
  starts : ∃ rest, t.nodes = base ++ rest ∧ ∀ n ∈ rest, ∃ l r f, n = .internal l r f
  weight : (trees.map HTree.weight).sum = (base.map Node.freq).sum

theorem ForestOf.idx_lt {base : List Node} {t : Forest} {trees : List HTree} (h : ForestOf base t trees)
    {x : HTree} (hx : x ∈ trees) : x.idx < t.nodes.length := by
  have h1 : x.idx ∈ trees.flatMap HTree.indices := List.mem_flatMap.2 ⟨x, hx, x.idx_mem_indices⟩
  simpa using h.indices.subset h1

/-- A turn on at least two trees joins two of them, of least weights. -/
theorem ForestOf.combine {base : List Node} {t : Forest} {trees : List HTree} (h : ForestOf base t trees)
    (hb : base.length ≤ 256) (h2 : 2 ≤ trees.length) :
    ∃ x y rest, trees.Perm (x :: y :: rest) ∧ (∀ z ∈ y :: rest, x.weight.toNat ≤ z.weight.toNat) ∧
      (∀ z ∈ rest, y.weight.toNat ≤ z.weight.toNat) ∧
      ForestOf base t.combine (.node t.nodes.length x y :: rest) := by
  have hq := h.queue.length_eq
  rw [List.length_map] at hq
  have hcount := h.count
  rcases t.combine_cases with ⟨hlt, -⟩ | ⟨a, b, ha, hbm, hla, hlb, hc⟩
  · omega
  have least : ∀ u v : HTree, v.item = u.item ∨ u.item.precedes v.item = true → u.weight.toNat ≤ v.weight.toNat := by
    rintro u v (huv | huv)
    · rw [show v.weight = u.weight from congrArg QueueItem.freq huv]
    · rcases (QueueItem.precedes_iff _ _).1 huv with hlt | ⟨heq, -⟩
      · exact Nat.le_of_lt (BitVec.lt_def.1 hlt)
      · rw [show u.weight = v.weight from heq]
  obtain ⟨x, hx, rfl⟩ := List.mem_map.1 (h.queue.subset ha)
  have p1 : trees.Perm (x :: trees.erase x) := List.perm_cons_erase hx
  have q1 : (t.queue.erase x.item).Perm ((trees.erase x).map HTree.item) := by
    have := (List.perm_cons_erase ha).symm.trans (h.queue.trans (p1.map HTree.item))
    exact (List.perm_cons _).1 this
  obtain ⟨y, hy, rfl⟩ := List.mem_map.1 (q1.subset hbm)
  have p2 : (trees.erase x).Perm (y :: (trees.erase x).erase y) := List.perm_cons_erase hy
  have q2 : ((t.queue.erase x.item).erase y.item).Perm (((trees.erase x).erase y).map HTree.item) := by
    have := (List.perm_cons_erase hbm).symm.trans (q1.trans (p2.map HTree.item))
    exact (List.perm_cons _).1 this
  have hyt : y ∈ trees := List.mem_of_mem_erase hy
  have p : trees.Perm (x :: y :: (trees.erase x).erase y) := p1.trans (p2.cons x)
  have hxi := h.idx_lt hx
  have hyi := h.idx_lt hyt
  have hlen := p.length_eq
  simp only [List.length_cons] at hlen
  refine ⟨x, y, (trees.erase x).erase y, p, fun z hz => ?_, fun z hz => ?_, ?_⟩
  · exact least x z (hla _ (h.queue.symm.subset (List.mem_map.2 ⟨z, p.symm.subset (List.mem_cons_of_mem _ hz), rfl⟩)))
  · exact least y z (hlb _ (q1.symm.subset (List.mem_map.2 ⟨z, List.mem_of_mem_erase hz, rfl⟩)))
  rw [hc]
  have hmono : ∀ (i : Nat) (n : Node), t.nodes[i]? = some n →
      (t.nodes ++ [Node.internal (BitVec.ofNat 9 x.item.node) (BitVec.ofNat 9 y.item.node)
        (x.item.freq + y.item.freq)])[i]? = some n := by
    intro i n hi
    rw [List.getElem?_append_left (List.getElem?_eq_some_iff.1 hi).1, hi]
  have h9 : ∀ z : HTree, z.idx < t.nodes.length → (BitVec.ofNat 9 z.item.node).toNat = z.idx := by
    intro z hz
    simp only [BitVec.toNat_ofNat, HTree.item]
    omega
  constructor
  · exact (List.perm_append_singleton _ _).trans (q2.cons _)
  · intro z hz
    rcases List.mem_cons.1 hz with rfl | hz
    · exact ⟨⟨_, _, by simp [HTree.item], h9 x hxi, h9 y hyi⟩, hxi, hyi, (h.rep x hx).mono hmono,
        (h.rep y hyt).mono hmono⟩
    · exact (h.rep z (List.mem_of_mem_erase (List.mem_of_mem_erase hz))).mono hmono
  · have pi : (trees.flatMap HTree.indices).Perm
        ((x :: y :: (trees.erase x).erase y).flatMap HTree.indices) := p.flatMap_right _
    have := (pi.symm.trans h.indices).cons t.nodes.length
    simp only [List.flatMap_cons, HTree.indices, List.length_append, List.length_singleton, List.range_succ,
      List.cons_append, List.append_assoc] at this ⊢
    exact this.trans (List.perm_append_singleton _ _).symm
  · simp only [List.length_append, List.length_cons, List.length_nil]
    omega
  · obtain ⟨rest, hr, hi⟩ := h.starts
    refine ⟨rest ++ [_], by rw [hr, List.append_assoc], fun n hn => ?_⟩
    rcases List.mem_append.1 hn with hn | hn
    · exact hi n hn
    · exact ⟨_, _, _, List.mem_singleton.1 hn⟩
  · rw [← h.weight, (p.map HTree.weight).sum_eq]
    simp [HTree.weight, add_assoc]

theorem ForestOf.combine_one {base : List Node} {t : Forest} {trees : List HTree} (h : ForestOf base t trees)
    (h1 : trees.length = 1) : t.combine = t := by
  have hq := h.queue.length_eq
  rw [List.length_map] at hq
  rcases t.combine_cases with ⟨-, hc⟩ | ⟨a, b, ha, hbm, -⟩
  · exact hc
  · have h2 := List.length_erase_of_mem ha
    have h3 := List.length_pos_of_mem hbm
    omega

/-- Enough turns leave one tree. -/
theorem ForestOf.combineAll {base : List Node} {t : Forest} {trees : List HTree} (h : ForestOf base t trees)
    (hb : base.length ≤ 256) (h1 : 1 ≤ trees.length) (turns : Nat) (ht : trees.length ≤ turns + 1) :
    ∃ x, ForestOf base (t.combineAll turns) [x] := by
  induction turns generalizing t trees with
  | zero =>
    obtain ⟨x, rfl⟩ := List.length_eq_one_iff.1 (show trees.length = 1 by omega)
    exact ⟨x, h⟩
  | succ turns ih =>
    by_cases h2 : 2 ≤ trees.length
    · obtain ⟨x, y, rest, p, -, -, h'⟩ := h.combine hb h2
      have hl := p.length_eq
      simp only [List.length_cons] at hl
      exact ih h' (by simp only [List.length_cons]; omega) (by simp only [List.length_cons]; omega)
    · rw [Forest.combineAll, h.combine_one (by omega)]
      exact ih h h1 (by omega)

/-- Any number of turns leaves the roots of trees in the queue. -/
theorem ForestOf.after {base : List Node} {t : Forest} {trees : List HTree} (h : ForestOf base t trees)
    (hb : base.length ≤ 256) (turns : Nat) : ∃ trees', ForestOf base (t.combineAll turns) trees' := by
  induction turns generalizing t trees with
  | zero => exact ⟨trees, h⟩
  | succ turns ih =>
    by_cases h2 : 2 ≤ trees.length
    · obtain ⟨x, y, rest, -, -, -, h'⟩ := h.combine hb h2
      exact ih h'
    · rcases t.combine_cases with ⟨-, hc⟩ | ⟨a, b, ha, hbm, -⟩
      · rw [Forest.combineAll, hc]
        exact ih h
      · have hq := h.queue.length_eq
        have h3 := List.length_erase_of_mem ha
        have h4 := List.length_pos_of_mem hbm
        rw [List.length_map] at hq
        omega

/-- A queue item carries the frequency of its node (R123, log 15). -/
theorem ForestOf.queue_freq {base : List Node} {t : Forest} {trees : List HTree} (h : ForestOf base t trees)
    {q : QueueItem} (hq : q ∈ t.queue) : ∃ n, t.nodes[q.node]? = some n ∧ n.freq = q.freq := by
  obtain ⟨x, hx, rfl⟩ := List.mem_map.1 (h.queue.subset hq)
  exact (h.rep x hx).node_freq

/-! ### The leaves (R122) -/

/-- The symbols that occur, with their counts, in ascending symbol order. -/
def occurring (f : Table Word) : List (Byte × Word) := f.pairs.filter (fun p => p.2 != 0#32)

theorem leafNodes_eq (f : Table Word) : leafNodes f = (occurring f).map (fun p => .leaf p.1 p.2) := rfl

theorem occurring_eq (f : Table Word) :
    occurring f = (symbols.filter (fun c => f.entry c ≠ 0#32)).map (fun c => (c, f.entry c)) := by
  rw [occurring, Table.pairs_eq, List.filter_map]
  congr 1
  apply List.filter_congr
  intro c _
  rw [Function.comp_apply, decide_not]
  rfl

theorem length_leafNodes (f : Table Word) : (leafNodes f).length = leafTotal f := by
  simp [leafNodes, leafTotal, List.countP_eq_length_filter]

theorem leafTotal_eq (f : Table Word) : leafTotal f = (symbols.filter (fun c => f.entry c ≠ 0#32)).length := by
  rw [← length_leafNodes, leafNodes_eq, List.length_map, occurring_eq, List.length_map]

theorem leafTotal_le (f : Table Word) : leafTotal f ≤ 256 := by
  rw [leafTotal_eq, ← symbols_length]
  exact List.length_filter_le _ _

theorem leafTotal_eq_zero_iff (f : Table Word) : leafTotal f = 0 ↔ ∀ c, f.entry c = 0#32 := by
  rw [leafTotal_eq, List.length_eq_zero_iff, List.filter_eq_nil_iff]
  simp [mem_symbols]

theorem leafNodes_getElem? (f : Table Word) (i : Nat) :
    (leafNodes f)[i]? = ((symbols.filter (fun c => f.entry c ≠ 0#32))[i]?).map (fun c => .leaf c (f.entry c)) := by
  rw [leafNodes_eq, occurring_eq, List.map_map, List.getElem?_map]
  rfl

/-- R125: the queue over nodes that stand from index `k` on holds those indices, in order. -/
theorem queueFrom_nodes (k : Nat) (ns : List Node) : (queueFrom k ns).map QueueItem.node = List.range' k ns.length := by
  induction ns generalizing k with
  | nil => rfl
  | cons n ns ih => simp [queueFrom, ih, List.range'_succ]

/-- The trees of single leaves from index `k` on. -/
def leafTrees (k : Nat) : List (Byte × Word) → List HTree
  | [] => []
  | p :: rest => .leaf k p.1 p.2 :: leafTrees (k + 1) rest

theorem leafTrees_spec (ps : List (Byte × Word)) (k : Nat) :
    (leafTrees k ps).length = ps.length ∧
    queueFrom k (ps.map (fun p => .leaf p.1 p.2)) = (leafTrees k ps).map HTree.item ∧
    (leafTrees k ps).flatMap HTree.indices = List.range' k ps.length ∧
    (leafTrees k ps).map HTree.weight = ps.map Prod.snd ∧
    ∀ h ∈ leafTrees k ps, ∃ j c g, h = .leaf (k + j) c g ∧ ps[j]? = some (c, g) := by
  induction ps generalizing k with
  | nil => simp [leafTrees, queueFrom]
  | cons p ps ih =>
    obtain ⟨h1, h2, h3, h4, h5⟩ := ih (k + 1)
    refine ⟨by simp [leafTrees, h1], ?_, ?_, by simp [leafTrees, HTree.weight, h4], ?_⟩
    · simp only [leafTrees, queueFrom, List.map_cons, h2]
      rfl
    · simp [leafTrees, HTree.indices, h3, List.range'_succ]
    · intro h hh
      rcases List.mem_cons.1 hh with rfl | hh
      · exact ⟨0, p.1, p.2, rfl, rfl⟩
      · obtain ⟨j, c, g, rfl, hj⟩ := h5 h hh
        exact ⟨j + 1, c, g, by rw [Nat.add_right_comm, Nat.add_assoc], by simpa using hj⟩

theorem leafForest_of (f : Table Word) : ForestOf (leafNodes f) (leafForest f) (leafTrees 0 (occurring f)) := by
  obtain ⟨h1, h2, h3, h4, h5⟩ := leafTrees_spec (occurring f) 0
  have hlen : (leafForest f).nodes.length = (occurring f).length := by simp [leafForest, leafNodes_eq]
  constructor
  · rw [← h2]
    exact List.Perm.refl _
  · intro h hh
    obtain ⟨j, c, g, rfl, hj⟩ := h5 h hh
    show (leafNodes f)[0 + j]? = _
    simp [leafNodes_eq, hj]
  · rw [h3, hlen, List.range_eq_range']
  · rw [h1, hlen, leafNodes_eq, List.length_map]
    omega
  · exact ⟨[], by simp [leafForest], by simp⟩
  · rw [h4, leafNodes_eq, List.map_map]
    rfl

/-! ### The tree BUILD_TREE leaves -/

/-- R125, R127: with at least one symbol, the loop leaves one tree. -/
theorem huffmanForest_of (f : Table Word) (h : leafTotal f ≠ 0) :
    ∃ x, ForestOf (leafNodes f) (huffmanForest f) [x] := by
  have h1 : (leafTrees 0 (occurring f)).length = leafTotal f := by
    rw [(leafTrees_spec _ _).1, ← length_leafNodes, leafNodes_eq, List.length_map]
  refine (leafForest_of f).combineAll ?_ (by omega) (leafTotal f) (by omega)
  rw [length_leafNodes]
  exact leafTotal_le f

/-- R127: what the one tree is: its root is the last of 2n − 1 nodes, its leaves are the symbols that occur, each once. -/
structure BuiltTree (f : Table Word) (x : HTree) : Prop where
  length : (huffmanForest f).nodes.length = 2 * leafTotal f - 1
  queue : (huffmanForest f).queue = [x.item]
  root : x.idx = 2 * leafTotal f - 2
  rep : x.Rep (fun i => (huffmanForest f).nodes[i]?)
  indices : x.indices.Perm (List.range (2 * leafTotal f - 1))
  weight : x.weight = (symbols.map f.entry).sum
  first : ∀ i, i < leafTotal f → (huffmanForest f).nodes[i]? = (leafNodes f)[i]?
  later : ∀ i, leafTotal f ≤ i → i < 2 * leafTotal f - 1 →
    ∃ l r g, (huffmanForest f).nodes[i]? = some (.internal l r g)
  symbols_nodup : (x.leaves.map Prod.snd).Nodup
  mem_symbols : ∀ c, c ∈ x.leaves.map Prod.snd ↔ f.entry c ≠ 0#32

theorem sum_occurring (f : Table Word) : ((leafNodes f).map Node.freq).sum = (symbols.map f.entry).sum := by
  rw [leafNodes_eq, occurring_eq, List.map_map, List.map_map]
  have : ∀ l : List Byte, ((l.filter (fun c => f.entry c ≠ 0#32)).map f.entry).sum = (l.map f.entry).sum := by
    intro l
    induction l with
    | nil => rfl
    | cons c l ih =>
      by_cases hc : f.entry c = 0#32
      · rw [List.filter_cons_of_neg (by simp [hc]), List.map_cons, List.sum_cons, ih, hc]
        simp
      · rw [List.filter_cons_of_pos (by simp [hc]), List.map_cons, List.map_cons, List.sum_cons, List.sum_cons, ih]
  exact this symbols

theorem builtTree (f : Table Word) (h : leafTotal f ≠ 0) : ∃ x, BuiltTree f x := by
  obtain ⟨x, hx⟩ := huffmanForest_of f h
  have hlen : (huffmanForest f).nodes.length = 2 * leafTotal f - 1 := by
    have := hx.count
    rw [length_leafNodes, List.length_singleton] at this
    omega
  have hrep := hx.rep x (List.mem_singleton.2 rfl)
  have hind : x.indices.Perm (List.range (2 * leafTotal f - 1)) := by
    have := hx.indices
    rwa [List.flatMap_cons, List.flatMap_nil, List.append_nil, hlen] at this
  have hroot : x.idx = 2 * leafTotal f - 2 := by
    have h1 := hx.idx_lt (List.mem_singleton.2 rfl)
    have h2 : 2 * leafTotal f - 2 ∈ x.indices := hind.symm.subset (List.mem_range.2 (by omega))
    have h3 := hrep.le_idx _ h2
    omega
  obtain ⟨rest, hnodes, hint⟩ := hx.starts
  have hfirst : ∀ i, i < leafTotal f → (huffmanForest f).nodes[i]? = (leafNodes f)[i]? := by
    intro i hi
    rw [hnodes, List.getElem?_append_left (by rwa [length_leafNodes])]
  have hlater : ∀ i, leafTotal f ≤ i → i < 2 * leafTotal f - 1 →
      ∃ l r g, (huffmanForest f).nodes[i]? = some (.internal l r g) := by
    intro i h1 h2
    have h3 : i < (huffmanForest f).nodes.length := by omega
    rw [hnodes] at h3
    obtain ⟨l, r, g, hg⟩ := hint ((leafNodes f ++ rest)[i]) (by
      rw [List.getElem_append_right (by rwa [length_leafNodes])]
      exact List.getElem_mem _)
    exact ⟨l, r, g, by rw [hnodes, List.getElem?_eq_getElem h3, hg]⟩
  have hleaf : ∀ i c, (i, c) ∈ x.leaves →
      i < leafTotal f ∧ (symbols.filter (fun c => f.entry c ≠ 0#32))[i]? = some c := by
    intro i c hic
    obtain ⟨g, hg⟩ := hrep.leaf_mem hic
    have hi : i ∈ x.indices := x.leaves_sublist.subset (List.mem_map.2 ⟨_, hic, rfl⟩)
    have hi' := List.mem_range.1 (hind.subset hi)
    have hlt : i < leafTotal f := by
      by_contra hge
      obtain ⟨l, r, g', hg'⟩ := hlater i (by omega) hi'
      rw [hg] at hg'
      cases hg'
    rw [hfirst i hlt, leafNodes_getElem?] at hg
    obtain ⟨d, hd, hdc⟩ := Option.map_eq_some_iff.1 hg
    cases hdc
    exact ⟨hlt, hd⟩
  refine ⟨x, hlen, ?_, hroot, hrep, hind, ?_, hfirst, hlater, ?_, ?_⟩
  · exact List.perm_singleton.1 hx.queue
  · rw [← sum_occurring, ← hx.weight]
    simp
  · have hnd : (x.leaves.map Prod.fst).Nodup := x.leaves_sublist.nodup (hind.nodup_iff.2 List.nodup_range)
    refine (List.nodup_map_iff_inj_on (List.Nodup.of_map _ hnd)).2 ?_
    rintro ⟨i, c⟩ hi ⟨j, d⟩ hj (rfl : c = d)
    have h1 := (hleaf i c hi).2
    have h2 := (hleaf j c hj).2
    obtain ⟨h1l, h1e⟩ := List.getElem?_eq_some_iff.1 h1
    obtain ⟨h2l, h2e⟩ := List.getElem?_eq_some_iff.1 h2
    have := (symbols_nodup.filter _).getElem_inj_iff.1 (h1e.trans h2e.symm)
    rw [this]
  · intro c
    constructor
    · intro hc
      obtain ⟨⟨i, d⟩, hi, rfl⟩ := List.mem_map.1 hc
      have := List.mem_of_getElem? (hleaf i d hi).2
      simpa using (List.mem_filter.1 this).2
    · intro hc
      obtain ⟨i, hi⟩ := List.getElem?_of_mem (List.mem_filter.2 ⟨mem_symbols c, by simpa using hc⟩ :
        c ∈ symbols.filter (fun c => f.entry c ≠ 0#32))
      have hlt : i < leafTotal f := by
        rw [leafTotal_eq]
        exact (List.getElem?_eq_some_iff.1 hi).1
      have hnode : (huffmanForest f).nodes[i]? = some (.leaf c (f.entry c)) := by
        rw [hfirst i hlt, leafNodes_getElem?, hi]
        rfl
      have hmem : i ∈ x.indices := hind.symm.subset (List.mem_range.2 (by omega))
      exact List.mem_map.2 ⟨_, hrep.mem_leaves hmem hnode, rfl⟩

theorem BuiltTree.height_le {f : Table Word} {x : HTree} (h : BuiltTree f x) : x.height ≤ 256 := by
  have h1 := x.height_le
  have h2 := leafTotal_le f
  rw [h.indices.length_eq, List.length_range] at h1
  omega

/-- R137: every code of a built tree has at most 255 characters. -/
theorem BuiltTree.code_length {f : Table Word} {x : HTree} (h : BuiltTree f x) {e : CodePair} (he : e ∈ x.codes []) :
    e.code.length ≤ 255 := by
  have h1 := x.codes_length [] he
  have h2 := h.height_le
  simp only [List.length_nil] at h1
  omega

end Sys2Proof.Machine
end

