-- ==== Sys2Proof/Laws/Cost.lean ====
section
/-! SUPPORT. The cost of a built tree: the number of characters its codes take for a text with the counts of the tree is
at most eight for each byte (R9, R133). The bound is kept over the turns of the loop: with the trees of the queue split
in any way into some that count at depth k and others at depth k − 1, so that they fit a binary tree, the tree that is
left costs no more than the trees in the queue at those depths. -/

namespace Sys2Proof.Machine

namespace HTree

/-- The sum of the counts of the leaves, as a number. -/
def total : HTree → Nat
  | .leaf _ _ f => f.toNat
  | .node _ l r => l.total + r.total

/-- The sum over the leaves of count times depth. -/
def cost : HTree → Nat
  | .leaf _ _ _ => 0
  | .node _ l r => l.cost + r.cost + (l.total + r.total)

/-- The leaves from left to right: count and code, as in `codes`. -/
def counted (c : Code) : HTree → List (CodePair × Nat)
  | .leaf _ s f => [(⟨s, c⟩, f.toNat)]
  | .node _ l r => l.counted (c ++ [false]) ++ r.counted (c ++ [true])

theorem counted_fst (t : HTree) (c : Code) : (t.counted c).map Prod.fst = t.codes c := by
  induction t generalizing c with
  | leaf i s f => rfl
  | node i l r ihl ihr => simp [counted, codes, ihl, ihr]

theorem counted_sum (t : HTree) (c : Code) :
    ((t.counted c).map (fun e => e.2 * e.1.code.length)).sum = t.cost + c.length * t.total := by
  induction t generalizing c with
  | leaf i s f => simp [counted, cost, total, Nat.mul_comm]
  | node i l r ihl ihr =>
    simp only [counted, cost, total, List.map_append, List.sum_append, ihl, ihr, List.length_append,
      List.length_singleton]
    ring

theorem weight_toNat (t : HTree) (h : t.total < 2 ^ 32) : t.weight.toNat = t.total := by
  induction t with
  | leaf i s f => rfl
  | node i l r ihl ihr =>
    simp only [total] at h
    rw [weight, BitVec.toNat_add, ihl (by omega), ihr (by omega), total, Nat.mod_eq_of_lt h]

end HTree

/-! ### The exchange -/

/-- A tree of least count can take the place of one of the deeper trees. -/
theorem exchange {x : HTree} {deep shallow all : List HTree} (hx : x ∈ all) (hp : all.Perm (deep ++ shallow))
    (hd : deep ≠ []) (hleast : ∀ z ∈ all, x.total ≤ z.total) :
    ∃ deep' shallow', all.Perm (x :: deep' ++ shallow') ∧ deep'.length + 1 = deep.length ∧
      shallow'.length = shallow.length ∧
      x.total + (deep'.map HTree.total).sum ≤ (deep.map HTree.total).sum := by
  by_cases hxd : x ∈ deep
  · have p := List.perm_cons_erase hxd
    refine ⟨deep.erase x, shallow, hp.trans (p.append_right _), ?_, rfl, ?_⟩
    · have := p.length_eq
      simp only [List.length_cons] at this
      omega
    · have := (p.map HTree.total).sum_eq
      simp only [List.map_cons, List.sum_cons] at this
      omega
  · have hxs : x ∈ shallow := (List.mem_append.1 (hp.subset hx)).resolve_left hxd
    obtain ⟨d, deep', rfl⟩ := List.exists_cons_of_ne_nil hd
    have p := List.perm_cons_erase hxs
    refine ⟨deep', d :: shallow.erase x, ?_, rfl, ?_, ?_⟩
    · have q : (d :: deep' ++ shallow).Perm (d :: deep' ++ x :: shallow.erase x) := p.append_left _
      refine hp.trans (q.trans ?_)
      refine (List.perm_middle (a := x) (l₁ := d :: deep')).trans ?_
      simp only [List.cons_append]
      exact (List.perm_middle (a := d) (l₁ := deep')).symm.cons x
    · have := p.length_eq
      simp only [List.length_cons] at this ⊢
      omega
    · have := hleast d (hp.symm.subset (by simp))
      simp only [List.map_cons, List.sum_cons]
      omega

/-- The cost of a forest whose deep trees stand at depth `k + 1` and whose shallow trees stand at depth `k`. -/
def depthCost (k : Nat) (deep shallow : List HTree) : Nat :=
  (deep.map HTree.cost).sum + (shallow.map HTree.cost).sum +
    ((k + 1) * (deep.map HTree.total).sum + k * (shallow.map HTree.total).sum)

theorem depthCost_perm {k : Nat} {all deep shallow : List HTree} (hp : all.Perm (deep ++ shallow)) :
    depthCost k deep shallow = (all.map HTree.cost).sum + (k * (all.map HTree.total).sum + (deep.map HTree.total).sum) := by
  rw [depthCost, (hp.map HTree.cost).sum_eq, (hp.map HTree.total).sum_eq]
  simp only [List.map_append, List.sum_append]
  ring

/-- With at least two deep trees, joining two trees of least count costs nothing. -/
theorem depthCost_join {k : Nat} {all deep shallow rest : List HTree} {x y : HTree} (i : Nat)
    (hxy : all.Perm (x :: y :: rest)) (hp : all.Perm (deep ++ shallow)) (h2 : 2 ≤ deep.length)
    (hx : ∀ z ∈ y :: rest, x.total ≤ z.total) (hy : ∀ z ∈ rest, y.total ≤ z.total) :
    ∃ deep' shallow', (HTree.node i x y :: rest).Perm (deep' ++ shallow') ∧
      deep'.length + 2 = deep.length ∧ shallow'.length = shallow.length + 1 ∧
      depthCost k deep' shallow' ≤ depthCost k deep shallow := by
  obtain ⟨d1, s1, p1, l1, m1, w1⟩ := exchange (x := x) (hxy.symm.subset List.mem_cons_self) hp
    (by rintro rfl; simp at h2) (fun z hz => by
      rcases List.mem_cons.1 (hxy.subset hz) with rfl | hz
      · exact Nat.le_refl _
      · exact hx z hz)
  have q1 : (y :: rest).Perm (d1 ++ s1) := (List.perm_cons x).1 (hxy.symm.trans p1)
  obtain ⟨d2, s2, p2, l2, m2, w2⟩ := exchange (x := y) List.mem_cons_self q1
    (by rintro rfl; simp at l1; omega) (fun z hz => by
      rcases List.mem_cons.1 hz with rfl | hz
      · exact Nat.le_refl _
      · exact hy z hz)
  have q2 : rest.Perm (d2 ++ s2) := (List.perm_cons y).1 p2
  have q3 : (HTree.node i x y :: rest).Perm (d2 ++ HTree.node i x y :: s2) :=
    (q2.cons _).trans List.perm_middle.symm
  refine ⟨d2, HTree.node i x y :: s2, q3, by omega, by simp only [List.length_cons]; omega, ?_⟩
  rw [depthCost_perm q3, depthCost_perm hp, (hxy.map HTree.cost).sum_eq, (hxy.map HTree.total).sum_eq]
  simp only [List.map_cons, List.sum_cons, HTree.cost, HTree.total]
  have : k * (x.total + y.total + (rest.map HTree.total).sum) =
      k * (x.total + (y.total + (rest.map HTree.total).sum)) := by rw [Nat.add_assoc]
  omega

/-! ### The loop -/

/-- With at least two trees that fit depths k + 1 and k, they also fit in a way that at least two are deep, at no more
cost. -/
theorem two_deep {k : Nat} {all deep shallow : List HTree} (hp : all.Perm (deep ++ shallow)) (h2 : 2 ≤ all.length)
    (hk : deep.length + 2 * shallow.length ≤ 2 ^ (k + 1)) :
    ∃ k' deep' shallow', all.Perm (deep' ++ shallow') ∧ 2 ≤ deep'.length ∧
      deep'.length + 2 * shallow'.length ≤ 2 ^ (k' + 1) ∧ depthCost k' deep' shallow' ≤ depthCost k deep shallow := by
  have hl := hp.length_eq
  rw [List.length_append] at hl
  by_cases h : 2 ≤ deep.length
  · exact ⟨k, deep, shallow, hp, h, hk, Nat.le_refl _⟩
  · rw [pow_succ] at hk
    obtain ⟨j, rfl⟩ : ∃ j, k = j + 1 := by
      cases k with
      | zero => simp at hk; omega
      | succ j => exact ⟨j, rfl⟩
    refine ⟨j, all, [], by simp, h2, by simp only [List.length_nil]; omega, ?_⟩
    rw [depthCost_perm (show all.Perm (all ++ []) by simp), depthCost_perm hp]
    have : (j + 1) * (all.map HTree.total).sum = j * (all.map HTree.total).sum + (all.map HTree.total).sum := by ring
    omega

/-- R9, R133: the tree the loop leaves costs no more than the trees it starts from at any depths that fit. -/
theorem ForestOf.combineAll_cost {base : List Node} {t : Forest} {trees : List HTree} (h : ForestOf base t trees)
    (hb : base.length ≤ 256) (turns : Nat) (ht : trees.length ≤ turns + 1)
    (hw : (trees.map HTree.total).sum < 2 ^ 32) {k : Nat} {deep shallow : List HTree}
    (hp : trees.Perm (deep ++ shallow)) (hk : deep.length + 2 * shallow.length ≤ 2 ^ (k + 1)) (h1 : 1 ≤ trees.length) :
    ∃ x, ForestOf base (t.combineAll turns) [x] ∧ x.total = (trees.map HTree.total).sum ∧
      x.cost ≤ depthCost k deep shallow := by
  induction turns generalizing t trees k deep shallow with
  | zero =>
    obtain ⟨x, rfl⟩ := List.length_eq_one_iff.1 (show trees.length = 1 by omega)
    refine ⟨x, h, by simp, ?_⟩
    rw [depthCost_perm hp]
    simp
  | succ turns ih =>
    by_cases h2 : 2 ≤ trees.length
    · obtain ⟨x, y, rest, p, hx, hy, h'⟩ := h.combine hb h2
      have hsum := (p.map HTree.total).sum_eq
      have small : ∀ z ∈ x :: y :: rest, z.weight.toNat = z.total := by
        intro z hz
        apply HTree.weight_toNat
        have := List.single_le_sum (l := (x :: y :: rest).map HTree.total) (by simp) _ (List.mem_map.2 ⟨z, hz, rfl⟩)
        omega
      obtain ⟨k', d1, s1, p1, l1, m1, c1⟩ := two_deep hp h2 hk
      obtain ⟨d2, s2, p2, l2, m2, c2⟩ := depthCost_join (k := k') t.nodes.length p p1 l1
        (fun z hz => by
          rw [← small x List.mem_cons_self, ← small z (List.mem_cons_of_mem _ hz)]
          exact hx z hz)
        (fun z hz => by
          rw [← small y (by simp), ← small z (by simp [hz])]
          exact hy z hz)
      have hl := p.length_eq
      simp only [List.length_cons] at hl
      have hs : ((HTree.node t.nodes.length x y :: rest).map HTree.total).sum = (trees.map HTree.total).sum := by
        rw [hsum]
        simp [HTree.total, Nat.add_assoc]
      obtain ⟨z, hz, hzt, hzc⟩ := ih h' (by simp only [List.length_cons]; omega) (by rw [hs]; exact hw) p2
        (show _ ≤ 2 ^ (k' + 1) by omega) (by simp)
      exact ⟨z, hz, hzt.trans hs, hzc.trans (c2.trans c1)⟩
    · rw [Forest.combineAll, h.combine_one (by omega)]
      exact ih h (by omega) hw hp hk h1

/-! ### The built tree -/

/-- The arena holds one tree at an index. -/
theorem HTree.Rep.unique {look : Nat → Option Node} {x y : HTree} (hx : x.Rep look) (hy : y.Rep look)
    (h : x.idx = y.idx) : x = y := by
  induction x generalizing y with
  | leaf i s f =>
    cases y with
    | leaf j s' f' =>
      obtain rfl : i = j := h
      have := (show look i = some (.leaf s f) from hx).symm.trans hy
      cases this
      rfl
    | node j l r =>
      obtain rfl : i = j := h
      obtain ⟨⟨a, b, h1, -⟩, -⟩ := hy
      have := (show look i = some (.leaf s f) from hx).symm.trans h1
      cases this
  | node i l r ihl ihr =>
    obtain ⟨⟨a, b, h1, ha, hb⟩, -, -, hl, hr⟩ := hx
    cases y with
    | leaf j s f =>
      obtain rfl : i = j := h
      have := h1.symm.trans (show look i = some (.leaf s f) from hy)
      cases this
    | node j l' r' =>
      obtain rfl : i = j := h
      obtain ⟨⟨a', b', h1', ha', hb'⟩, -, -, hl', hr'⟩ := hy
      have := h1.symm.trans h1'
      simp only [Option.some.injEq, Node.internal.injEq] at this
      obtain ⟨rfl, rfl, -⟩ := this
      rw [ihl hl hl' (by omega), ihr hr hr' (by omega)]

theorem leafTrees_total (ps : List (Byte × Word)) (k : Nat) :
    (leafTrees k ps).map HTree.total = ps.map (fun p => p.2.toNat) ∧ ((leafTrees k ps).map HTree.cost).sum = 0 := by
  induction ps generalizing k with
  | nil => simp [leafTrees]
  | cons p ps ih => simp [leafTrees, HTree.total, HTree.cost, ih]

theorem total_occurring (f : Table Word) :
    ((occurring f).map (fun p => p.2.toNat)).sum = (symbols.map (fun c => (f.entry c).toNat)).sum := by
  rw [occurring_eq, List.map_map]
  have : ∀ l : List Byte, ((l.filter (fun c => f.entry c ≠ 0#32)).map (fun c => (f.entry c).toNat)).sum =
      (l.map (fun c => (f.entry c).toNat)).sum := by
    intro l
    induction l with
    | nil => rfl
    | cons c l ih =>
      by_cases hc : f.entry c = 0#32
      · rw [List.filter_cons_of_neg (by simp [hc]), List.map_cons, List.sum_cons, ih, hc]
        simp
      · rw [List.filter_cons_of_pos (by simp [hc]), List.map_cons, List.map_cons, List.sum_cons, List.sum_cons, ih]
  exact this symbols

/-- R9, R133: a built tree costs at most eight characters for each byte counted, where the counts do not wrap (R134). -/
theorem BuiltTree.cost_le {f : Table Word} {x : HTree} (h : BuiltTree f x) (h0 : leafTotal f ≠ 0)
    (hw : (symbols.map (fun c => (f.entry c).toNat)).sum < 2 ^ 32) :
    x.cost ≤ 8 * (symbols.map (fun c => (f.entry c).toNat)).sum := by
  obtain ⟨ht, hc⟩ := leafTrees_total (occurring f) 0
  have hs : ((leafTrees 0 (occurring f)).map HTree.total).sum = (symbols.map (fun c => (f.entry c).toNat)).sum := by
    rw [ht, total_occurring]
  have hl : (leafTrees 0 (occurring f)).length = leafTotal f := by
    rw [(leafTrees_spec _ _).1, ← length_leafNodes, leafNodes_eq, List.length_map]
  have h256 := leafTotal_le f
  obtain ⟨y, hy, -, hyc⟩ := (leafForest_of f).combineAll_cost (by rw [length_leafNodes]; exact h256) (leafTotal f)
    (by omega) (by rw [hs]; exact hw) (k := 7) (deep := leafTrees 0 (occurring f)) (shallow := []) (by simp)
    (by simp only [List.length_nil]; omega) (by omega)
  have hq : (huffmanForest f).queue = [y.item] := List.perm_singleton.1 hy.queue
  rw [h.queue] at hq
  have hi : x.idx = y.idx := congrArg QueueItem.node (List.singleton_injective hq)
  rw [h.rep.unique (hy.rep y (List.mem_singleton.2 rfl)) hi]
  refine hyc.trans ?_
  rw [depthCost_perm (show (leafTrees 0 (occurring f)).Perm (leafTrees 0 (occurring f) ++ []) by simp), hc, hs]
  omega

/-! ### The length of the bit-string -/

theorem HTree.Rep.counted_node {look : Nat → Option Node} {x : HTree} (hx : x.Rep look) (c : Code) :
    ∀ e ∈ x.counted c, ∃ i ∈ x.indices, ∃ f, look i = some (.leaf e.1.symbol f) ∧ f.toNat = e.2 := by
  induction x generalizing c with
  | leaf i s f =>
    intro e he
    have he : e = (⟨s, c⟩, f.toNat) := by simpa [counted] using he
    subst he
    exact ⟨i, by simp [indices], f, hx, rfl⟩
  | node i l r ihl ihr =>
    obtain ⟨-, -, -, hl, hr⟩ := hx
    intro e he
    rcases List.mem_append.1 he with he | he
    · obtain ⟨j, hj, h⟩ := ihl hl _ e he
      exact ⟨j, by simp [indices, hj], h⟩
    · obtain ⟨j, hj, h⟩ := ihr hr _ e he
      exact ⟨j, by simp [indices, hj], h⟩

theorem sum_map_eq_counts (g : Byte → Nat) (text : List Byte) :
    (text.map g).sum = (symbols.map (fun c => text.count c * g c)).sum := by
  have one : ∀ (l : List Byte), l.Nodup → ∀ b ∈ l, (l.map (fun c => if b = c then g c else 0)).sum = g b := by
    intro l
    induction l with
    | nil => simp
    | cons a l ih =>
      intro hn b hb
      rw [List.nodup_cons] at hn
      by_cases hab : b = a
      · subst hab
        have : ∀ c ∈ l, (if b = c then g c else 0) = 0 := by
          intro c hc
          rw [if_neg]
          rintro rfl
          exact hn.1 hc
        rw [List.map_cons, List.sum_cons, List.map_congr_left this]
        simp
      · rw [List.map_cons, List.sum_cons, if_neg hab,
          ih hn.2 b ((List.mem_cons.1 hb).resolve_left hab), Nat.zero_add]
  induction text with
  | nil => simp
  | cons b text ih =>
    rw [List.map_cons, List.sum_cons, ih, ← one symbols symbols_nodup b (mem_symbols b), ← List.sum_map_add]
    congr 1
    apply List.map_congr_left
    intro c _
    rw [List.count_cons]
    by_cases hbc : b = c
    · simp [hbc]
      ring
    · simp [hbc]

/-- The bit-string of a text takes as many characters as the tree of its counts costs. -/
theorem BuiltTree.totalLen_eq {f : Table Word} {x : HTree} (h : BuiltTree f x) (text : List Byte)
    (hf : ∀ c, (f.entry c).toNat = text.count c) : totalLen (codeTable (x.codes [])) text = x.cost := by
  have hnd : ((x.codes []).map CodePair.symbol).Nodup := by
    rw [HTree.codes_symbols]
    exact h.symbols_nodup
  set len : Byte → Nat := fun c => ((codeTable (x.codes [])).entry c).len.toNat with hlen
  have hcost : x.cost = ((x.counted []).map (fun e => (f.entry e.1.symbol).toNat * len e.1.symbol)).sum := by
    have h1 := x.counted_sum []
    simp only [List.length_nil, Nat.zero_mul, Nat.add_zero] at h1
    rw [← h1]
    congr 1
    apply List.map_congr_left
    intro e he
    have hmem : e.1 ∈ x.codes [] := by
      rw [← x.counted_fst []]
      exact List.mem_map.2 ⟨e, he, rfl⟩
    obtain ⟨i, hi, g, hg, hge⟩ := h.rep.counted_node [] e he
    have hi' := List.mem_range.1 (h.indices.subset hi)
    have hlt : i < leafTotal f := by
      by_contra hge'
      obtain ⟨l, r, g', hg'⟩ := h.later i (by omega) hi'
      have := hg.symm.trans hg'
      cases this
    have h2 := (h.first i hlt).symm.trans hg
    rw [leafNodes_getElem?] at h2
    obtain ⟨d, -, hd⟩ := Option.map_eq_some_iff.1 h2
    simp only [Node.leaf.injEq] at hd
    obtain ⟨rfl, rfl⟩ := hd
    rw [hge, hlen]
    simp only
    rw [entry_codeTable_of_mem _ hnd hmem, CtEntry.len_ofCode _ (h.code_length hmem)]
  have hsyms : (x.counted []).map (fun e => (f.entry e.1.symbol).toNat * len e.1.symbol) =
      ((x.codes []).map CodePair.symbol).map (fun c => (f.entry c).toNat * len c) := by
    rw [← x.counted_fst [], List.map_map, List.map_map]
    rfl
  have hperm : (symbols.filter (fun c => f.entry c ≠ 0#32)).Perm ((x.codes []).map CodePair.symbol) := by
    rw [List.perm_ext_iff_of_nodup (Sys2Proof.Machine.symbols_nodup.filter _) hnd]
    intro c
    rw [List.mem_filter, HTree.codes_symbols, h.mem_symbols]
    simp [Sys2Proof.Machine.mem_symbols]
  have hfilter : ∀ l : List Byte, ((l.filter (fun c => f.entry c ≠ 0#32)).map
      (fun c => (f.entry c).toNat * len c)).sum = (l.map (fun c => (f.entry c).toNat * len c)).sum := by
    intro l
    induction l with
    | nil => rfl
    | cons c l ih =>
      by_cases hc : f.entry c = 0#32
      · rw [List.filter_cons_of_neg (by simp [hc]), List.map_cons, List.sum_cons, ih, hc]
        simp
      · rw [List.filter_cons_of_pos (by simp [hc]), List.map_cons, List.map_cons, List.sum_cons, List.sum_cons, ih]
  rw [hcost, hsyms, ← (hperm.map _).sum_eq, hfilter, totalLen, sum_map_eq_counts]
  congr 1
  apply List.map_congr_left
  intro c _
  rw [hf c]

/-- R9, R133: the bit-string of a text takes at most eight characters for each byte. -/
theorem BuiltTree.totalLen_le {f : Table Word} {x : HTree} (h : BuiltTree f x) (h0 : leafTotal f ≠ 0)
    (text : List Byte) (hf : ∀ c, (f.entry c).toNat = text.count c) (hlen : text.length < 2 ^ 32) :
    totalLen (codeTable (x.codes [])) text ≤ 8 * text.length := by
  have hs : (symbols.map (fun c => (f.entry c).toNat)).sum = text.length := by
    have := sum_map_eq_counts (fun _ => 1) text
    simp only [Nat.mul_one, List.map_const', List.sum_replicate, smul_eq_mul] at this
    rw [this]
    congr 1
    exact List.map_congr_left fun c _ => hf c
  rw [h.totalLen_eq text hf, ← hs]
  exact h.cost_le h0 (by rw [hs]; exact hlen)

end Sys2Proof.Machine
end

