-- ==== Sys2Proof/Laws/Paths.lean ====
section
/-! SUPPORT. The laws of paths in the arena: every node of a tree is at the end of exactly one path from its root, the walk
of R128 lists the leaves at the ends of paths, and a tree has no more distinct code prefixes than nodes (R151). -/

namespace Sys2Proof.Machine

theorem State.follow_cons (s : State) (i : Nat) (b : Bool) (p : Code) :
    s.follow i (b :: p) = match s.nodeAt i with
      | .leaf _ _ => none
      | .internal l r _ => s.follow (if b then r.toNat else l.toNat) p := rfl

namespace HTree

/-! ### Paths in a tree the arena holds -/

theorem Rep.exists_path {s : State} {x : HTree} (hx : x.Rep (fun i => some (s.nodeAt i))) :
    ∀ j ∈ x.indices, ∃ p, s.follow x.idx p = some j := by
  induction x with
  | leaf i c f =>
    intro j hj
    have hj : j = i := by simpa [indices] using hj
    exact ⟨[], by simp [State.follow, idx, hj]⟩
  | node i l r ihl ihr =>
    obtain ⟨⟨a, b, h1, ha, hb⟩, -, -, htl, htr⟩ := hx
    have h1 : s.nodeAt i = .internal a b (l.weight + r.weight) := by simpa using h1
    intro j hj
    simp only [indices, List.mem_cons, List.mem_append] at hj
    rcases hj with rfl | hj | hj
    · exact ⟨[], rfl⟩
    · obtain ⟨p, hp⟩ := ihl htl j hj
      exact ⟨false :: p, by simpa [show (HTree.node i l r).idx = i from rfl, State.follow_cons, h1, ha] using hp⟩
    · obtain ⟨p, hp⟩ := ihr htr j hj
      exact ⟨true :: p, by simpa [show (HTree.node i l r).idx = i from rfl, State.follow_cons, h1, hb] using hp⟩

/-- From the root of an internal node a path goes on in one of the two subtrees. -/
theorem Rep.follow_node {s : State} {i : Nat} {l r : HTree} (hx : (HTree.node i l r).Rep (fun i => some (s.nodeAt i)))
    (c : Bool) (p : Code) : s.follow i (c :: p) = s.follow (if c then r.idx else l.idx) p := by
  obtain ⟨⟨a, b, h1, ha, hb⟩, -, -, -, -⟩ := hx
  have h1 : s.nodeAt i = .internal a b (l.weight + r.weight) := by simpa using h1
  cases c <;> simp [State.follow_cons, h1, ha, hb]

theorem Rep.path_mem {s : State} {x : HTree} (hx : x.Rep (fun i => some (s.nodeAt i))) (p : Code) (j : Nat)
    (hj : s.follow x.idx p = some j) : j ∈ x.indices := by
  induction x generalizing p with
  | leaf i c f =>
    have hx : s.nodeAt i = .leaf c f := by simpa [Rep] using hx
    cases p with
    | nil => simpa [State.follow, idx, indices] using hj.symm
    | cons b p => simp [State.follow_cons, idx, hx] at hj
  | node i l r ihl ihr =>
    have hf := hx.follow_node
    obtain ⟨-, -, -, htl, htr⟩ := hx
    cases p with
    | nil =>
      have : i = j := by simpa [State.follow, idx] using hj
      simp [indices, this]
    | cons c p =>
      rw [show (HTree.node i l r).idx = i from rfl, hf] at hj
      cases c
      · simp [indices, ihl htl p hj]
      · simp [indices, ihr htr p hj]

theorem Rep.path_unique {s : State} {x : HTree} (hx : x.Rep (fun i => some (s.nodeAt i))) (hn : x.indices.Nodup)
    (p q : Code) (j : Nat) (hp : s.follow x.idx p = some j) (hq : s.follow x.idx q = some j) : p = q := by
  induction x generalizing p q with
  | leaf i c f =>
    have hx : s.nodeAt i = .leaf c f := by simpa [Rep] using hx
    cases p with
    | cons b p => simp [State.follow_cons, idx, hx] at hp
    | nil =>
      cases q with
      | nil => rfl
      | cons b q => simp [State.follow_cons, idx, hx] at hq
  | node i l r ihl ihr =>
    have hf := hx.follow_node
    obtain ⟨-, -, -, htl, htr⟩ := hx
    simp only [indices, List.nodup_cons, List.nodup_append, List.mem_append, not_or] at hn
    obtain ⟨⟨n1, n2⟩, n3, n4, n5⟩ := hn
    rw [show (HTree.node i l r).idx = i from rfl] at hp hq
    have below : ∀ c p, s.follow i (c :: p) = some j → (c = false ∧ s.follow l.idx p = some j ∧ j ∈ l.indices) ∨
        (c = true ∧ s.follow r.idx p = some j ∧ j ∈ r.indices) := by
      intro c p h
      rw [hf] at h
      cases c
      · exact .inl ⟨rfl, h, htl.path_mem p j h⟩
      · exact .inr ⟨rfl, h, htr.path_mem p j h⟩
    have notRoot : ∀ c p, s.follow i (c :: p) = some j → i ≠ j := by
      rintro c p h rfl
      rcases below c p h with ⟨-, -, h⟩ | ⟨-, -, h⟩
      · exact n1 h
      · exact n2 h
    cases p with
    | nil =>
      cases q with
      | nil => rfl
      | cons c q => exact absurd (by simpa [State.follow] using hp) (notRoot c q hq)
    | cons b p =>
      cases q with
      | nil => exact absurd (by simpa [State.follow] using hq) (notRoot b p hp)
      | cons c q =>
        rcases below b p hp with ⟨rfl, h1, m1⟩ | ⟨rfl, h1, m1⟩ <;>
          rcases below c q hq with ⟨rfl, h2, m2⟩ | ⟨rfl, h2, m2⟩
        · rw [ihl htl n3 p q h1 h2]
        · exact absurd rfl (n5 j m1 j m2)
        · exact absurd rfl (n5 j m2 j m1)
        · rw [ihr htr n4 p q h1 h2]

theorem Rep.internal_below {look : Nat → Option Node} {x : HTree} (hx : x.Rep look) :
    ∀ i ∈ x.indices, ∀ a b f, look i = some (.internal a b f) → a.toNat < i ∧ b.toNat < i := by
  induction x with
  | leaf j c g =>
    intro i hi a b f h
    rw [show i = j by simpa [indices] using hi, show look j = some (.leaf c g) from hx] at h
    cases h
  | node j l r ihl ihr =>
    obtain ⟨⟨a', b', h1, ha, hb⟩, hl, hr, htl, htr⟩ := hx
    intro i hi a b f h
    simp only [indices, List.mem_cons, List.mem_append] at hi
    rcases hi with rfl | hi | hi
    · rw [h1] at h
      cases h
      omega
    · exact ihl htl i hi a b f h
    · exact ihr htr i hi a b f h

/-- R124: the frequency of an internal node is the sum of its children's. -/
theorem Rep.internal_freq {look : Nat → Option Node} {x : HTree} (hx : x.Rep look) :
    ∀ i ∈ x.indices, ∀ a b f, look i = some (.internal a b f) →
      ∃ m n, look a.toNat = some m ∧ look b.toNat = some n ∧ f = m.freq + n.freq := by
  induction x with
  | leaf j c g =>
    intro i hi a b f h
    rw [show i = j by simpa [indices] using hi, show look j = some (.leaf c g) from hx] at h
    cases h
  | node j l r ihl ihr =>
    obtain ⟨⟨a', b', h1, ha, hb⟩, -, -, htl, htr⟩ := hx
    intro i hi a b f h
    simp only [indices, List.mem_cons, List.mem_append] at hi
    rcases hi with rfl | hi | hi
    · rw [h1] at h
      cases h
      obtain ⟨m, hm, hmf⟩ := htl.node_freq
      obtain ⟨n, hn, hnf⟩ := htr.node_freq
      exact ⟨m, n, by rw [ha, hm], by rw [hb, hn], by rw [hmf, hnf]⟩
    · exact ihl htl i hi a b f h
    · exact ihr htr i hi a b f h

/-! ### Prefixes (R151) -/

/-- The paths from the root to the nodes of a tree, each beginning with `c`. -/
def paths (c : Code) : HTree → List Code
  | .leaf _ _ _ => [c]
  | .node _ l r => c :: (l.paths (c ++ [false]) ++ r.paths (c ++ [true]))

theorem length_paths (x : HTree) (c : Code) : (x.paths c).length = x.indices.length := by
  induction x generalizing c with
  | leaf i s f => rfl
  | node i l r ihl ihr => simp [paths, indices, ihl, ihr]

theorem prefix_mem_paths (x : HTree) (c p : Code) {e : CodePair} (he : e ∈ x.codes c) (hp : p <+: e.code)
    (hc : c <+: p) : p ∈ x.paths c := by
  induction x generalizing c with
  | leaf i s f =>
    have he : e = ⟨s, c⟩ := by simpa [codes] using he
    subst he
    simp [paths, hp.eq_of_length_le hc.length_le]
  | node i l r ihl ihr =>
    by_cases h : p = c
    · simp [paths, h]
    · have hlt : c.length < p.length := by
        by_contra hge
        exact h (hc.eq_of_length_le (by omega)).symm
      simp only [codes, List.mem_append] at he
      rcases he with he | he
      · have := ihl _ he (List.prefix_of_prefix_length_le (codes_prefix _ _ he) hp (by simp; omega))
        simp [paths, this]
      · have := ihr _ he (List.prefix_of_prefix_length_le (codes_prefix _ _ he) hp (by simp; omega))
        simp [paths, this]

theorem trieNodes_le (x : HTree) (d : List CodePair) (h : ∀ e ∈ d, e ∈ x.codes []) :
    trieNodes d ≤ x.indices.length := by
  rw [trieNodes_eq, ← length_paths x []]
  have hsub : { p : Code | p = [] ∨ ∃ e ∈ d, p <+: e.code } ⊆ ((x.paths []).toFinset : Set Code) := by
    rintro p (rfl | ⟨e, he, hp⟩)
    · cases x <;> simp [paths]
    · simpa using prefix_mem_paths x [] p (h e he) hp List.nil_prefix
  refine (Set.ncard_le_ncard hsub (Finset.finite_toSet _)).trans ?_
  rw [Set.ncard_coe_finset]
  exact List.toFinset_card_le _

end HTree

/-! ### The walk (R128) -/

/-- A walk that ends lists exactly the leaves at the ends of paths, each with its path. -/
theorem mem_treeWalk (s : State) (depth i : Nat) (c : Code) (leaves : List CodePair)
    (h : treeWalk s.nodeAt depth i c = .ok leaves) (e : CodePair) :
    e ∈ leaves ↔ ∃ p j f, e.code = c ++ p ∧ s.follow i p = some j ∧ s.nodeAt j = .leaf e.symbol f := by
  induction depth generalizing i c leaves with
  | zero => simp [treeWalk] at h
  | succ d ih =>
    rw [treeWalk] at h
    split at h
    · split at h
      · rename_i sy f hn
        cases h
        constructor
        · intro he
          have he : e = ⟨sy, c⟩ := by simpa using he
          subst he
          exact ⟨[], i, f, by simp, rfl, hn⟩
        · rintro ⟨p, j, g, h1, h2, h3⟩
          cases p with
          | nil =>
            have hij : i = j := by simpa [State.follow] using h2
            subst hij
            rw [hn] at h3
            cases h3
            cases e
            simpa using h1
          | cons b p => simp [State.follow_cons, hn] at h2
      · rename_i l r f hn
        split at h
        · rename_i a b ha hb
          cases h
          rw [List.mem_append, ih _ _ _ ha, ih _ _ _ hb]
          constructor
          · rintro (⟨p, j, g, h1, h2, h3⟩ | ⟨p, j, g, h1, h2, h3⟩)
            · exact ⟨false :: p, j, g, by simp [h1], by simp [State.follow_cons, hn, h2], h3⟩
            · exact ⟨true :: p, j, g, by simp [h1], by simp [State.follow_cons, hn, h2], h3⟩
          · rintro ⟨p, j, g, h1, h2, h3⟩
            cases p with
            | nil =>
              have hij : i = j := by simpa [State.follow] using h2
              rw [← hij, hn] at h3
              cases h3
            | cons b p =>
              simp only [State.follow_cons, hn] at h2
              cases b
              · exact .inl ⟨p, j, g, by simp [h1], by simpa using h2, h3⟩
              · exact .inr ⟨p, j, g, by simp [h1], by simpa using h2, h3⟩
        · cases h
        · cases h
    · cases h

theorem treeWalk_code_length (node : Nat → Node) (depth i : Nat) (c : Code) (leaves : List CodePair)
    (h : treeWalk node depth i c = .ok leaves) : ∀ e ∈ leaves, e.code.length < c.length + depth := by
  induction depth generalizing i c leaves with
  | zero => simp [treeWalk] at h
  | succ d ih =>
    intro e he
    rw [treeWalk] at h
    split at h
    · split at h
      · cases h
        rw [List.mem_singleton.1 he]
        simp
      · split at h
        · rename_i a b ha hb
          cases h
          rcases List.mem_append.1 he with he | he
          · have := ih _ _ _ ha e he
            simp only [List.length_append, List.length_singleton] at this
            omega
          · have := ih _ _ _ hb e he
            simp only [List.length_append, List.length_singleton] at this
            omega
        · cases h
        · cases h
    · cases h

end Sys2Proof.Machine
end

