-- ==== Sys2Proof/Laws/PerInstr.lean ====
section
/-! SUPPORT. What holds of every command as syntax, one lemma for each constructor. Family `ZeroField`: bits 31:8 of a
command's word are 0 (R90) and bits 7:0 are its opcode (R92). -/

namespace Sys2Proof.Laws.ZeroField

def Statement (i : Instr) : Prop := zeroField (encodeWord i) = 0#24 ∧ opcodeField (encodeWord i) = i.opcode

theorem nop : Statement .nop := ⟨by decide, by decide⟩
theorem clear : Statement .clear := ⟨by decide, by decide⟩
theorem countFreq : Statement .countFreq := ⟨by decide, by decide⟩
theorem buildTree : Statement .buildTree := ⟨by decide, by decide⟩
theorem genCodes : Statement .genCodes := ⟨by decide, by decide⟩
theorem serialize : Statement .serialize := ⟨by decide, by decide⟩
theorem encode : Statement .encode := ⟨by decide, by decide⟩
theorem buildDecodeTree : Statement .buildDecodeTree := ⟨by decide, by decide⟩
theorem deserialize : Statement .deserialize := ⟨by decide, by decide⟩
theorem decode : Statement .decode := ⟨by decide, by decide⟩

end Sys2Proof.Laws.ZeroField
end

