-- ==== Sys2Proof/Laws/Requests.lean ====
section
/-! SUPPORT. The script line `wrcode` (R102), what a host's list of writes does to an idle block, step by step (R76,
R202), and so what loading a value leaves (R204, R205). -/

namespace Sys2Proof.Machine

/-! ### A run of writes -/

/-- The block goes from one state to another in `k` steps. -/
def Runs (k : Nat) (s t : State) : Prop := Sys2Proof.core.run k s = .next t

theorem Runs.zero (s : State) : Runs 0 s s := rfl

/-- The first step of a run of `k + 1` steps. -/
theorem Runs.succ_iff {k : Nat} {s u : State} : Runs (k + 1) s u ↔ ∃ t, step s = .next t ∧ Runs k t u := by
  cases h : step s with
  | next t =>
    have h : Sys2Proof.core.step s = .next t := h
    simp only [Runs, Host.Core.run, h]
    exact ⟨fun h2 => ⟨t, rfl, h2⟩, fun ⟨_, h2, h3⟩ => by cases h2; exact h3⟩
  | fault r =>
    have h : Sys2Proof.core.step s = .fault r := h
    simp [Runs, Host.Core.run, h]
  | refused r =>
    have h : Sys2Proof.core.step s = .refused r := h
    simp [Runs, Host.Core.run, h]

theorem Runs.one {s t : State} (h : step s = .next t) : Runs 1 s t := Runs.succ_iff.2 ⟨t, h, .zero t⟩

theorem Runs.append {j k : Nat} {s t u : State} (h : Runs j s t) (h2 : Runs k t u) : Runs (j + k) s u := by
  induction j generalizing s with
  | zero =>
    cases h
    rw [Nat.zero_add]
    exact h2
  | succ j ih =>
    obtain ⟨v, hv, h⟩ := Runs.succ_iff.1 h
    rw [Nat.succ_add]
    exact Runs.succ_iff.2 ⟨v, hv, ih h⟩

/-- The same block under a host in another state. -/
def State.withMaster (s : State) (m : Master) : State := { s with master := m }

@[simp] theorem State.withMaster_self (s : State) : s.withMaster s.master = s := rfl
@[simp] theorem State.withMaster_status (s : State) (m : Master) : (s.withMaster m).status = s.status := rfl
@[simp] theorem State.withMaster_hasReset (s : State) (m : Master) : (s.withMaster m).hasReset = s.hasReset := rfl
@[simp] theorem State.withMaster_master (s : State) (m : Master) : (s.withMaster m).master = m := rfl

/-- A write the host makes to an idle block is one step. -/
theorem step_write {s t : State} (hr : s.hasReset = true) (hb : s.status.busy = false) {off : Offset} {v : Word}
    {rest : List HostOp} {older : List Reply} {failed : Bool}
    (hw : (s.withMaster ⟨.write 4 off v :: rest, older, failed⟩).busWrite 4 off v =
      ⟨.okay, t.withMaster ⟨.write 4 off v :: rest, older, failed⟩⟩) :
    step (s.withMaster ⟨.write 4 off v :: rest, older, failed⟩) =
      .next (t.withMaster ⟨rest, .write .okay :: older, failed⟩) := by
  have hd : (s.withMaster ⟨.write 4 off v :: rest, older, failed⟩).completionDue = false := by
    simp [State.completionDue, hb]
  simp only [step, hd, State.withMaster_hasReset, hr, State.withMaster_status, hb, State.hostTurn,
    State.withMaster_master, State.perform, hw]
  rfl

/-- A list of writes to a block that stays idle is as many steps, through the states the writes leave. -/
theorem run_writes (off : Nat → Offset) (v : Nat → Word) (u : Nat → State)
    (hr : ∀ k, (u k).hasReset = true) (hb : ∀ k, (u k).status.busy = false) {n : Nat}
    (hw : ∀ k, k < n → ∀ m, ((u k).withMaster m).busWrite 4 (off k) (v k) = ⟨.okay, (u (k + 1)).withMaster m⟩)
    (rest : List HostOp) (older : List Reply) (failed : Bool) :
    Runs n ((u 0).withMaster ⟨(List.range n).map (fun k => .write 4 (off k) (v k)) ++ rest, older, failed⟩)
      ((u n).withMaster ⟨rest, List.replicate n (.write .okay) ++ older, failed⟩) := by
  induction n generalizing rest with
  | zero => exact Runs.zero _
  | succ n ih =>
    rw [List.range_succ, List.map_append, List.append_assoc]
    exact (ih (fun k hk => hw k (by omega)) _).append (.one (step_write (hr n) (hb n) (hw n (by omega) _)))

/-- The words of a value and then its length: the writes of `loadText` and `loadBits`. -/
theorem run_load {base n lenOff : Nat} {bs : List Byte} (u : Nat → State) {t : State}
    (hr : ∀ k, (u k).hasReset = true) (hb : ∀ k, (u k).status.busy = false)
    (hw : ∀ k, k < n → ∀ m, ((u k).withMaster m).busWrite 4 (BitVec.ofNat 20 (base + 4 * k)) (wordOfList bs k) =
      ⟨.okay, (u (k + 1)).withMaster m⟩)
    (hl : ∀ m, ((u n).withMaster m).busWrite 4 (BitVec.ofNat 20 lenOff) (lengthWord bs) = ⟨.okay, t.withMaster m⟩)
    {rest : List HostOp} (hs : (u 0).master.script = wrWords base n bs ++ [wr lenOff (lengthWord bs)] ++ rest) :
    ∃ replies, Runs (n + 1) (u 0) (t.withMaster ⟨rest, replies, (u 0).master.failed⟩) := by
  have hwords := run_writes _ _ u hr hb hw (.write 4 (BitVec.ofNat 20 lenOff) (lengthWord bs) :: rest)
    (u 0).master.replies (u 0).master.failed
  have hstart : (u 0).master = ⟨(List.range n).map (fun k => .write 4 (BitVec.ofNat 20 (base + 4 * k)) (wordOfList bs k))
      ++ .write 4 (BitVec.ofNat 20 lenOff) (lengthWord bs) :: rest, (u 0).master.replies, (u 0).master.failed⟩ := by
    conv_lhs => rw [show (u 0).master = ⟨(u 0).master.script, _, _⟩ from rfl, hs]
    simp [wrWords, wr]
  rw [← hstart, State.withMaster_self] at hwords
  exact ⟨_, hwords.append (.one (step_write (hr n) (hb n) (hl _)))⟩

/-! ### Script lines (R102) -/

/-- A code that LEN can hold stands in the entry `wrcode` writes as GEN_CODES records it (R128). -/
theorem wrCode_eq_wrEntry (c : Byte) {code : Code} (h : code.length ≤ 255) :
    wrCode c code = wrEntry c (CtEntry.ofCode code) := by
  have hw : ∀ n, n < 256 → BitVec.ofNat 32 (0x80000000 + n) = bitAt true 31 ||| (BitVec.ofNat 8 n).setWidth 32 := by
    decide +kernel
  simp only [wrCode, wrEntry, codeControlWord, hw _ (Nat.lt_succ_of_le h)]
  rfl

/-! ### Loading a value (R202) -/

/-- The length a host writes is the length of the value, where a register holds it (log 19). -/
theorem toNat_lengthWord {bs : List Byte} (h : bs.length < 2 ^ 32) : (lengthWord bs).toNat = bs.length := by
  simp only [lengthWord, BitVec.toNat_ofNat]
  omega

/-- The length a host writes for a value above a capacity is above it too, so the command ends with LENGTH (D45). -/
theorem lt_toNat_lengthWord {bs : List Byte} {cap : Nat} (hc : cap < 0xFFFFFFFF) (h : cap < bs.length) :
    cap < (lengthWord bs).toNat := by
  simp only [lengthWord, BitVec.toNat_ofNat]
  omega

/-- Byte j of word k of a byte sequence; past its end 0 (R102). -/
theorem extractLsb'_wordOfList (bs : List Byte) {i k : Nat} (h1 : 4 * k ≤ i) (h2 : i < 4 * k + 4) :
    (wordOfList bs k).extractLsb' (8 * (i - 4 * k)) 8 = bs.getD i 0#8 := by
  obtain ⟨w0, w1, w2, w3⟩ := extractLsb'_wordOfBytes (bs.getD (4 * k) 0#8) (bs.getD (4 * k + 1) 0#8)
    (bs.getD (4 * k + 2) 0#8) (bs.getD (4 * k + 3) 0#8)
  have hi : i = 4 * k ∨ i = 4 * k + 1 ∨ i = 4 * k + 2 ∨ i = 4 * k + 3 := by omega
  rcases hi with rfl | rfl | rfl | rfl
  · simpa [wordOfList] using w0
  · simpa [wordOfList] using w1
  · simpa [wordOfList] using w2
  · simpa [wordOfList] using w3

/-- A byte memory after the first n words of a byte sequence are stored. -/
def storeWords (cap : Nat) (m : Memory) (bs : List Byte) : Nat → Memory
  | 0 => m
  | n + 1 => storeWord cap (storeWords cap m bs n) n (wordOfList bs n)

/-- Everything storing n words of a byte sequence does: its bytes, and 0 past its end, below 4n and the capacity. -/
theorem get?_storeWords (cap : Nat) (m : Memory) (bs : List Byte) (n i : Nat) :
    Sparse.get? (storeWords cap m bs n) i =
      if i < 4 * n ∧ i < cap then some (bs.getD i 0#8) else Sparse.get? m i := by
  induction n with
  | zero => simp [storeWords]
  | succ n ih =>
    rw [storeWords, get?_storeWord, ih]
    by_cases h : 4 * n ≤ i ∧ i < 4 * n + 4 ∧ i < cap
    · rw [if_pos h, if_pos (by omega), extractLsb'_wordOfList bs h.1 h.2.1]
    · rw [if_neg h]
      by_cases h2 : i < 4 * n ∧ i < cap
      · rw [if_pos h2, if_pos (by omega)]
      · rw [if_neg h2, if_neg (by omega)]

/-- R202: loading a text is as many steps as it has writes. It leaves the words of the value that the window has, and the
length. -/
theorem run_loadText {s : State} (hr : s.hasReset = true) (hb : s.status.busy = false) {bs : List Byte}
    {rest : List HostOp} (hs : s.master.script = loadText bs ++ rest) :
    ∃ replies, Runs (loadText bs).length s (State.withMaster
      { s with
        text := storeWords s.params.textCap s.text bs (min (wordCount bs) 0x4000), textLen := lengthWord bs }
      ⟨rest, replies, s.master.failed⟩) := by
  rw [show (loadText bs).length = min (wordCount bs) 0x4000 + 1 by simp [loadText, wrWords]]
  refine run_load (fun k => { s with text := storeWords s.params.textCap s.text bs k }) (fun _ => hr) (fun _ => hb)
    (fun k hk m => ?_) (fun m => ?_) hs
  · have hoff := toNat_offset (show 0x10000 + 4 * k < 2 ^ 20 by omega)
    simp only [State.busWrite, accessAccepted_word (off := BitVec.ofNat 20 (0x10000 + 4 * k)) (by omega), hoff,
      regionAt_text (show k < 0x4000 by omega), State.withMaster_status, hb]
    rfl
  · simp only [State.busWrite, State.withMaster_status, hb]
    rfl

/-- R202: loading a bit-string, in the same way. -/
theorem run_loadBits {s : State} (hr : s.hasReset = true) (hb : s.status.busy = false) {bs : List Byte}
    {rest : List HostOp} (hs : s.master.script = loadBits bs ++ rest) :
    ∃ replies, Runs (loadBits bs).length s (State.withMaster
      { s with
        bits := storeWords s.params.bitsCap s.bits bs (min (wordCount bs) 0x20000), bitsLen := lengthWord bs }
      ⟨rest, replies, s.master.failed⟩) := by
  rw [show (loadBits bs).length = min (wordCount bs) 0x20000 + 1 by simp [loadBits, wrWords]]
  refine run_load (fun k => { s with bits := storeWords s.params.bitsCap s.bits bs k }) (fun _ => hr) (fun _ => hb)
    (fun k hk m => ?_) (fun m => ?_) hs
  · have hoff := toNat_offset (show 0x80000 + 4 * k < 2 ^ 20 by omega)
    simp only [State.busWrite, accessAccepted_word (off := BitVec.ofNat 20 (0x80000 + 4 * k)) (by omega), hoff,
      regionAt_bits (show k < 0x20000 by omega), State.withMaster_status, hb]
    rfl
  · simp only [State.busWrite, State.withMaster_status, hb]
    rfl

end Sys2Proof.Machine
end

