-- ==== Sys2Proof/Laws/Scan.lean ====
section
/-! SUPPORT. The laws of the decoder's scan (R155): what one character does, what holds after any number of characters,
and that a prefix-free set leaves only one way to parse. -/

namespace Sys2Proof.Machine

/-! ### Characters -/

theorem BitChar.ofBit_injective : Function.Injective BitChar.ofBit := by
  intro a b h
  cases a <;> cases b <;> simp_all [BitChar.ofBit]

theorem BitChar.ofBit_ne_other (b : Bool) : BitChar.ofBit b ≠ .other := by cases b <;> simp [BitChar.ofBit]

/-- R96, R154: the byte of a code bit is read as its character. -/
@[simp] theorem BitChar.ofByte_byteOfBit (b : Bool) : BitChar.ofByte (byteOfBit b) = BitChar.ofBit b := by
  cases b <;> decide

/-- R154: the one byte read as '0'. -/
theorem BitChar.ofByte_eq_zero {b : Byte} : BitChar.ofByte b = .zero ↔ b = 0x30#8 := by
  unfold BitChar.ofByte
  split_ifs <;> simp_all

/-- R154: the one byte read as '1'. -/
theorem BitChar.ofByte_eq_one {b : Byte} : BitChar.ofByte b = .one ↔ b = 0x31#8 := by
  unfold BitChar.ofByte
  split_ifs <;> simp_all

/-- R154: every other byte is a character that is neither. -/
theorem BitChar.ofByte_eq_other {b : Byte} : BitChar.ofByte b = .other ↔ b ≠ 0x30#8 ∧ b ≠ 0x31#8 := by
  unfold BitChar.ofByte
  split_ifs <;> simp_all

@[simp] theorem State.length_charInput (s : State) : s.charInput.length = s.bitsLen.toNat := by
  simp [State.charInput]

theorem map_ofBit_prefix {a b : Code} : a.map BitChar.ofBit <+: b.map BitChar.ofBit ↔ a <+: b := by
  constructor
  · rintro ⟨r, hr⟩
    obtain ⟨x, y, hxy, hx, -⟩ := List.append_eq_map_iff.1 hr
    exact ⟨y, by rw [hxy, (List.map_injective_iff.2 BitChar.ofBit_injective) hx]⟩
  · rintro ⟨r, rfl⟩
    exact ⟨r.map BitChar.ofBit, by simp⟩

/-! ### One character -/

theorem matchCode_eq_some {trie : List CodePair} {buf : List BitChar} {e : CodePair}
    (h : matchCode trie buf = some e) : e ∈ trie ∧ e.code.map BitChar.ofBit = buf := by
  have h1 := List.find?_some h
  exact ⟨List.mem_of_find?_eq_some h, by simpa using h1⟩

theorem matchCode_eq_none {trie : List CodePair} {buf : List BitChar} :
    matchCode trie buf = none ↔ ∀ e ∈ trie, e.code.map BitChar.ofBit ≠ buf := by
  simp [matchCode]

theorem trieMinLen_le {trie : List CodePair} {e : CodePair} (h : e ∈ trie) : trieMinLen trie ≤ e.code.length :=
  List.min?_getD_le_of_mem (List.mem_map.2 ⟨e, h, rfl⟩)

/-- R155: everything one character can do: complete a code of TRIE, or join the buffer because no code of TRIE is the
buffer. -/
theorem Scan.read_cases (trie : List CodePair) (st : Scan) (c : BitChar) :
    (∃ e ∈ trie, e.code.map BitChar.ofBit = st.buf ++ [c] ∧
      st.read trie (trieMinLen trie) c = ⟨st.out ++ [e.symbol], [], st.pos + 1, st.pos + 1⟩) ∨
    ((∀ e ∈ trie, e.code.map BitChar.ofBit ≠ st.buf ++ [c]) ∧
      st.read trie (trieMinLen trie) c = ⟨st.out, st.buf ++ [c], st.last, st.pos + 1⟩) := by
  unfold Scan.read
  simp only
  split
  · split
    · rename_i e he
      exact .inl ⟨e, (matchCode_eq_some he).1, (matchCode_eq_some he).2, rfl⟩
    · rename_i hn
      exact .inr ⟨matchCode_eq_none.1 hn, rfl⟩
  · rename_i hlen
    refine .inr ⟨fun e he heq => hlen ?_, rfl⟩
    have := trieMinLen_le he
    rw [← heq, List.length_map]
    exact this

theorem scanBits_concat (trie : List CodePair) (chars : List BitChar) (c : BitChar) :
    scanBits trie (chars ++ [c]) = (scanBits trie chars).read trie (trieMinLen trie) c := by
  simp [scanBits, List.foldl_append]

theorem scanBits_pos (trie : List CodePair) (chars : List BitChar) : (scanBits trie chars).pos = chars.length := by
  induction chars using List.reverseRecOn with
  | nil => rfl
  | append_singleton chars c ih =>
    rw [scanBits_concat]
    rcases Scan.read_cases trie (scanBits trie chars) c with ⟨e, -, -, h⟩ | ⟨-, h⟩ <;> simp [h, ih]

/-! ### Any number of characters -/

/-- R155: what holds after the characters `chars`: the output is a parse of the first `last` of them, the buffer is the
rest, and no code is a beginning of the buffer. -/
structure ScanParses (trie : List CodePair) (chars : List BitChar) (st : Scan) (parsed : List CodePair) : Prop where
  mem : ∀ e ∈ parsed, e ∈ trie
  out : st.out = parsed.map CodePair.symbol
  last : st.last ≤ chars.length
  taken : chars.take st.last = parsed.flatMap (fun e => e.code.map BitChar.ofBit)
  buf : st.buf = chars.drop st.last
  stuck : ∀ e ∈ trie, ¬ e.code.map BitChar.ofBit <+: st.buf

theorem scanBits_parses (trie : List CodePair) (hne : ∀ e ∈ trie, e.code ≠ []) (chars : List BitChar) :
    ∃ parsed, ScanParses trie chars (scanBits trie chars) parsed := by
  have hnil : ∀ e ∈ trie, ¬ e.code.map BitChar.ofBit <+: [] := by
    intro e he h
    exact hne e he (by simpa using h)
  induction chars using List.reverseRecOn with
  | nil => exact ⟨[], by simp, rfl, Nat.le_refl _, rfl, rfl, hnil⟩
  | append_singleton chars c ih =>
    obtain ⟨parsed, h⟩ := ih
    have hp := scanBits_pos trie chars
    rw [scanBits_concat]
    rcases Scan.read_cases trie (scanBits trie chars) c with ⟨e, he, hcode, hr⟩ | ⟨hno, hr⟩
    · refine ⟨parsed ++ [e], ?_⟩
      rw [hr]
      constructor
      · intro x hx
        rcases List.mem_append.1 hx with hx | hx
        · exact h.mem x hx
        · exact (List.mem_singleton.1 hx) ▸ he
      · simp [h.out]
      · simp [hp]
      · simp only [hp, List.flatMap_append, List.flatMap_cons, List.flatMap_nil, List.append_nil, ← h.taken, hcode,
          h.buf]
        rw [← List.append_assoc, List.take_append_drop, List.take_of_length_le (by simp)]
      · simp [hp]
      · exact hnil
    · refine ⟨parsed, ?_⟩
      rw [hr]
      have hlast := h.last
      constructor
      · exact h.mem
      · exact h.out
      · simp only [List.length_append, List.length_singleton]
        omega
      · rw [List.take_append_of_le_length hlast]
        exact h.taken
      · rw [List.drop_append_of_le_length hlast, ← h.buf]
      · intro e he hpre
        rcases List.prefix_concat_iff.1 hpre with heq | hpre
        · exact hno e he heq
        · exact h.stuck e he hpre

/-- The output of the scan never has more symbols than characters were read, whatever the set. -/
theorem scanBits_bounds (trie : List CodePair) (chars : List BitChar) :
    (scanBits trie chars).out.length ≤ (scanBits trie chars).last ∧ (scanBits trie chars).last ≤ chars.length := by
  induction chars using List.reverseRecOn with
  | nil => exact ⟨Nat.le_refl _, Nat.le_refl _⟩
  | append_singleton chars c ih =>
    have hp := scanBits_pos trie chars
    rw [scanBits_concat]
    rcases Scan.read_cases trie (scanBits trie chars) c with ⟨e, -, -, h⟩ | ⟨-, h⟩
    · simp only [h, hp, List.length_append, List.length_singleton]
      omega
    · simp only [h, List.length_append, List.length_singleton]
      omega

/-- In a prefix-free set of non-empty codes a parse that leaves no further code is the only parse. -/
theorem parse_unique {d : List CodePair} (hne : ∀ e ∈ d, e.code ≠ [])
    (hpf : ∀ a ∈ d, ∀ b ∈ d, a.code <+: b.code → a = b) {xs ys : List CodePair} {r : List BitChar}
    (hx : ∀ e ∈ xs, e ∈ d) (hy : ∀ e ∈ ys, e ∈ d) (hr : ∀ e ∈ d, ¬ e.code.map BitChar.ofBit <+: r)
    (h : xs.flatMap (fun e => e.code.map BitChar.ofBit) ++ r = ys.flatMap (fun e => e.code.map BitChar.ofBit)) :
    xs = ys ∧ r = [] := by
  induction ys generalizing xs with
  | nil =>
    cases xs with
    | nil => exact ⟨rfl, by simpa using h⟩
    | cons x xs =>
      have hx0 := hne x (hx x List.mem_cons_self)
      simp [hx0] at h
  | cons y ys ih =>
    cases xs with
    | nil =>
      refine absurd ?_ (hr y (hy y List.mem_cons_self))
      rw [List.flatMap_nil, List.nil_append] at h
      exact ⟨_, by rw [h, List.flatMap_cons]⟩
    | cons x xs =>
      have hxd := hx x List.mem_cons_self
      have hyd := hy y List.mem_cons_self
      rw [List.flatMap_cons, List.flatMap_cons, List.append_assoc] at h
      have hxy : x = y := by
        rcases List.prefix_or_prefix_of_prefix (l₁ := x.code.map BitChar.ofBit) (l₂ := y.code.map BitChar.ofBit)
          ⟨_, rfl⟩ ⟨_, h.symm⟩ with hp | hp
        · exact hpf x hxd y hyd (map_ofBit_prefix.1 hp)
        · exact (hpf y hyd x hxd (map_ofBit_prefix.1 hp)).symm
      subst hxy
      obtain ⟨h1, h2⟩ := ih (fun e he => hx e (List.mem_cons_of_mem _ he)) (fun e he => hy e (List.mem_cons_of_mem _ he))
        (List.append_cancel_left h)
      exact ⟨by rw [h1], h2⟩

end Sys2Proof.Machine
end

