-- ==== Sys2Proof/Tests/Slice0.lean ====
section
/-! SUPPORT. The model's own tests: the checks of WellFormed, words of the opcode table written out bit by bit, vectors of
the spec (95_test_vectors.md; each test names its vector), and for every statement with hypotheses a witness that meets
them. -/

namespace Sys2Proof.Tests

set_option Elab.async false

open Sys2Proof.Machine

/-! ### Helpers -/

/-- From reset, `wrtext`. -/
def withText (bs : List Byte) : State :=
  { State.reset with text := Sparse.listFrom 0 bs, textLen := BitVec.ofNat 32 bs.length }

/-- The text of a string of ASCII characters. -/
def ascii (text : String) : List Byte := text.toList.map (fun c => BitVec.ofNat 8 c.toNat)

/-- The table T3 of section 4: 'a' "11", 'b' "0", 'c' "10". -/
def table3 : Table CtEntry :=
  codeTable [⟨0x61#8, [true, true]⟩, ⟨0x62#8, [false]⟩, ⟨0x63#8, [true, false]⟩]

/-- From reset, the table T3 and `wrbits`. -/
def withBits (bits : String) : State :=
  { State.reset with
    ct := table3, bits := Sparse.listFrom 0 (ascii bits), bitsLen := BitVec.ofNat 32 bits.toList.length }

/-- The same with the decoder's set captured: the state after BUILD_DECODE_TREE. -/
def withTrie (bits : String) : State :=
  { withBits bits with
    trie := [⟨0x61#8, [true, true]⟩, ⟨0x62#8, [false]⟩, ⟨0x63#8, [true, false]⟩], minLen := 1#8, maxLen := 2#8
    status := { Status.reset with trieValid := true } }

/-- A state after BUILD_TREE of "ab": two leaves and their parent (ENC-2). -/
def withTree : State :=
  { withText (ascii "ab") with
    freq := Table.tabulate (fun c => if c = 0x61#8 ∨ c = 0x62#8 then 1#32 else 0#32), leafCount := 2#9
    nodes := [(0, .leaf 0x61#8 1#32), (1, .leaf 0x62#8 1#32), (2, .internal 0#9 1#9 2#32)]
    root := 2#9, nodeCount := 3#10, status := { Status.reset with treeValid := true } }

/-- A state in which a command executes, with the latency and the host's script given. -/
def running (latency : Nat) (script : List HostOp) (w : Word) : State :=
  { State.reset with
    lastCmd := w, latency := latency, master := ⟨script, [], false⟩, status := { Status.reset with busy := true } }

/-- R221: a state before the first reset that looks like one in which GEN_CODES executes and is due, with TREE_VALID = 1
and a ROOT outside the arena. -/
def powerOn (script : List HostOp) : State :=
  { State.reset with
    hasReset := false, lastCmd := 0x12#32, root := 511#9, master := ⟨script, [], false⟩
    status := { Status.reset with busy := true, treeValid := true } }

/-- A check on the next state; a fault or a refusal fails it. -/
def onNext (o : Host.Outcome State Fault Refusal) (p : State → Bool) : Bool :=
  match o with
  | .next t => p t
  | .fault _ => false
  | .refused _ => false

/-! ### WellFormed -/

theorem test_legal_defaults : Config.defaults.legal = true := by decide
theorem test_illegal_base : (Params.mk 1 65536 524288 511).legal = false := by decide
theorem test_illegal_textCap_zero : (Params.mk 0 0 524288 511).legal = false := by decide
theorem test_illegal_textCap : (Params.mk 0 65537 524288 511).legal = false := by decide
theorem test_illegal_bitsCap_zero : (Params.mk 0 65536 0 511).legal = false := by decide
theorem test_illegal_bitsCap : (Params.mk 0 65536 524289 511).legal = false := by decide
theorem test_illegal_trieCap : (Params.mk 0 65536 524288 510).legal = false := by decide
theorem test_illegal_trieCap_high : (Params.mk 0 65536 524288 65537).legal = false := by decide

/-- R7: the greatest legal parameters, BASE at the second multiple of 2^20. -/
theorem test_legal_bounds : (Params.mk 1048576 65536 524288 65536).legal = true := by decide +kernel

/-- R91: a command has no operand, so there is no ill-formed command for `Instr.wellFormed` to refuse. -/
theorem test_every_command_well_formed : ∀ i : Instr, i.wellFormed = true := by
  intro i
  cases i <;> rfl

/-! ### Decoding: words written out from the table of R92 -/

theorem test_decode_nop : decodeWord 0b00000000000000000000000000000000#32 = .ok .nop := by decide
theorem test_decode_clear : decodeWord 0b00000000000000000000000000000001#32 = .ok .clear := by decide
theorem test_decode_countFreq : decodeWord 0b00000000000000000000000000010000#32 = .ok .countFreq := by decide
theorem test_decode_buildTree : decodeWord 0b00000000000000000000000000010001#32 = .ok .buildTree := by decide
theorem test_decode_genCodes : decodeWord 0b00000000000000000000000000010010#32 = .ok .genCodes := by decide
theorem test_decode_serialize : decodeWord 0b00000000000000000000000000010011#32 = .ok .serialize := by decide
theorem test_decode_encode : decodeWord 0b00000000000000000000000000011111#32 = .ok .encode := by decide
theorem test_decode_buildDecodeTree : decodeWord 0b00000000000000000000000000100000#32 = .ok .buildDecodeTree := by
  decide
theorem test_decode_deserialize : decodeWord 0b00000000000000000000000000100001#32 = .ok .deserialize := by decide
theorem test_decode_decode : decodeWord 0b00000000000000000000000000101111#32 = .ok .decode := by decide

/-- CTL-3: bits 31:8 not 0 make NOP's opcode illegal. -/
theorem test_decode_zero_field : decodeWord 0x00000100#32 = .error .zeroFieldSet := by decide

/-- CTL-4: a word in the top bit of ZERO alone. -/
theorem test_decode_zero_field_top : decodeWord 0x80000000#32 = .error .zeroFieldSet := by decide

/-- R94: the ends of the four reserved ranges. -/
theorem test_decode_reserved : ∀ w ∈ [0x02#32, 0x0F#32, 0x14#32, 0x1E#32, 0x22#32, 0x2E#32, 0x30#32, 0xFF#32],
    decodeWord w = .error .reservedOpcode := by
  simp only [List.forall_mem_cons, List.not_mem_nil, false_implies, implies_true, and_true]
  decide

theorem test_encode_words : [Instr.nop, .clear, .countFreq, .buildTree, .genCodes, .serialize, .encode,
    .buildDecodeTree, .deserialize, .decode].map encodeWord =
    [0x00#32, 0x01#32, 0x10#32, 0x11#32, 0x12#32, 0x13#32, 0x1F#32, 0x20#32, 0x21#32, 0x2F#32] := by decide

theorem test_decodeTableWord : decodeTableWord 32 0x1F = some .encode ∧ decodeTableWord 8 0x2F = some .decode ∧
    decodeTableWord 32 0x11F = none := by decide

/-! ### Vectors -/

/-- CTL-1. -/
theorem test_nop : onNext (step (State.reset.withFetchWord 32 0x00))
    (fun t => t.status.word == 0x00000002#32 && t.lastCmd == 0#32) = true := by decide +kernel

/-- CTL-6 on a tree and lengths: STATUS is 2 again and TEXT_LEN stays. -/
theorem test_clear : onNext (exec .clear withTree) (fun t => t.status.word == 0x00000002#32 && t.nodeCount == 0#10 &&
    t.freq.entry 0x61#8 == 0#32 && t.leafCount == 0#9 && t.textLen == 2#32) = true := by decide +kernel

/-- ENC-1, the counts. -/
theorem test_countFreq : onNext (exec .countFreq (withText (ascii "aabbbc"))) (fun t =>
    t.freq.entry 0x61#8 == 2#32 && t.freq.entry 0x62#8 == 3#32 && t.freq.entry 0x63#8 == 1#32 &&
    t.freq.entry 0x64#8 == 0#32 && t.leafCount == 3#9) = true := by decide +kernel

/-- ENC-E3. -/
theorem test_countFreq_length : onNext (exec .countFreq { State.reset with textLen := 65537#32 })
    (fun t => t.status.word == 0x00000202#32) = true := by decide +kernel

/-- ENC-6, the tie-break: counts a 1, b 1, c 2, d 2. -/
theorem test_buildTree : onNext (exec .buildTree { State.reset with freq := Table.tabulate (countOf (ascii "abccdd")) })
    (fun t => t.nodes.drop 4 == [(4, .internal 0#9 1#9 2#32), (5, .internal 2#9 3#9 4#32), (6, .internal 4#9 5#9 6#32)]
      && t.root == 6#9 && t.nodeCount == 7#10 && t.status.word == 0x0000000A#32) = true := by decide +kernel

/-- ENC-E8. -/
theorem test_buildTree_empty : onNext (exec .buildTree State.reset)
    (fun t => t.status.word == 0x00000102#32) = true := by decide +kernel

/-- ENC-2, the table of "ab". -/
theorem test_genCodes : onNext (exec .genCodes withTree) (fun t => t.status.word == 0x0000000A#32 &&
    (t.ct.entry 0x61#8).word 0 == 0x80000001#32 && (t.ct.entry 0x61#8).word 1 == 0#32 &&
    (t.ct.entry 0x62#8).word 0 == 0x80000001#32 && (t.ct.entry 0x62#8).word 1 == 1#32 &&
    t.minLen == 1#8 && t.maxLen == 1#8) = true := by decide +kernel

/-- ENC-E4. -/
theorem test_genCodes_no_tree : onNext (exec .genCodes State.reset)
    (fun t => t.status.word == 0x00000402#32) = true := by decide +kernel

/-- ENC-E10: "cab" with the table of "aabbbc" gives "10110". -/
theorem test_serialize : onNext (exec .serialize { withText (ascii "cab") with ct := table3 }) (fun t =>
    t.bitsLen == 5#32 && t.bits == Sparse.listFrom 0 [0x31#8, 0x30#8, 0x31#8, 0x31#8, 0x30#8]) = true := by
  decide +kernel

/-- ENC-E11: 'd' has no entry. -/
theorem test_serialize_absent : onNext (exec .serialize { withText (ascii "abd") with ct := table3 })
    (fun t => t.status.errCode == 5#8 && t.bitsLen == 0#32) = true := by decide +kernel

/-- ENC-1. -/
theorem test_encode : onNext (exec .encode (withText (ascii "aabbbc"))) (fun t => t.status.word == 0x0000000A#32 &&
    t.bitsLen == 9#32 && windowWord 524288 t.bitsByte 0 == 0x31313131#32 &&
    windowWord 524288 t.bitsByte 1 == 0x31303030#32 && t.regionWord (regionAt 0x3840) == 0x80000002#32 &&
    t.regionWord (regionAt 0x3844) == 3#32 && t.regionWord (regionAt 0x1020) == 6#32 &&
    t.regionWord (regionAt 0x1024) == 0x80030001#32) = true := by decide +kernel

/-- ENC-E6: BITS_CAP = 8. -/
theorem test_encode_overflow : onNext
    (exec .encode { withText (ascii "aabbbc") with params := ⟨0, 65536, 8, 511⟩ }) (fun t =>
      t.status.word == 0x0000030A#32 && t.leafCount == 3#9 && t.regionWord (regionAt 0x3840) == 0x80000002#32 &&
      t.bitsLen == 0#32) = true := by decide +kernel

/-- DEC-E2. -/
theorem test_buildDecodeTree_invalid : onNext
    (exec .buildDecodeTree { State.reset with ct := codeTable [⟨0x61#8, [false]⟩, ⟨0x62#8, [false, true]⟩] })
    (fun t => t.status.word == 0x00000602#32) = true := by decide +kernel

/-- Section 4: BUILD_DECODE_TREE on T3. -/
theorem test_buildDecodeTree : onNext (exec .buildDecodeTree (withBits ""))
    (fun t => t.status.word == 0x00000012#32 && t.minLen == 1#8 && t.maxLen == 2#8) = true := by decide +kernel

/-- DEC-3: a byte that is no bit stops the output. -/
theorem test_deserialize : onNext (exec .deserialize (withTrie "11x0")) (fun t => t.status.word == 0x00000012#32 &&
    t.textLen == 1#32 && t.textByte 0 == 0x61#8 && t.dropCount == 2#32) = true := by decide +kernel

/-- DEC-E5. -/
theorem test_deserialize_no_codes : onNext
    (exec .deserialize { State.reset with bitsLen := 1#32, status := { Status.reset with trieValid := true } })
    (fun t => t.status.word == 0x00000812#32) = true := by decide +kernel

/-- DEC-2. -/
theorem test_decode_command : onNext (exec .decode (withBits "1111000101")) (fun t => t.status.word == 0x00000012#32 &&
    t.textInput == ascii "aabbbc" && t.dropCount == 1#32) = true := by decide +kernel

/-- DEC-E7: TEXT_CAP = 2. -/
theorem test_decode_overflow : onNext (exec .decode { withBits "011" with
    ct := codeTable [⟨0x61#8, [false]⟩, ⟨0x62#8, [true]⟩], params := ⟨0, 2, 524288, 511⟩ })
    (fun t => t.status.word == 0x00000912#32 && t.textLen == 0#32) = true := by decide +kernel

/-- CTL-3. -/
theorem test_illegal : onNext (step (State.reset.withFetchWord 32 0x100))
    (fun t => t.status.word == 0x00000A02#32) = true := by decide +kernel

/-- BSY-2: a COMMAND write to a busy block is dropped and sets OVERRUN. -/
theorem test_busy_command : (((running 3 [] 0#32).busWrite 4 0x018#20 1#32).state.status.word == 0x00000005#32) = true := by
  decide +kernel

/-- MEM-3. -/
theorem test_text_little_endian : (((State.reset.busWrite 4 0x10000#20 0x64636261#32).state.text) ==
    [(0, 0x61#8), (1, 0x62#8), (2, 0x63#8), (3, 0x64#8)]) = true := by decide +kernel

/-- MEM-10. -/
theorem test_ct_word0 : (((State.reset.busWrite 4 0x2000#20 0xFFFFFFFF#32).state.busRead 4 0x2000#20).data ==
    0x800000FF#32) = true := by decide +kernel

/-- MEM-1, MEM-2. -/
theorem test_id : ((State.reset.busRead 4 0x000#20).data == 0x48554646#32 &&
    (State.reset.busRead 4 0x00C#20).data == 0x000001FF#32) = true := by decide +kernel

/-- IRQ-3. -/
theorem test_irq : onNext (step ({ State.reset with irqEn := true }.withFetchWord 32 0x02)) State.irq = true := by
  decide +kernel

/-- SRC-4: the percentages of "aabbbc" and "ab". -/
theorem test_percent : compressionPercent 6 9 = some 81 ∧ compressionPercent 2 2 = some 87 ∧
    compressionPercent 0 0 = none := by decide

/-! ### Witnesses: states and operands that meet a statement's hypotheses together -/

theorem running_busy (l : Nat) (script : List HostOp) (w : Word) : (running l script w).status.busy = true := rfl

/-- For StepRunsTheDecodedCommand: due because no access is left, and due because the host has nothing to do. -/
theorem witness_step_due : ∀ s ∈ [running 0 [rd 0x014] 0x1F#32, running 7 [] 0x1F#32],
    s.hasReset = true ∧ s.status.busy = true ∧ (s.master.script = [] ∨ s.latency = 0) ∧
      decodeWord s.lastCmd = .ok .encode := by decide

/-- For OtherStepsAreTheHostsAccesses: each of its clauses on steps; the last three before the first reset
(R221). -/
theorem witness_host_step :
    (State.reset.hasReset = true ∧ State.reset.status.busy = false ∧ State.reset.master.script = []) ∧
    (let s : State := { State.reset with master := ⟨[rd 0x000], [], false⟩ }
     s.hasReset = true ∧ s.status.busy = false ∧ s.master.script = rd 0x000 :: []) ∧
    (let s := running 1 [wr 0x01C 5#32] 0#32
     s.hasReset = true ∧ s.status.busy = true ∧ s.master.script = wr 0x01C 5#32 :: [] ∧ s.latency = 0 + 1) ∧
    ((powerOn []).hasReset = false ∧ (powerOn []).master.script = []) ∧
    ((powerOn [.reset]).hasReset = false ∧ (powerOn [.reset]).master.script = .reset :: []) ∧
    ((powerOn [rd 0x014]).hasReset = false ∧
      ¬ (rd 0x014 = .reset ∨ rd 0x014 = .waitIrq ∨ (∃ n, rd 0x014 = .ifOk n) ∨ ∃ base, rd 0x014 = .readWindow base) ∧
      (powerOn [rd 0x014]).master.script = rd 0x014 :: []) :=
  ⟨by decide, by decide, by decide, by decide, by decide, rfl, by simp [rd], rfl⟩

/-- A host that has just read a word and has these operations left. -/
def hasRead (d : Word) (script : List HostOp) : State :=
  { State.reset with master := ⟨script, [.read .okay d], false⟩ }

/-- For OtherStepsAreTheHostsAccesses: a STATUS word of a command that ended with OK, and one with LENGTH (R27, R181). -/
theorem witness_has_read : (hasRead 0x00000002#32 []).master.replies = .read .okay 0x00000002#32 :: [] ∧
    (0x00000002#32).extractLsb' 8 8 = 0#8 ∧ (0x00000202#32).extractLsb' 8 8 ≠ 0#8 := by decide

/-- R204: on OK the host goes on to read the result; on an error it leaves that out. -/
theorem test_on_ok : onNext (step (hasRead 0x00000002#32 [.ifOk 2, rd 0x020, .readWindow 0x80000#20]))
      (fun t => t.master.script == [rd 0x020, .readWindow 0x80000#20]) = true ∧
    onNext (step (hasRead 0x00000202#32 [.ifOk 2, rd 0x020, .readWindow 0x80000#20]))
      (fun t => t.master.script == []) = true := by decide

/-- R204, with ENC-1's BITS_LEN of 9: nine characters stand in three words. -/
theorem test_read_window : onNext (step (hasRead 9#32 [.readWindow 0x80000#20]))
    (fun t => t.master.script == [rd 0x80000, rd 0x80004, rd 0x80008]) = true := by decide

/-- R202: a host that waits for `irq` goes on once the command has completed. -/
theorem test_wait_irq :
    onNext (step (running 1 [.waitIrq] 0#32)) (fun t => t.master.script == [.waitIrq]) = true ∧
    onNext (step { State.reset with
      irqEn := true, status := { Status.reset with done := true }, master := ⟨[.waitIrq], [], false⟩ })
      (fun t => t.master.script == []) = true := by decide

/-- R221: before the first reset nothing completes, and a reset gives the reset state. -/
theorem test_power_on_reset : onNext (step (powerOn [.reset])) (fun t =>
    t.hasReset && t.phase == .idle && !t.status.treeValid && t.status.word == 0#32) = true := by decide

/-- R221: the host must not access the block before the first reset. -/
theorem test_power_on_access : step (powerOn [rd 0x014]) = .fault .accessBeforeReset := by rfl

/-- For CommandWriteIssuesTheWord. -/
theorem witness_command_write :
    State.reset.status.busy = false ∧ (running 3 [] 0#32).status.busy = true := by decide

/-- For RunningCommandComesToCompletion. -/
theorem witness_running : (running 3 [.wait] 0x2F#32).hasReset = true ∧ (running 3 [.wait] 0x2F#32).status.busy = true ∧
    HostOp.reset ∉ (running 3 [.wait] 0x2F#32).master.script := by decide

/-- For IllegalWordCompletesWithIllegalCmd: a reserved opcode and a word with bit 8 set (CTL-2, CTL-3). -/
theorem witness_illegal : ∀ s ∈ [running 0 [rd 0x014] 0x02#32, running 5 [] 0x100#32],
    s.hasReset = true ∧ s.status.busy = true ∧ (s.master.script = [] ∨ s.latency = 0) ∧ ∀ i : Instr, s.lastCmd ≠ encodeWord i := by
  intro s hs
  have h : s.lastCmd = 0x02#32 ∨ s.lastCmd = 0x100#32 := by
    simp only [List.mem_cons, List.not_mem_nil, or_false] at hs
    rcases hs with rfl | rfl
    · exact .inl rfl
    · exact .inr rfl
  refine ⟨?_, ?_, ?_, fun i => by rcases h with h | h <;> rw [h] <;> cases i <;> decide⟩ <;>
    · simp only [List.mem_cons, List.not_mem_nil, or_false] at hs
      rcases hs with rfl | rfl <;> decide

/-- For FailedCommandChangesOnlyItsResult, and for every statement whose hypothesis is that a command answers a next
state: GEN_CODES without a tree. -/
theorem witness_failed : ∃ t, exec .genCodes State.reset = .next t ∧ Instr.genCodes ≠ .encode ∧
    Instr.genCodes ≠ .decode ∧ t.status.errCode ≠ 0#8 := ⟨_, rfl, by decide, by decide, by decide⟩

/-- For CommandsRaiseOnlyTheirOwnCodes, CommandsKeepHostAndControlState, InterruptFollowsEnableAndDone,
TreeValidFollowsBuildTree, TrieValidFollowsTheCodeTable and CtrlHoldsIrqEnable: a command that answers a next state. -/
theorem witness_exec_next : ∃ t, exec .clear withTree = .next t := ⟨_, rfl⟩

/-- For RejectedAccessesChangeNothing: a byte access, and word accesses off by 2 and by 3. -/
theorem witness_rejected : (1 ≠ 4 ∨ (0x10000#20).toNat % 4 ≠ 0) ∧ (4 ≠ 4 ∨ (0x002#20).toNat % 4 ≠ 0) ∧
    (4 ≠ 4 ∨ (0xFFFFF#20).toNat % 4 ≠ 0) := by decide

/-- For ReservedOffsetsReadZeroAndIgnoreWrites: the ends of the five ranges. -/
theorem witness_reserved : [0x0003C#20, 0x000FC#20, 0x00500#20, 0x00FFC#20, 0x01FF8#20, 0x01FFC#20,
    0x06000#20, 0x0FFFC#20, 0x20000#20, 0x7FFFC#20].all (fun off =>
    decide (off.toNat % 4 = 0 ∧ ReservedOffset off.toNat)) = true := by
  decide +kernel

/-- For ReadOnlyOffsetsIgnoreWrites: the ends of the four ranges, then CTRL and STATUS. -/
theorem witness_read_only : [0x00000#20, 0x0000C#20, 0x00024#20, 0x00038#20, 0x00100#20, 0x004FC#20,
    0x01000#20, 0x01FF4#20].all (fun off => decide (off.toNat % 4 = 0 ∧ ReadOnlyOffset off.toNat)) = true ∧
    (0x010#20).toNat % 4 = 0 ∧ (0x010#20).toNat = 0x010 ∧ (0x014#20).toNat % 4 = 0 ∧ (0x014#20).toNat = 0x014 := by
  decide +kernel

/-- For RegistersReadTheirFields and the statements on windows: an idle block. -/
theorem witness_idle : State.reset.status.busy = false := by decide

/-- For ByteWindowsReadLittleEndian and ByteWindowsWriteLittleEndian: the first and the last words of both windows. -/
theorem witness_windows : State.reset.status.busy = false ∧ 0 < 0x4000 ∧ 0x3FFF < 0x4000 ∧ 0 < 0x20000 ∧
    0x1FFFF < 0x20000 ∧ 0 < 4 ∧ 3 < 4 ∧ (0x10000 ≤ 0x10000 ∧ 0x10000 ≤ State.reset.params.textCap) ∧
    (0x80000 ≤ 0x80000 ∧ 0x80000 ≤ State.reset.params.bitsCap) := by decide

/-- For ByteWindowsWriteLittleEndian: hosts that load "abc" as text and "10" as bits, values at their ends of 2^32 bytes
and at a capacity. -/
theorem witness_load :
    (let s : State := { State.reset with master := ⟨loadText (ascii "abc") ++ [rd 0x01C], [], false⟩ }
     s.params.legal = true ∧ s.hasReset = true ∧ s.status.busy = false ∧
       s.master.script = loadText (ascii "abc") ++ [rd 0x01C]) ∧
    (let s : State := { State.reset with master := ⟨loadBits (ascii "10") ++ [], [], false⟩ }
     s.params.legal = true ∧ s.hasReset = true ∧ s.status.busy = false ∧
       s.master.script = loadBits (ascii "10") ++ []) ∧
    (List.replicate (2 ^ 32 - 1) 0#8).length < 2 ^ 32 ∧
    State.reset.params.textCap < (List.replicate 65537 0#8).length ∧
    State.reset.params.bitsCap < (List.replicate 524289 0#8).length := by
  refine ⟨⟨by decide, rfl, rfl, rfl⟩, ⟨by decide, rfl, rfl, rfl⟩, ?_, ?_, ?_⟩ <;> rw [List.length_replicate] <;> decide

/-- R102: the word for 256 characters, which LEN cannot hold, and the words for "10". -/
theorem test_wr_code : (wrCode 0x61#8 (List.replicate 256 true)).head? = some (wr 0x3840 0x80000100#32) ∧
    (wrCode 0x61#8 [true, false]).take 3 =
      [wr 0x3840 0x80000002#32, wr 0x3844 0x00000001#32, wr 0x3848 0x00000000#32] := by decide +kernel

/-- R202, MEM-3's bytes: the words `loadText` writes, then the length. -/
theorem test_load_text : loadText (ascii "abcde") =
    [wr 0x10000 0x64636261#32, wr 0x10004 0x00000065#32, wr 0x01C 5#32] := by decide

/-- For CodeTableWordsRead and CodeTableWordsWrite: the words at which the clauses meet. -/
theorem witness_code_table : State.reset.status.busy = false ∧ ∀ w ∈ [0, 1, 8, 9, 15],
    w < 16 ∧ (w = 0 ∨ (1 ≤ w ∧ w ≤ 8) ∨ 9 ≤ w) := by decide

/-- For CodeTableWordsRead: the last character of a code (the entry of 'c' in T3, "10"). -/
theorem witness_code_character : 1 < (table3.entry 0x63#8).len.toNat ∧
    (table3.entry 0x63#8).code = [true, false] ∧ (table3.entry 0x63#8).bits.getLsbD 0 = true := by decide +kernel

/-- For CodeTableWordsWrite: another entry than the one written. -/
theorem witness_other_entry : (0xFF#8) ≠ 0x61#8 := by decide

/-- For FreqAndNodeWindowsRead: the last node, which nothing has written, and written nodes of both kinds. -/
theorem witness_nodes : State.reset.status.busy = false ∧ 510 ≤ 510 ∧ Sparse.get? State.reset.nodes 510 = none ∧
    withTree.status.busy = false ∧ Sparse.get? withTree.nodes 1 = some (.leaf 0x62#8 1#32) ∧
    Sparse.get? withTree.nodes 2 = some (.internal 0#9 1#9 2#32) := by decide

/-- For BusyBlockAnswersByTheTable: an offset for each of its clauses, at the ends of the ranges. -/
theorem witness_busy_offsets : (running 3 [] 0#32).status.busy = true ∧
    [0x010#20, 0x014#20, 0x000#20, 0x004#20, 0x008#20, 0x00C#20].all
      (fun off => decide (off.toNat % 4 = 0)) = true ∧
    [0x0003C#20, 0x01FF8#20, 0x7FFFC#20].all
      (fun off => decide (off.toNat % 4 = 0 ∧ ReservedOffset off.toNat)) = true ∧
    [0x0000C#20, 0x00024#20, 0x01FF4#20].all
      (fun off => decide (off.toNat % 4 = 0 ∧ ReadOnlyOffset off.toNat)) = true ∧
    [0x00018#20, 0x00020#20, 0x02000#20, 0x05FFC#20, 0x10000#20, 0x1FFFC#20, 0x80000#20, 0xFFFFC#20].all
      (fun off => decide (off.toNat % 4 = 0 ∧ InputOffset off.toNat)) = true ∧
    [0x00018#20, 0x00038#20, 0x00100#20, 0x01FF4#20, 0x02000#20, 0xFFFFC#20].all
      (fun off => decide (off.toNat % 4 = 0 ∧ ¬ AlwaysReadableOffset off.toNat)) = true := by
  decide +kernel

/-- For AccessesAreIdempotentExceptCommand. -/
theorem witness_not_command : 0x014#20 ≠ 0x018#20 := by decide

/-- For HostCannotChangeARunningCommandsInputs. -/
theorem witness_host_op : (running 3 [] 0#32).status.busy = true ∧ wr 0x2000 0#32 ≠ .reset := by decide

/-- For OverrunIsStickyAndRecordsADroppedWrite: a step that raises OVERRUN (BSY-2), and one from a state that has it.
The step that raises it is the host's: no completion is due. -/
theorem witness_overrun :
    (∃ t, step (running 3 [wr 0x01C 5#32] 0#32) = .next t ∧
      (running 3 [wr 0x01C 5#32] 0#32).status.overrun = false ∧ t.status.overrun = true ∧
      (running 3 [wr 0x01C 5#32] 0#32).completionDue = false) ∧
    ∃ t, step { State.reset with status := { Status.reset with overrun := true } } = .next t :=
  ⟨⟨_, rfl, rfl, rfl, by decide⟩, ⟨_, rfl⟩⟩

/-- For ResetGivesTheTable: a reset of a running command, and the first reset after power-on. -/
theorem witness_reset : ((running 3 [.reset] 0x1F#32).master.script = .reset :: [] ∧
    (running 3 [.reset] 0x1F#32).completionDue = false) ∧
    (powerOn [.reset]).master.script = .reset :: [] ∧ (powerOn [.reset]).hasReset = false := by decide

/-- For WaitReadsStatusUntilBusyIsZero: its two clauses on `waitIrq`. -/
theorem witness_wait_irq : ((running 1 [.waitIrq] 0#32).master.script = .waitIrq :: [] ∧
    (running 1 [.waitIrq] 0#32).irq = false) ∧
    (let s : State := { State.reset with
      irqEn := true, status := { Status.reset with done := true }, master := ⟨[.waitIrq], [], false⟩ }
     s.master.script = .waitIrq :: [] ∧ s.irq = true) := by decide

/-- For WaitReadsStatusUntilBusyIsZero: its two clauses on `wait`. -/
theorem witness_wait : ((running 3 [.wait] 0#32).master.script = .wait :: [] ∧
    (running 3 [.wait] 0#32).status.busy = true) ∧
    (let s : State := { State.reset with master := ⟨[.wait], [], false⟩ }
     s.master.script = .wait :: [] ∧ s.status.busy = false) := by decide

/-- For CountFreqCountsTheText: both sides of TEXT_CAP. -/
theorem witness_countFreq :
    (let s : State := { State.reset with textLen := 65537#32 }
     s.params.textCap < s.textLen.toNat) ∧
    (let s : State := { State.reset with textLen := 65536#32 }
     s.textLen.toNat ≤ s.params.textCap) := by decide +kernel

/-- For CombinationTakesTheTwoLeastNodes: the second pair of ENC-4, with its tie at 2. -/
theorem witness_queue : let q : List QueueItem := [⟨5, 2#32⟩, ⟨2, 2#32⟩, ⟨3, 3#32⟩]
    2 ≤ q.length ∧ (q.map QueueItem.node).Nodup := by decide

/-- For BuildTreeRunsTheLoopToItsEnd: both clauses. -/
theorem witness_buildTree : (∀ c, State.reset.freq.entry c = 0#32) ∧ ∃ c, withTree.freq.entry c ≠ 0#32 := by
  refine ⟨fun c => ?_, 0x61#8, by decide +kernel⟩
  simp [State.reset, Table.entry]

/-- For LeavesStandInSymbolOrder, BuiltTreeHasTheStatedShape and GeneratedCodesAreACompletePrefixFreeCode: COUNT_FREQ,
BUILD_TREE and GEN_CODES of "ab", each with OK. -/
theorem witness_built : onNext (exec .countFreq (withText (ascii "ab"))) (fun s => s.status.errCode == 0#8 &&
    s.freq.entry 0x61#8 != 0#32 && onNext (exec .buildTree s) (fun t => t.status.errCode == 0#8 &&
      onNext (exec .genCodes t) (fun u => u.status.errCode == 0#8 && (u.ct.entry 0x61#8).valid &&
        (u.ct.entry 0x62#8).valid))) = true := by decide +kernel

/-- For GeneratedCodesAreACompletePrefixFreeCode: two symbols, and one symbol. -/
theorem witness_symbol_counts :
    2 ≤ (symbols.filter (fun c => withTree.freq.entry c ≠ 0#32)).length ∧
    (let s : State := { State.reset with freq := Table.tabulate (fun c => if c = 0x61#8 then 4#32 else 0#32) }
     (symbols.filter (fun c => s.freq.entry c ≠ 0#32)).length = 1) := by decide +kernel

/-- For DegenerateTreeIsOneLeafWithTheEmptyCode (ENC-8). -/
theorem witness_degenerate :
    let s : State := { State.reset with freq := Table.tabulate (fun c => if c = 0x61#8 then 4#32 else 0#32) }
    s.freq.entry 0x61#8 ≠ 0#32 ∧ ∀ d, d ≠ 0x61#8 → s.freq.entry d = 0#32 := by
  refine ⟨by decide +kernel, fun d hd => ?_⟩
  simp [Table.entry, Table.tabulate, symbols, hd]

/-- For GenCodesRecordsThePathsToTheLeaves: both clauses, and a path to a leaf and a symbol that has none. -/
theorem witness_genCodes : State.reset.status.treeValid = false ∧ withTree.status.treeValid = true ∧
    withTree.WalkEnds ∧ withTree.follow withTree.root.toNat [true] = some 1 ∧
    withTree.nodeAt 1 = .leaf 0x62#8 1#32 :=
  ⟨rfl, rfl, ⟨[⟨0x61#8, [false]⟩, ⟨0x62#8, [true]⟩], rfl, by decide⟩, rfl, rfl⟩

/-- For MinAndMaxLenRangeOverDecodableEntries: both clauses. -/
theorem witness_lengths : (∀ c, (State.reset.ct.entry c).valid = true → (State.reset.ct.entry c).len = 0#8) ∧
    ∃ c, (table3.entry c).valid = true ∧ (table3.entry c).len ≠ 0#8 := by
  refine ⟨fun c _ => ?_, 0x61#8, by decide +kernel⟩
  simp [State.reset, Table.entry, CtEntry.absent]

/-- For SerializeConcatenatesTheCodes: the four clauses, the last two at the boundary of BITS_CAP. -/
theorem witness_serialize :
    let text := fun s : State => (List.range s.textLen.toNat).map s.textByte
    let total := fun s : State => ((text s).map (fun b => (s.ct.entry b).len.toNat)).sum
    (let s : State := { State.reset with textLen := 65537#32 }
     s.params.textCap < s.textLen.toNat) ∧
    (let s : State := { withText (ascii "abd") with ct := table3 }
     s.textLen.toNat ≤ s.params.textCap ∧ ∃ b ∈ text s, (s.ct.entry b).valid = false) ∧
    (let s : State := { withText (ascii "cab") with ct := table3, params := ⟨0, 65536, 4, 511⟩ }
     s.textLen.toNat ≤ s.params.textCap ∧ (∀ b ∈ text s, (s.ct.entry b).valid = true) ∧ s.params.bitsCap < total s) ∧
    (let s : State := { withText (ascii "cab") with ct := table3, params := ⟨0, 65536, 5, 511⟩ }
     s.textLen.toNat ≤ s.params.textCap ∧ (∀ b ∈ text s, (s.ct.entry b).valid = true) ∧ total s ≤ s.params.bitsCap) := by
  decide +kernel

/-- For EncodeIsItsFourStagesInOrder and EncodeCompletesOnEveryText: the three clauses. -/
theorem witness_encode :
    (let s : State := { State.reset with textLen := 65537#32 }
     s.params.textCap < s.textLen.toNat) ∧
    (State.reset.textLen.toNat ≤ State.reset.params.textCap ∧ State.reset.textLen = 0#32) ∧
    (let s := withText (ascii "aabbbc")
     s.textLen.toNat ≤ s.params.textCap ∧ s.textLen ≠ 0#32) := by decide +kernel

/-- For EncodeNeverOverflowsEightTimesTheText: ENCODE of a full text at the boundary of the capacities ends with OK. -/
theorem witness_capacity :
    let s : State := { withText (ascii "aabbbc") with params := ⟨0, 6, 48, 511⟩ }
    8 * s.params.textCap ≤ s.params.bitsCap ∧
    onNext (exec .encode s) (fun t => t.status.errCode == 0#8 && t.bitsLen == 9#32) = true := by decide +kernel

/-- For BuildDecodeTreeChecksAndCapturesTheTable: a clash, too many prefixes, and a table that passes at the bound. -/
theorem witness_buildDecodeTree :
    let decodable := fun (ct : Table CtEntry) (c : Byte) => (ct.entry c).valid = true ∧ (ct.entry c).len ≠ 0#8
    let clash := fun ct : Table CtEntry =>
      ∃ c d, c ≠ d ∧ decodable ct c ∧ decodable ct d ∧ (ct.entry c).code <+: (ct.entry d).code
    let prefixes := fun ct : Table CtEntry => { p : Code | p = [] ∨ ∃ c, decodable ct c ∧ p <+: (ct.entry c).code }
    clash (codeTable [⟨0x61#8, [false]⟩, ⟨0x62#8, [false, true]⟩]) ∧
    4 < (prefixes table3).ncard ∧ ¬ clash table3 ∧ (prefixes table3).ncard ≤ 5 := by
  have hclash := prefixClash_decodableSet
  have hnodes := trieNodes_decodableSet table3
  have h5 : trieNodes (decodableSet table3) = 5 := by decide +kernel
  have h1 : prefixClash (decodableSet (codeTable [⟨0x61#8, [false]⟩, ⟨0x62#8, [false, true]⟩])) = true := by
    decide +kernel
  have h2 : prefixClash (decodableSet table3) = false := by decide +kernel
  refine ⟨(hclash _).1 h1, ?_, fun h => ?_, ?_⟩
  · exact Nat.lt_of_lt_of_eq (by decide) (h5.symm.trans hnodes)
  · have := (hclash _).2 h
    rw [h2] at this
    cases this
  · exact Nat.le_of_eq (hnodes.symm.trans h5)

/-- For DeserializeErrorsInOrder: the five clauses. -/
theorem witness_deserialize_errors :
    State.reset.status.trieValid = false ∧
    (let s : State := { withTrie "" with bitsLen := 524289#32 }
     s.status.trieValid = true ∧ s.params.bitsCap < s.bitsLen.toNat) ∧
    (let s : State := { withTrie "0" with trie := [] }
     s.status.trieValid = true ∧ s.bitsLen.toNat ≤ s.params.bitsCap ∧ s.trie = [] ∧ s.bitsLen ≠ 0#32) ∧
    (let s : State := { withTrie "" with trie := [] }
     s.status.trieValid = true ∧ s.trie = [] ∧ s.bitsLen = 0#32) ∧
    (let s : State := { withTrie "000" with params := ⟨0, 2, 524288, 511⟩ }
     s.status.trieValid = true ∧ s.bitsLen.toNat ≤ s.params.bitsCap ∧ s.trie ≠ [] ∧
       s.params.textCap < (scanBits s.trie s.charInput).out.length) := by decide +kernel

/-- For DeserializeWritesTheDecodedText, at the boundary of TEXT_CAP. -/
theorem witness_deserialize : let s : State := { withTrie "00" with params := ⟨0, 2, 524288, 511⟩ }
    s.status.trieValid = true ∧ s.bitsLen.toNat ≤ s.params.bitsCap ∧ s.trie ≠ [] ∧
      (scanBits s.trie s.charInput).out.length ≤ s.params.textCap := by decide +kernel

/-- For ScanIsTheGreedyParse and WalkerAgreesWithTheScan: the set of T3. -/
theorem witness_trie : let trie : List CodePair := [⟨0x61#8, [true, true]⟩, ⟨0x62#8, [false]⟩, ⟨0x63#8, [true, false]⟩]
    prefixClash trie = false ∧ (trie.map CodePair.symbol).Nodup ∧ ∀ e ∈ trie, e.code ≠ [] := by decide

/-- For DecodeLeavesTheDecodedText. -/
theorem witness_decode : let s := withBits "1111000101"
    prefixClash (decodableSet s.ct) = false ∧ trieNodes (decodableSet s.ct) ≤ s.params.trieCap ∧
      s.bitsLen.toNat ≤ s.params.bitsCap ∧ decodableSet s.ct ≠ [] ∧
      (scanBits (decodableSet s.ct) s.charInput).out.length ≤ s.params.textCap := by decide +kernel

/-- For the statements on every state of the invariant: a state with a text, no tree and no trie. -/
theorem witness_inv_text : (withText (ascii "ab")).Inv := by
  constructor <;> first | decide +kernel | (intro h; cases h)

/-- The same with a tree. -/
theorem witness_inv_tree : withTree.Inv := by
  constructor <;> first | decide +kernel | (intro h; cases h; done) | intro _
  · refine ⟨2, by decide, by decide, by decide, by decide, by decide, ?_, ?_⟩
    · intro i hi
      match i, hi with
      | 0, _ => exact ⟨_, _, rfl⟩
      | 1, _ => exact ⟨_, _, rfl⟩
    · intro i h1 h2
      obtain rfl : i = 2 := by omega
      exact ⟨_, _, _, rfl, by decide, by decide, by decide⟩
  · exact ⟨[⟨0x61#8, [false]⟩, ⟨0x62#8, [true]⟩], rfl, by decide⟩

/-- The same with a trie, for DecodedLengthsAreBounded: DESERIALIZE of DEC-2 ends with OK. -/
theorem witness_inv_trie : (withTrie "1111000101").Inv ∧
    onNext (exec .deserialize (withTrie "1111000101")) (fun t => t.status.errCode == 0#8 && t.trie != []) = true := by
  refine ⟨?_, by decide +kernel⟩
  constructor <;> first | decide +kernel | (intro h; cases h; done) | intro _
  constructor <;> decide +kernel

/-- For TrieValidFollowsTheCodeTable: BUILD_DECODE_TREE fails in a state of the invariant. -/
theorem witness_inv_clash : let s : State :=
      { State.reset with ct := codeTable [⟨0x61#8, [false]⟩, ⟨0x62#8, [false, true]⟩] }
    s.Inv ∧ onNext (exec .buildDecodeTree s) (fun t => t.status.errCode != 0#8) = true := by
  refine ⟨?_, by decide +kernel⟩
  constructor <;> first | decide +kernel | (intro h; cases h)

/-- For NonBitByteStopsTheOutput: the last byte of a bit-string, one that is neither 0x30 nor 0x31 (R154). -/
theorem witness_other_byte : 2 < (withBits "0xA").bitsLen.toNat ∧
    (withBits "0xA").charInput = [.zero, .other, .other] := by decide +kernel

/-- For DecodeAfterEncodeGivesTheTextBack: ENCODE of "ab" and of "aa" end with OK; the texts have two symbols and one. -/
theorem witness_round_trip :
    (withText (ascii "ab")).Inv ∧
    onNext (exec .encode (withText (ascii "ab"))) (fun t => t.status.errCode == 0#8) = true ∧
    (withText (ascii "ab")).textByte 0 ≠ (withText (ascii "ab")).textByte 1 ∧
    onNext (exec .encode (withText (ascii "aa"))) (fun t => t.status.errCode == 0#8) = true ∧
    (∀ i, i < 2 → ∀ j, j < 2 → (withText (ascii "aa")).textByte i = (withText (ascii "aa")).textByte j) := by
  refine ⟨witness_inv_text, ?_⟩
  decide +kernel

/-- For EveryStepKeepsTheInvariant and NoStepStopsTheMachine: a step from a state of the invariant. -/
theorem witness_inv_step : withTree.Inv ∧ ∃ t, step withTree = .next t := ⟨witness_inv_tree, ⟨_, rfl⟩⟩

end Sys2Proof.Tests
end

section
/-! PROOFS. ENCODE as its stages (R132), and the bound on the bit-string it leaves (R9, R133). A text that passes the two
checks takes ENCODE through COUNT_FREQ, BUILD_TREE and GEN_CODES without an error, so what ENCODE answers is what
SERIALIZE answers in the state those three stages leave, `State.generated`; its code table is that of the tree built
from the counts of the text, and `BuiltTree.totalLen_le` bounds what that table makes of the text. -/

namespace Sys2Proof.Machine

/-! ### Stages (R112) -/

/-- A stage that ends with its effect hands the resulting state to the stages after it. -/
theorem runStages_of_done {stage : State → StageResult} {s s' : State} (h : stage s = .done s')
    (rest : List (State → StageResult)) : runStages (stage :: rest) s = runStages rest s' := by
  rw [runStages_cons, h]

/-- An error of the first stage ends the command. -/
theorem runStages_of_raised {stage : State → StageResult} {s : State} {e : Err} (h : stage s = .raised e)
    (rest : List (State → StageResult)) : runStages (stage :: rest) s = .next (s.complete e.code) := by
  rw [runStages_cons, h]

/-! ### The counts of a text (R121) -/

@[simp] theorem State.length_textInput (s : State) : s.textInput.length = s.textLen.toNat := by
  simp [State.textInput]

/-- The table COUNT_FREQ leaves for a text. -/
def textCounts (text : List Byte) : Table Word := Table.tabulate (countOf text)

/-- R134: a counter does not wrap on a text whose length is a word. -/
theorem textCounts_entry_toNat {text : List Byte} (h : text.length < 2 ^ 32) (c : Byte) :
    ((textCounts text).entry c).toNat = text.count c := by
  rw [textCounts, Table.entry_tabulate, countOf, BitVec.toNat_ofNat,
    Nat.mod_eq_of_lt (List.count_le_length.trans_lt h)]

theorem State.textCounts_entry_toNat (s : State) (c : Byte) :
    ((textCounts s.textInput).entry c).toNat = s.textInput.count c :=
  Machine.textCounts_entry_toNat (s.length_textInput.trans_lt s.textLen.isLt) c

/-- A text of at least one byte has at least one symbol with a count. -/
theorem State.leafTotal_textCounts_ne_zero {s : State} (h : s.textLen ≠ 0#32) :
    leafTotal (textCounts s.textInput) ≠ 0 := by
  intro h0
  have hpos : 0 < s.textInput.length := by
    rw [length_textInput]
    exact Nat.pos_of_ne_zero fun hz => h (BitVec.eq_of_toNat_eq hz)
  have hcount := s.textCounts_entry_toNat s.textInput[0]
  rw [(leafTotal_eq_zero_iff _).1 h0] at hcount
  exact absurd hcount.symm (List.count_pos_iff.2 (List.getElem_mem hpos)).ne'

/-! ### The walk over a built tree (R125, R128) -/

/-- In a state with the arena and the root BUILD_TREE leaves, the walk from the root ends and records the codes of the
tree. -/
theorem BuiltTree.treeCodes_eq {f : Table Word} {x : HTree} (h : BuiltTree f x) {s : State} {old : Sparse Node}
    (hnodes : s.nodes = Sparse.overwrite old (huffmanForest f).nodes)
    (hroot : s.root = BitVec.ofNat 9 (huffmanForest f).rootNode) : s.treeCodes = .ok (x.codes []) := by
  have hsmall : ∀ i ∈ x.indices, i < Config.nodeCap := by
    intro i hi
    have hi' := List.mem_range.1 (h.indices.subset hi)
    have hn := leafTotal_le f
    simp only [Config.nodeCap]
    omega
  have hnode : ∀ i n, (huffmanForest f).nodes[i]? = some n → s.nodeAt i = n := by
    intro i n hi
    apply State.nodeAt_of_get?
    rw [hnodes, Sparse.get?_overwrite, hi]
    rfl
  have hidx : s.root.toNat = x.idx := by
    have hlt := hsmall _ x.idx_mem_indices
    simp only [Config.nodeCap] at hlt
    rw [hroot, Forest.rootNode, h.queue, BitVec.toNat_ofNat]
    exact Nat.mod_eq_of_lt (by show x.idx < 2 ^ 9; omega)
  rw [State.treeCodes, hidx]
  exact h.rep.treeWalk_eq hnode hsmall _ h.height_le []

/-! ### ENCODE up to SERIALIZE (R132) -/

/-- The state COUNT_FREQ leaves of a text within TEXT_CAP. -/
def State.counted (s : State) : State :=
  { s with
    freq := textCounts s.textInput
    leafCount := BitVec.ofNat 9 (leafTotal (textCounts s.textInput)) }

/-- The state BUILD_TREE leaves where some symbol has a count. -/
def State.built (s : State) : State :=
  { s with
    nodes := Sparse.overwrite s.nodes (huffmanForest s.freq).nodes
    root := BitVec.ofNat 9 (huffmanForest s.freq).rootNode
    nodeCount := BitVec.ofNat 10 (huffmanForest s.freq).nodes.length
    status := { s.status with treeValid := true, degenerate := decide (leafTotal s.freq = 1) } }

/-- The state GEN_CODES leaves where the walk records these leaves. -/
def State.generated (s : State) (leaves : List CodePair) : State :=
  { s with
    ct := codeTable leaves
    minLen := BitVec.ofNat 8 (minDecodable (codeTable leaves))
    maxLen := BitVec.ofNat 8 (maxDecodable (codeTable leaves))
    status := { s.status with trieValid := false } }

@[simp] theorem State.counted_freq (s : State) : s.counted.freq = textCounts s.textInput := rfl
@[simp] theorem State.counted_textInput (s : State) : s.counted.textInput = s.textInput := rfl
@[simp] theorem State.counted_params (s : State) : s.counted.params = s.params := rfl
@[simp] theorem State.built_treeValid (s : State) : s.built.status.treeValid = true := rfl
@[simp] theorem State.built_textInput (s : State) : s.built.textInput = s.textInput := rfl
@[simp] theorem State.built_params (s : State) : s.built.params = s.params := rfl
@[simp] theorem State.generated_ct (s : State) (leaves : List CodePair) :
    (s.generated leaves).ct = codeTable leaves := rfl
@[simp] theorem State.generated_textInput (s : State) (leaves : List CodePair) :
    (s.generated leaves).textInput = s.textInput := rfl
@[simp] theorem State.generated_params (s : State) (leaves : List CodePair) :
    (s.generated leaves).params = s.params := rfl

theorem countFreqStage_done {s : State} (h : s.textLen.toNat ≤ s.params.textCap) :
    countFreqStage s = .done s.counted := by
  rcases countFreqStage_cases s with ⟨hlong, -⟩ | ⟨-, hdone⟩
  · omega
  · exact hdone

theorem buildTreeStage_done {s : State} (h : leafTotal s.freq ≠ 0) : buildTreeStage s = .done s.built := by
  rcases buildTreeStage_cases s with ⟨h0, -⟩ | ⟨-, hdone⟩
  · exact absurd h0 h
  · exact hdone

theorem genCodesStage_done {s : State} {leaves : List CodePair} (hv : s.status.treeValid = true)
    (hw : s.treeCodes = .ok leaves) : genCodesStage s = .done (s.generated leaves) := by
  rcases genCodesStage_cases s with ⟨hf, -⟩ | ⟨-, f, hf, -⟩ | ⟨-, ls, hls, hdone⟩
  · simp [hv] at hf
  · simp [hw] at hf
  · obtain rfl : leaves = ls := by simpa [hw] using hls
    exact hdone

/-- The walk after COUNT_FREQ and BUILD_TREE records the codes of the tree of the text's counts. -/
theorem BuiltTree.treeCodes_counted_built {s : State} {x : HTree} (h : BuiltTree (textCounts s.textInput) x) :
    s.counted.built.treeCodes = .ok (x.codes []) :=
  h.treeCodes_eq rfl rfl

/-- R132: what ENCODE answers on a non-empty text within TEXT_CAP is what SERIALIZE answers after the three stages before
it. -/
theorem exec_encode_eq_serialize {s : State} (hcap : s.textLen.toNat ≤ s.params.textCap) (hne : s.textLen ≠ 0#32) :
    ∃ x, BuiltTree (textCounts s.textInput) x ∧
      exec .encode s = exec .serialize (s.counted.built.generated (x.codes [])) := by
  have h0 := State.leafTotal_textCounts_ne_zero hne
  obtain ⟨x, hx⟩ := builtTree _ h0
  have hchecks : encodeChecks s = .done s := by
    rcases encodeChecks_cases s with ⟨hlong, -⟩ | ⟨-, hz, -⟩ | ⟨-, -, hdone⟩
    · omega
    · exact absurd hz hne
    · exact hdone
  refine ⟨x, hx, ?_⟩
  calc exec .encode s
    _ = runStages [countFreqStage, buildTreeStage, genCodesStage, serializeStage] s := runStages_of_done hchecks _
    _ = runStages [buildTreeStage, genCodesStage, serializeStage] s.counted :=
        runStages_of_done (countFreqStage_done hcap) _
    _ = runStages [genCodesStage, serializeStage] s.counted.built := runStages_of_done (buildTreeStage_done h0) _
    _ = exec .serialize (s.counted.built.generated (x.codes [])) :=
        runStages_of_done (genCodesStage_done s.counted.built_treeValid hx.treeCodes_counted_built) _

/-- R132: everything ENCODE can answer as a next state: an error of one of its two checks, or what SERIALIZE answers with
the codes of the tree of the text's counts. -/
theorem exec_encode_next {s t : State} (h : exec .encode s = .next t) :
    t = s.complete Err.length.code ∨ t = s.complete Err.emptyText.code ∨
    (s.textLen.toNat ≤ s.params.textCap ∧ s.textLen ≠ 0#32 ∧ ∃ x, BuiltTree (textCounts s.textInput) x ∧
      exec .serialize (s.counted.built.generated (x.codes [])) = .next t) := by
  rcases encodeChecks_cases s with ⟨-, hr⟩ | ⟨-, -, hr⟩ | ⟨hcap, hne, -⟩
  · exact .inl (Host.Outcome.next.inj (h.symm.trans (runStages_of_raised hr _)))
  · exact .inr (.inl (Host.Outcome.next.inj (h.symm.trans (runStages_of_raised hr _))))
  · obtain ⟨x, hx, heq⟩ := exec_encode_eq_serialize hcap hne
    exact .inr (.inr ⟨hcap, hne, x, hx, heq ▸ h⟩)

/-! ### The bound (R9, R133) -/

/-- R130: where the codes of the text fit BITS_CAP, SERIALIZE does not end with BITS_OVERFLOW, and with OK it leaves a
bit-string no longer than those codes. -/
theorem exec_serialize_of_fits {s t : State} (hfit : totalLen s.ct s.textInput ≤ s.params.bitsCap)
    (h : exec .serialize s = .next t) :
    t.status.errCode ≠ 3#8 ∧ (t.status.errCode = 0#8 → t.bitsLen.toNat ≤ totalLen s.ct s.textInput) := by
  have raised : ∀ e, serializeStage s = .raised e → t.status.errCode = e.code := by
    intro e hr
    obtain rfl : s.complete e.code = t := Host.Outcome.next.inj ((runStages_of_raised hr []).symm.trans h)
    rfl
  rcases serializeStage_cases s with ⟨-, hr⟩ | ⟨-, -, hr⟩ | ⟨-, -, hlong, -⟩ | ⟨-, -, -, hd⟩
  · simp [raised _ hr, Err.code]
  · simp [raised _ hr, Err.code]
  · omega
  · obtain rfl : State.complete _ 0#8 = t := Host.Outcome.next.inj ((runStages_of_done hd []).symm.trans h)
    refine ⟨by simp, fun _ => ?_⟩
    rw [State.complete_bitsLen, BitVec.toNat_ofNat]
    exact Nat.mod_le _ _

/-- R9, R133: the codes ENCODE generates take at most eight characters for each byte of the text. -/
theorem BuiltTree.totalLen_generated_le {s : State} {x : HTree} (h : BuiltTree (textCounts s.textInput) x)
    (hne : s.textLen ≠ 0#32) : totalLen (codeTable (x.codes [])) s.textInput ≤ 8 * s.textLen.toNat := by
  have hlen := s.length_textInput
  rw [← hlen]
  exact h.totalLen_le (State.leafTotal_textCounts_ne_zero hne) _ s.textCounts_entry_toNat (hlen.trans_lt s.textLen.isLt)

/-- Settles O47: an error of the two checks is not BITS_OVERFLOW, and past them the text is within TEXT_CAP, so its codes
take at most 8 * TEXT_LEN <= 8 * TEXT_CAP <= BITS_CAP characters. -/
theorem encodeNeverOverflowsEightTimesTheText : Obligations.EncodeNeverOverflowsEightTimesTheText := by
  intro s t hbits h
  rcases exec_encode_next h with rfl | rfl | ⟨hcap, hne, x, hx, hs⟩
  · simp [Err.code]
  · simp [Err.code]
  · have hbound := hx.totalLen_generated_le hne
    have hfit : totalLen (codeTable (x.codes [])) s.textInput ≤ s.params.bitsCap := by omega
    obtain ⟨herr, hok⟩ := exec_serialize_of_fits (by simpa using hfit) hs
    exact ⟨herr, fun h0 => (hok h0).trans (by simpa using hbound)⟩

end Sys2Proof.Machine
end

section
/-! PROOFS. Commands as lists of stages (R112): the state each stage leaves when it ends with its effect, what a
property that all stages of a command keep says of the command, and everything ENCODE and DECODE can answer. -/

namespace Sys2Proof.Machine

/-! ### The stages of a command -/

/-- The stages each command runs, in order (R114 to R161). -/
def commandStages : Instr → List (State → StageResult)
  | .nop => []
  | .clear => [clearStage]
  | .countFreq => [countFreqStage]
  | .buildTree => [buildTreeStage]
  | .genCodes => [genCodesStage]
  | .serialize => [serializeStage]
  | .encode => [encodeChecks, countFreqStage, buildTreeStage, genCodesStage, serializeStage]
  | .buildDecodeTree => [buildDecodeTreeStage]
  | .deserialize => [deserializeStage]
  | .decode => [buildDecodeTreeStage, deserializeStage]

theorem exec_eq_runStages (i : Instr) (s : State) : exec i s = runStages (commandStages i) s := by
  cases i <;> rfl

/-- What holds of the eight stages holds of every stage of a command. -/
theorem forall_commandStages {Q : (State → StageResult) → Prop} (clear : Q clearStage) (checks : Q encodeChecks)
    (countFreq : Q countFreqStage) (buildTree : Q buildTreeStage) (genCodes : Q genCodesStage)
    (serialize : Q serializeStage) (buildDecodeTree : Q buildDecodeTreeStage) (deserialize : Q deserializeStage)
    (i : Instr) : ∀ stage ∈ commandStages i, Q stage := by
  cases i <;> simp [commandStages, *]

/-- A stage keeps a property where its effect does; with an error it changes nothing anyway. -/
def StageKeeps (P : State → Prop) (stage : State → StageResult) : Prop :=
  ∀ ⦃s s' : State⦄, stage s = .done s' → P s → P s'

/-- A property that every stage keeps holds at the end, before the result code (R181) is written. -/
theorem runStages_keeps {P : State → Prop} {stages : List (State → StageResult)}
    (hk : ∀ stage ∈ stages, StageKeeps P stage) {s t : State} (hs : P s) (h : runStages stages s = .next t) :
    ∃ u c, P u ∧ c.toNat ≤ 10 ∧ t = u.complete c := by
  induction stages generalizing s with
  | nil => exact ⟨s, 0#8, hs, by decide, Host.Outcome.next.inj h.symm⟩
  | cons stage rest ih =>
    rw [runStages_cons] at h
    split at h
    · rename_i s' hd
      exact ih (fun q hq => hk q (List.mem_cons_of_mem _ hq)) (hk stage List.mem_cons_self hd hs) h
    · rename_i e _
      exact ⟨s, e.code, hs, e.code_le, Host.Outcome.next.inj h.symm⟩
    · cases h

theorem exec_keeps {P : State → Prop} {i : Instr} (hk : ∀ stage ∈ commandStages i, StageKeeps P stage) {s t : State}
    (hs : P s) (h : exec i s = .next t) : ∃ u c, P u ∧ c.toNat ≤ 10 ∧ t = u.complete c :=
  runStages_keeps hk hs (exec_eq_runStages i s ▸ h)

/-- What the stages of a command leave, and the result code does not touch, the command leaves. -/
theorem exec_eq_of_keeps {α : Type} (f : State → α) (hf : ∀ u c, f (u.complete c) = f u) {i : Instr} {s t : State}
    (hk : ∀ stage ∈ commandStages i, StageKeeps (fun u => f u = f s) stage) (h : exec i s = .next t) : f t = f s := by
  obtain ⟨u, c, hu, -, rfl⟩ := exec_keeps hk rfl h
  rw [hf, hu]

/-! ### The state each stage leaves; `counted`, `built` and `generated` are those of the encoder's first three -/

/-- The state CLEAR leaves (R115). -/
def State.cleared (s : State) : State :=
  { s with
    freq := Table.tabulate (fun _ => 0#32)
    ct := Table.tabulate (fun _ => CtEntry.absent)
    leafCount := 0#9
    root := 0#9
    nodeCount := 0#10
    minLen := 0#8
    maxLen := 0#8
    dropCount := 0#32
    status := { s.status with treeValid := false, trieValid := false, degenerate := false }
    trie := [] }

/-- The state SERIALIZE leaves where the codes of the text fit (R130). -/
def State.serialized (s : State) : State :=
  { s with
    bits := Sparse.overwrite s.bits ((bitString s.ct s.textInput).map byteOfBit)
    bitsLen := BitVec.ofNat 32 (totalLen s.ct s.textInput) }

/-- The state BUILD_DECODE_TREE leaves of a table that passes its checks (R152). -/
def State.captured (s : State) : State :=
  { s with
    trie := decodableSet s.ct
    minLen := BitVec.ofNat 8 (minDecodable s.ct)
    maxLen := BitVec.ofNat 8 (maxDecodable s.ct)
    status := { s.status with trieValid := true } }

/-- The state DESERIALIZE leaves of an empty bit-string where TRIE is empty (R158). -/
def State.emptied (s : State) : State := { s with textLen := 0#32, dropCount := 0#32 }

/-- The state DESERIALIZE leaves where the decoded text fits (R155). -/
def State.decoded (s : State) : State :=
  { s with
    text := Sparse.overwrite s.text (scanBits s.trie s.charInput).out
    textLen := BitVec.ofNat 32 (scanBits s.trie s.charInput).out.length
    dropCount := s.bitsLen - BitVec.ofNat 32 (scanBits s.trie s.charInput).last }

@[simp] theorem State.generated_treeValid (s : State) (leaves : List CodePair) :
    (s.generated leaves).status.treeValid = s.status.treeValid := rfl
@[simp] theorem State.generated_trieValid (s : State) (leaves : List CodePair) :
    (s.generated leaves).status.trieValid = false := rfl
@[simp] theorem State.serialized_status (s : State) : s.serialized.status = s.status := rfl
@[simp] theorem State.captured_trieValid (s : State) : s.captured.status.trieValid = true := rfl

variable {s s' : State}

theorem clearStage_inv (h : clearStage s = .done s') : s' = s.cleared := StageResult.done.inj h.symm

theorem encodeChecks_inv (h : encodeChecks s = .done s') : s' = s := by
  rcases encodeChecks_cases s with ⟨-, hr⟩ | ⟨-, -, hr⟩ | ⟨-, -, hr⟩ <;> rw [hr] at h <;> cases h
  rfl

theorem countFreqStage_inv (h : countFreqStage s = .done s') : s' = s.counted := by
  rcases countFreqStage_cases s with ⟨-, hr⟩ | ⟨-, hr⟩ <;> rw [hr] at h <;> cases h
  rfl

theorem buildTreeStage_inv (h : buildTreeStage s = .done s') : leafTotal s.freq ≠ 0 ∧ s' = s.built := by
  rcases buildTreeStage_cases s with ⟨-, hr⟩ | ⟨h0, hr⟩ <;> rw [hr] at h <;> cases h
  exact ⟨h0, rfl⟩

theorem genCodesStage_inv (h : genCodesStage s = .done s') : ∃ leaves, s' = s.generated leaves := by
  rcases genCodesStage_cases s with ⟨-, hr⟩ | ⟨-, _, -, hr⟩ | ⟨-, leaves, -, hr⟩ <;> rw [hr] at h <;> cases h
  exact ⟨leaves, rfl⟩

theorem serializeStage_inv (h : serializeStage s = .done s') :
    totalLen s.ct s.textInput ≤ s.params.bitsCap ∧ s' = s.serialized := by
  rcases serializeStage_cases s with ⟨-, hr⟩ | ⟨-, -, hr⟩ | ⟨-, -, -, hr⟩ | ⟨-, -, hfit, hr⟩ <;>
    rw [hr] at h <;> cases h
  exact ⟨hfit, rfl⟩

theorem buildDecodeTreeStage_inv (h : buildDecodeTreeStage s = .done s') :
    prefixClash (decodableSet s.ct) = false ∧ trieNodes (decodableSet s.ct) ≤ s.params.trieCap ∧ s' = s.captured := by
  rcases buildDecodeTreeStage_cases s with ⟨-, hr⟩ | ⟨hp, hn, hr⟩ <;> rw [hr] at h <;> cases h
  exact ⟨hp, hn, rfl⟩

theorem deserializeStage_inv (h : deserializeStage s = .done s') :
    s' = s.emptied ∨ (scanBits s.trie s.charInput).out.length ≤ s.params.textCap ∧ s' = s.decoded := by
  rcases deserializeStage_cases s with ⟨-, hr⟩ | ⟨-, -, hr⟩ | ⟨-, -, -, -, hr⟩ | ⟨-, -, -, -, hr⟩ | ⟨-, -, -, -, hr⟩ |
    ⟨-, -, -, hfit, hr⟩ <;> rw [hr] at h <;> cases h
  · exact .inl rfl
  · exact .inr ⟨hfit, rfl⟩

/-! ### A stage keeps what its effect keeps -/

variable {P : State → Prop}

theorem StageKeeps.clear (h : ∀ s, P s → P s.cleared) : StageKeeps P clearStage :=
  fun s _ hd hs => clearStage_inv hd ▸ h s hs

theorem StageKeeps.checks : StageKeeps P encodeChecks := fun _ _ hd hs => encodeChecks_inv hd ▸ hs

theorem StageKeeps.countFreq (h : ∀ s, P s → P s.counted) : StageKeeps P countFreqStage :=
  fun s _ hd hs => countFreqStage_inv hd ▸ h s hs

theorem StageKeeps.buildTree (h : ∀ s, leafTotal s.freq ≠ 0 → P s → P s.built) : StageKeeps P buildTreeStage := by
  intro s s' hd hs
  obtain ⟨h0, rfl⟩ := buildTreeStage_inv hd
  exact h s h0 hs

theorem StageKeeps.genCodes (h : ∀ s leaves, P s → P (s.generated leaves)) : StageKeeps P genCodesStage := by
  intro s s' hd hs
  obtain ⟨leaves, rfl⟩ := genCodesStage_inv hd
  exact h s leaves hs

theorem StageKeeps.serialize (h : ∀ s, totalLen s.ct s.textInput ≤ s.params.bitsCap → P s → P s.serialized) :
    StageKeeps P serializeStage := by
  intro s s' hd hs
  obtain ⟨hfit, rfl⟩ := serializeStage_inv hd
  exact h s hfit hs

theorem StageKeeps.buildDecodeTree (h : ∀ s, prefixClash (decodableSet s.ct) = false →
    trieNodes (decodableSet s.ct) ≤ s.params.trieCap → P s → P s.captured) : StageKeeps P buildDecodeTreeStage := by
  intro s s' hd hs
  obtain ⟨hp, hn, rfl⟩ := buildDecodeTreeStage_inv hd
  exact h s hp hn hs

theorem StageKeeps.deserialize (h0 : ∀ s, P s → P s.emptied)
    (h : ∀ s, (scanBits s.trie s.charInput).out.length ≤ s.params.textCap → P s → P s.decoded) :
    StageKeeps P deserializeStage := by
  intro s s' hd hs
  rcases deserializeStage_inv hd with rfl | ⟨hfit, rfl⟩
  · exact h0 s hs
  · exact h s hfit hs

/-! ### Everything a command can answer -/

variable {t : State}

theorem exec_clear_next (h : exec .clear s = .next t) : t = s.cleared.complete 0#8 := Host.Outcome.next.inj h.symm

theorem exec_buildTree_next (h : exec .buildTree s = .next t) :
    t = s.built.complete 0#8 ∨ t = s.complete Err.emptyText.code := by
  rcases buildTreeStage_cases s with ⟨-, hr⟩ | ⟨-, hr⟩
  · exact .inr (Host.Outcome.next.inj (h.symm.trans (runStages_of_raised hr [])))
  · exact .inl (Host.Outcome.next.inj (h.symm.trans (runStages_of_done hr [])))

theorem exec_genCodes_next (h : exec .genCodes s = .next t) :
    (∃ leaves, t = (s.generated leaves).complete 0#8) ∨ t = s.complete Err.noTree.code := by
  rcases genCodesStage_cases s with ⟨-, hr⟩ | ⟨-, f, -, hr⟩ | ⟨-, leaves, -, hr⟩
  · exact .inr (Host.Outcome.next.inj (h.symm.trans (runStages_of_raised hr [])))
  · have hf : exec .genCodes s = .fault f := by
      rw [exec_eq_runStages, commandStages, runStages_cons, hr]
    rw [hf] at h
    cases h
  · exact .inl ⟨leaves, Host.Outcome.next.inj (h.symm.trans (runStages_of_done hr []))⟩

theorem exec_buildDecodeTree_next (h : exec .buildDecodeTree s = .next t) :
    t = s.captured.complete 0#8 ∨
    (prefixClash (decodableSet s.ct) = true ∨ s.params.trieCap < trieNodes (decodableSet s.ct)) ∧
      t = s.complete Err.tableInvalid.code := by
  rcases buildDecodeTreeStage_cases s with ⟨hbad, hr⟩ | ⟨-, -, hr⟩
  · exact .inr ⟨hbad, Host.Outcome.next.inj (h.symm.trans (runStages_of_raised hr []))⟩
  · exact .inl (Host.Outcome.next.inj (h.symm.trans (runStages_of_done hr [])))

/-- R161: DECODE ends with TABLE_INVALID, or as DESERIALIZE does on the captured table. -/
theorem exec_decode_next (h : exec .decode s = .next t) :
    t = s.complete Err.tableInvalid.code ∨ exec .deserialize s.captured = .next t := by
  rcases buildDecodeTreeStage_cases s with ⟨-, hr⟩ | ⟨-, -, hr⟩
  · exact .inl (Host.Outcome.next.inj (h.symm.trans (runStages_of_raised hr _)))
  · exact .inr ((runStages_of_done hr _).symm.trans h)

/-- DESERIALIZE leaves TRIE_VALID and never ends with TABLE_INVALID (R184). -/
theorem exec_deserialize_next (h : exec .deserialize s = .next t) :
    t.status.trieValid = s.status.trieValid ∧ t.status.errCode ≠ 6#8 := by
  rcases runStages_one_next h with ⟨u, hd, rfl⟩ | ⟨e, hr, rfl⟩
  · refine ⟨?_, by simp⟩
    rcases deserializeStage_inv hd with rfl | ⟨-, rfl⟩ <;> rfl
  · refine ⟨rfl, ?_⟩
    rw [State.complete_errCode]
    rcases deserializeStage_cases s with ⟨-, hc⟩ | ⟨-, -, hc⟩ | ⟨-, -, -, -, hc⟩ | ⟨-, -, -, -, hc⟩ |
      ⟨-, -, -, -, hc⟩ | ⟨-, -, -, -, hc⟩ <;> rw [hc] at hr <;> cases hr <;> decide

/-- R128: every symbol with a count has an entry in the table made of the tree's codes. -/
theorem BuiltTree.codeTable_valid {f : Table Word} {x : HTree} (h : BuiltTree f x) {c : Byte} (hc : f.entry c ≠ 0#32) :
    ((codeTable (x.codes [])).entry c).valid = true := by
  have hsym : (x.codes []).map CodePair.symbol = x.leaves.map Prod.snd := x.codes_symbols []
  have hmem : c ∈ (x.codes []).map CodePair.symbol := hsym ▸ (h.mem_symbols c).2 hc
  obtain ⟨e, he, rfl⟩ := List.mem_map.1 hmem
  rw [entry_codeTable_of_mem _ (hsym ▸ h.symbols_nodup) he]
  rfl

theorem State.textCounts_entry_ne_zero {b : Byte} (h : b ∈ s.textInput) : (textCounts s.textInput).entry b ≠ 0#32 := by
  intro h0
  have hcount := s.textCounts_entry_toNat b
  rw [h0] at hcount
  exact absurd hcount.symm (List.count_pos_iff.2 h).ne'

/-- R132: ENCODE fails one of its two checks, or has a tree and its codes, and then ends with BITS_OVERFLOW or OK; no
symbol of the text is absent from the table. -/
theorem exec_encode_cases (h : exec .encode s = .next t) :
    t = s.complete Err.length.code ∨ t = s.complete Err.emptyText.code ∨
    ∃ leaves, t = (s.counted.built.generated leaves).complete Err.bitsOverflow.code ∨
      t = (s.counted.built.generated leaves).serialized.complete 0#8 := by
  rcases exec_encode_next h with ht | ht | ⟨hcap, -, x, hx, hs⟩
  · exact .inl ht
  · exact .inr (.inl ht)
  refine .inr (.inr ⟨x.codes [], ?_⟩)
  rcases serializeStage_cases (s.counted.built.generated (x.codes [])) with
    ⟨hlong, -⟩ | ⟨-, ⟨b, hb, habsent⟩, -⟩ | ⟨-, -, -, hr⟩ | ⟨-, -, -, hr⟩
  · exact absurd hcap (Nat.not_le.2 hlong)
  · have hvalid := hx.codeTable_valid (State.textCounts_entry_ne_zero hb)
    rw [State.generated_ct, hvalid] at habsent
    cases habsent
  · exact .inl (Host.Outcome.next.inj (hs.symm.trans (runStages_of_raised hr [])))
  · exact .inr (Host.Outcome.next.inj (hs.symm.trans (runStages_of_done hr [])))

end Sys2Proof.Machine
end

section
/-! PROOFS. Host accesses: which region an offset lies in (R62), what an accepted access to a known region answers (R64,
R75), what a write leaves of the flags of STATUS, and everything one operation of the host does to the block (R76). -/

namespace Sys2Proof.Machine

/-! ### The address map (R62) -/

/-- The map by ranges: the registers, the three windows a host may write, and what ignores writes. -/
theorem regionAt_cases (a : Nat) :
    (a < 0x0003C ∧ regionAt a = regAt (a / 4)) ∨
    (0x02000 ≤ a ∧ a < 0x06000 ∧ regionAt a = .ct (BitVec.ofNat 8 ((a - 0x02000) / 64)) ((a - 0x02000) % 64 / 4)) ∨
    (0x10000 ≤ a ∧ a < 0x20000 ∧ regionAt a = .text ((a - 0x10000) / 4)) ∨
    (0x80000 ≤ a ∧ regionAt a = .bits ((a - 0x80000) / 4)) ∨
    (((0x0003C ≤ a ∧ a < 0x02000) ∨ (0x06000 ≤ a ∧ a < 0x10000) ∨ (0x20000 ≤ a ∧ a < 0x80000)) ∧
      (regionAt a = .reserved ∨ (∃ c, regionAt a = .freq c) ∨ ∃ i second, regionAt a = .node i second)) := by
  generalize hr : regionAt a = r
  unfold regionAt at hr
  split_ifs at hr <;> subst hr
  · exact .inl ⟨‹_›, rfl⟩
  · exact .inr (.inr (.inr (.inr ⟨by omega, .inl rfl⟩)))
  · exact .inr (.inr (.inr (.inr ⟨by omega, .inr (.inl ⟨_, rfl⟩)⟩)))
  · exact .inr (.inr (.inr (.inr ⟨by omega, .inl rfl⟩)))
  · exact .inr (.inr (.inr (.inr ⟨by omega, .inr (.inr ⟨_, _, rfl⟩)⟩)))
  · exact .inr (.inr (.inr (.inr ⟨by omega, .inl rfl⟩)))
  · exact .inr (.inl ⟨by omega, by omega, rfl⟩)
  · exact .inr (.inr (.inr (.inr ⟨by omega, .inl rfl⟩)))
  · exact .inr (.inr (.inl ⟨by omega, by omega, rfl⟩))
  · exact .inr (.inr (.inr (.inr ⟨by omega, .inl rfl⟩)))
  · exact .inr (.inr (.inr (.inl ⟨by omega, rfl⟩)))

/-- R75: what a busy block drops stands at the input offsets. -/
theorem droppedWhileBusy_regionAt (a : Nat) : (regionAt a).droppedWhileBusy = true ↔ InputOffset a := by
  have hreg : ∀ n < 15, (regAt n).droppedWhileBusy = true ↔ 6 ≤ n ∧ n < 9 := by decide
  rcases regionAt_cases a with ⟨h, hr⟩ | ⟨h1, h2, hr⟩ | ⟨h1, h2, hr⟩ | ⟨h, hr⟩ | ⟨h, hr | ⟨_, hr⟩ | ⟨_, _, hr⟩⟩ <;>
    rw [hr]
  · rw [hreg _ (by omega)]
    omega
  all_goals
    simp only [Region.droppedWhileBusy, true_iff, Bool.false_eq_true, false_iff]
    omega

/-- R27, R62: STATUS stands at 0x014 alone. -/
theorem regionAt_eq_status {a : Nat} (h : regionAt a = .reg .status) : 0x00014 ≤ a ∧ a < 0x00018 := by
  have hreg : ∀ n < 15, regAt n = .reg .status → n = 5 := by decide
  rcases regionAt_cases a with ⟨hlt, hr⟩ | ⟨-, -, hr⟩ | ⟨-, -, hr⟩ | ⟨-, hr⟩ | ⟨-, hr | ⟨_, hr⟩ | ⟨_, _, hr⟩⟩ <;>
    rw [hr] at h
  · have := hreg _ (by omega) h
    omega
  all_goals cases h

/-- R62: at each of the first fifteen words stands a register. -/
theorem regAt_eq_reg {n : Nat} (h : n < 15) : ∃ r, regAt n = .reg r := by
  interval_cases n <;> exact ⟨_, rfl⟩

/-! ### An accepted access to a known region -/

variable (s : State)

/-- R75: a region that reads its defined value does so without a change. -/
theorem State.busRead_of_region {off : Offset} (ha : off.toNat % 4 = 0) {r : Region} (hr : regionAt off.toNat = r)
    (h : s.status.busy = false ∨ r.readableWhileBusy = true) :
    s.busRead 4 off = ⟨.okay, s.regionWord r, s⟩ := by
  simp only [State.busRead, accessAccepted_word ha, hr, if_true]
  rcases h with h | h <;> simp [h]

/-- R75: a write that BUSY does not drop is carried out. -/
theorem State.busWrite_of_region {off : Offset} (ha : off.toNat % 4 = 0) {r : Region} (hr : regionAt off.toNat = r)
    (h : s.status.busy = false ∨ r.droppedWhileBusy = false) (v : Word) :
    s.busWrite 4 off v = ⟨.okay, s.writeRegion r v⟩ := by
  simp only [State.busWrite, accessAccepted_word ha, hr, if_true]
  rcases h with h | h <;> simp [h]

/-! ### What a write leaves of the flags -/

theorem State.writeRegion_treeValid (r : Region) (v : Word) :
    (s.writeRegion r v).status.treeValid = s.status.treeValid := by
  cases r with
  | reg r => cases r <;> rfl
  | ct c w =>
    simp only [State.writeRegion, State.writeCt]
    split <;> rfl
  | _ => rfl

/-- R32, R71: words 0 to 8 of a code-table entry clear TRIE_VALID. -/
theorem State.writeRegion_ct_trieValid (c : Byte) (w : Nat) (v : Word) :
    (s.writeRegion (.ct c w) v).status.trieValid = (s.status.trieValid && !decide (w ≤ 8)) := by
  simp only [State.writeRegion, State.writeCt]
  split <;> simp [*]

theorem State.writeRegion_trieValid {r : Region} (h : ∀ c w, r ≠ .ct c w) (v : Word) :
    (s.writeRegion r v).status.trieValid = s.status.trieValid := by
  cases r with
  | reg r => cases r <;> rfl
  | ct c w => exact absurd rfl (h c w)
  | _ => rfl

/-- R27: a write to STATUS may clear OVERRUN. -/
theorem State.writeRegion_status_overrun (v : Word) :
    (s.writeRegion (.reg .status) v).status.overrun = (s.status.overrun && !v.getLsbD 2) := rfl

theorem State.writeRegion_overrun {r : Region} (h : r ≠ .reg .status) (v : Word) :
    (s.writeRegion r v).status.overrun = s.status.overrun := by
  cases r with
  | reg r =>
    cases r with
    | status => exact absurd rfl h
    | _ => rfl
  | ct c w =>
    simp only [State.writeRegion, State.writeCt]
    split <;> rfl
  | _ => rfl

/-- R31: no write changes TREE_VALID. -/
theorem State.busWrite_treeValid (size : Nat) (off : Offset) (v : Word) :
    (s.busWrite size off v).state.status.treeValid = s.status.treeValid := by
  rcases s.busWrite_cases size off v with ⟨-, hw⟩ | ⟨-, -, -, hw⟩ | ⟨-, -, hw⟩ <;> rw [hw]
  · rfl
  · exact s.writeRegion_treeValid _ v

/-- R32, R71, R75: an accepted write clears TRIE_VALID exactly where it reaches words 0 to 8 of an entry. -/
theorem State.busWrite_trieValid {off : Offset} (ha : off.toNat % 4 = 0) (v : Word) :
    (s.busWrite 4 off v).state.status.trieValid =
      (s.status.trieValid && !(!s.status.busy && decide (0x2000 ≤ off.toNat ∧ off.toNat < 0x6000 ∧
        (off.toNat - 0x2000) % 64 < 36))) := by
  rcases s.busWrite_cases 4 off v with ⟨hrej, -⟩ | ⟨-, hb, -, hw⟩ | ⟨-, hnd, hw⟩
  · rw [accessAccepted_word ha] at hrej
    cases hrej
  · rw [hw, hb]
    simp [State.dropWrite]
  · rw [hw]
    have outside : ¬ (0x2000 ≤ off.toNat ∧ off.toNat < 0x6000) → (∀ c w, regionAt off.toNat ≠ .ct c w) →
        (s.writeRegion (regionAt off.toNat) v).status.trieValid = (s.status.trieValid && !(!s.status.busy &&
          decide (0x2000 ≤ off.toNat ∧ off.toNat < 0x6000 ∧ (off.toNat - 0x2000) % 64 < 36))) := by
      intro hout hne
      rw [s.writeRegion_trieValid hne, decide_eq_false (by omega), Bool.and_false, Bool.not_false, Bool.and_true]
    rcases regionAt_cases off.toNat with ⟨h, hr⟩ | ⟨h1, h2, hr⟩ | ⟨h1, h2, hr⟩ | ⟨h, hr⟩ |
      ⟨h, hr | ⟨_, hr⟩ | ⟨_, _, hr⟩⟩
    · obtain ⟨r, hreg⟩ := regAt_eq_reg (n := off.toNat / 4) (by omega)
      exact outside (by omega) (by simp [hr, hreg])
    · have hb : s.status.busy = false := by simpa [hr, Region.droppedWhileBusy] using hnd
      have hword : (off.toNat - 0x2000) % 64 / 4 ≤ 8 ↔ 0x2000 ≤ off.toNat ∧ off.toNat < 0x6000 ∧
        (off.toNat - 0x2000) % 64 < 36 := by omega
      rw [hr, s.writeRegion_ct_trieValid, hb, decide_eq_decide.2 hword, Bool.not_false, Bool.true_and]
    all_goals exact outside (by omega) (by simp [hr])

/-- R27, R30: a write clears OVERRUN only as a write of STATUS with bit 2 set. -/
theorem State.busWrite_overrun_cleared {size : Nat} {off : Offset} {v : Word} (h1 : s.status.overrun = true)
    (h0 : (s.busWrite size off v).state.status.overrun = false) :
    size = 4 ∧ off = 0x014#20 ∧ v.getLsbD 2 = true := by
  rcases s.busWrite_cases size off v with ⟨-, hw⟩ | ⟨-, -, -, hw⟩ | ⟨hacc, -, hw⟩ <;> rw [hw] at h0
  · exact absurd h1 (by simpa using h0)
  · cases h0
  · by_cases hr : regionAt off.toNat = .reg .status
    · obtain ⟨hsize, ha⟩ : size = 4 ∧ off.toNat % 4 = 0 := by simpa [accessAccepted] using hacc
      have hrange := regionAt_eq_status hr
      have hoff : off.toNat = 0x14 := by omega
      rw [hr, s.writeRegion_status_overrun, h1] at h0
      exact ⟨hsize, BitVec.eq_of_toNat_eq hoff, by simpa using h0⟩
    · rw [s.writeRegion_overrun hr, h1] at h0
      cases h0

/-- R30, R75: a write raises OVERRUN only where a busy block drops it. -/
theorem State.busWrite_overrun_raised {size : Nat} {off : Offset} {v : Word} (h0 : s.status.overrun = false)
    (h1 : (s.busWrite size off v).state.status.overrun = true) :
    s.status.busy = true ∧ size = 4 ∧ off.toNat % 4 = 0 ∧ InputOffset off.toNat := by
  rcases s.busWrite_cases size off v with ⟨-, hw⟩ | ⟨hacc, hb, hd, hw⟩ | ⟨-, -, hw⟩ <;> rw [hw] at h1
  · exact absurd h1 (by simp [h0])
  · obtain ⟨hsize, ha⟩ : size = 4 ∧ off.toNat % 4 = 0 := by simpa [accessAccepted] using hacc
    exact ⟨hb, hsize, ha, (droppedWhileBusy_regionAt _).1 hd⟩
  · by_cases hr : regionAt off.toNat = .reg .status
    · rw [hr, s.writeRegion_status_overrun, h0] at h1
      cases h1
    · rw [s.writeRegion_overrun hr, h0] at h1
      cases h1

/-! ### One operation of the host -/

/-- Everything an operation of the host does to the block: a reset, a write, or nothing but a draw. -/
theorem State.perform_cases (op : HostOp) (rest : List HostOp) :
    (op = .reset ∧ s.perform op rest = s.afterRst.goOn rest) ∨
    (∃ size off v, op = .write size off v ∧ ∃ m, s.perform op rest = (s.busWrite size off v).state.withMaster m) ∨
    ∃ d m, s.perform op rest = { s with draws := d, master := m } := by
  by_cases hacc : op.accesses = false
  · by_cases hreset : op = .reset
    · exact .inl ⟨hreset, hreset ▸ rfl⟩
    · obtain ⟨script, hp, -⟩ := s.perform_of_no_access rest hacc hreset
      exact .inr (.inr ⟨s.draws, _, hp⟩)
  · cases op with
    | read size off =>
      obtain ⟨d, hd⟩ := s.busRead_state size off
      exact .inr (.inr ⟨d, _, by simp only [State.perform, hd]; rfl⟩)
    | write size off v => exact .inr (.inl ⟨size, off, v, rfl, _, rfl⟩)
    | expect off v mask =>
      obtain ⟨d, hd⟩ := s.busRead_state 4 off
      exact .inr (.inr ⟨d, _, by simp only [State.perform, hd]; rfl⟩)
    | wait =>
      obtain ⟨d, hd⟩ := s.busRead_state 4 statusOffset
      refine .inr (.inr ⟨d, ?_⟩)
      simp only [State.perform, hd]
      split <;> exact ⟨_, rfl⟩
    | _ => exact absurd rfl hacc

end Sys2Proof.Machine
end

section
/-! PROOFS. The registers (R22 to R43): what each reads and takes, busy or not, and what reset and the commands leave of
CTRL. -/

namespace Sys2Proof.Machine

/-! ### Bits of STATUS (R27) -/

theorem getLsbD_bitAt (b : Bool) {i j : Nat} (hj : j < 32) : (bitAt b i).getLsbD j = (decide (j = i) && b) := by
  rw [bitAt, BitVec.getLsbD_shiftLeft, BitVec.getLsbD_setWidth, BitVec.getLsbD_ofBool]
  by_cases h : j = i
  · simp [h, show i < 32 from h ▸ hj]
  · by_cases h2 : j < i
    · simp [h, h2]
    · simp [h, show j - i ≠ 0 by omega]

/-- R27: the bits of STATUS, the flags below bit 8 and ERR_CODE from there on. -/
theorem Status.getLsbD_word (t : Status) {j : Nat} (hj : j < 32) :
    t.word.getLsbD j = (!decide (j < 8) && t.errCode.getLsbD (j - 8) || decide (j = 5) && t.degenerate ||
      decide (j = 4) && t.trieValid || decide (j = 3) && t.treeValid || decide (j = 2) && t.overrun ||
      decide (j = 1) && t.done || decide (j = 0) && t.busy) := by
  simp only [Status.word, BitVec.getLsbD_or, BitVec.getLsbD_shiftLeft, BitVec.getLsbD_setWidth, getLsbD_bitAt _ hj, hj,
    decide_true, Bool.true_and, show j - 8 < 32 by omega]

theorem Status.extractLsb'_word_errCode (t : Status) : t.word.extractLsb' 8 8 = t.errCode := by
  apply BitVec.eq_of_getLsbD_eq
  intro j hj
  rw [BitVec.getLsbD_extractLsb', t.getLsbD_word (by omega)]
  simp [hj, show 8 + j ≠ 5 by omega, show 8 + j ≠ 4 by omega, show 8 + j ≠ 3 by omega, show 8 + j ≠ 2 by omega,
    show 8 + j ≠ 1 by omega]

theorem Status.extractLsb'_word_high (t : Status) : t.word.extractLsb' 16 16 = 0#16 := by
  apply BitVec.eq_of_getLsbD_eq
  intro j hj
  rw [BitVec.getLsbD_extractLsb', t.getLsbD_word (by omega), BitVec.getLsbD_of_ge t.errCode _ (by omega)]
  simp [show 16 + j ≠ 5 by omega, show 16 + j ≠ 4 by omega, show 16 + j ≠ 3 by omega, show 16 + j ≠ 2 by omega,
    show 16 + j ≠ 1 by omega]

/-- R27: "write 1 to clear", as a choice. -/
theorem Status.writeOneToClear_eq (t : Status) (v : Word) : t.writeOneToClear v = { t with
    done := if v.getLsbD 1 then false else t.done, overrun := if v.getLsbD 2 then false else t.overrun } := by
  rw [Status.writeOneToClear]
  cases v.getLsbD 1 <;> cases v.getLsbD 2 <;> simp

/-! ### The statements -/

/-- Settles O15: the four registers are readable and take no write whether the block is busy or not (R75). -/
theorem identificationRegistersAreConstant : Obligations.IdentificationRegistersAreConstant := by
  intro s v
  exact ⟨s.busRead_of_region rfl (r := .reg .id) rfl (.inr rfl),
    s.busRead_of_region rfl (r := .reg .capText) rfl (.inr rfl),
    s.busRead_of_region rfl (r := .reg .capBits) rfl (.inr rfl),
    s.busRead_of_region rfl (r := .reg .capTrie) rfl (.inr rfl),
    s.busWrite_of_region rfl (r := .reg .id) rfl (.inr rfl) v,
    s.busWrite_of_region rfl (r := .reg .capText) rfl (.inr rfl) v,
    s.busWrite_of_region rfl (r := .reg .capBits) rfl (.inr rfl) v,
    s.busWrite_of_region rfl (r := .reg .capTrie) rfl (.inr rfl) v⟩

/-- Settles O17: STATUS is readable and writable whether the block is busy or not (R75); its bits are those of
`Status.getLsbD_word`. -/
theorem statusReadsItsFieldsAndClearsOnOnes : Obligations.StatusReadsItsFieldsAndClearsOnOnes := by
  refine ⟨fun s => ?_, fun s v => ?_, rfl⟩
  · refine ⟨s.status.word, s.busRead_of_region rfl (r := .reg .status) rfl (.inr rfl), ?_, ?_, ?_, ?_, ?_, ?_, ?_, ?_,
      s.status.extractLsb'_word_errCode, s.status.extractLsb'_word_high⟩ <;>
      rw [Status.getLsbD_word _ (by decide)] <;> simp
  · rw [s.busWrite_of_region rfl (r := .reg .status) rfl (.inr rfl) v, State.writeRegion, Status.writeOneToClear_eq]

/-- Settles O18: with BUSY = 0 every region reads its word and takes its write (R75). -/
theorem registersReadTheirFields : Obligations.RegistersReadTheirFields := by
  intro s v hb
  have read : ∀ (off : Offset) (r : Reg), off.toNat % 4 = 0 → regionAt off.toNat = .reg r →
      s.busRead 4 off = ⟨.okay, s.regWord r, s⟩ := fun _ _ ha hr => s.busRead_of_region ha hr (.inl hb)
  simp only [BitVec.ofNat_toNat]
  exact ⟨read _ .command rfl rfl, read _ .textLen rfl rfl, read _ .bitsLen rfl rfl, read _ .root rfl rfl,
    read _ .nodeCount rfl rfl, read _ .leafCount rfl rfl, read _ .minLen rfl rfl, read _ .maxLen rfl rfl,
    read _ .dropCount rfl rfl, s.busWrite_of_region rfl (r := .reg .textLen) rfl (.inl hb) v,
    s.busWrite_of_region rfl (r := .reg .bitsLen) rfl (.inl hb) v⟩

end Sys2Proof.Machine
end

section
/-! PROOFS. What the commands and the host leave of the control state and of the three flags OVERRUN, TREE_VALID and
TRIE_VALID (R26, R30 to R32). -/

namespace Sys2Proof.Machine

/-! ### Control state (R26, R30, R35) -/

/-- The state no command writes: CTRL, OVERRUN, LAST_CMD, the parameters, the host and the model's own fields. -/
def State.control (s : State) : Bool × Bool × Word × Params × Bool × Master × Nat × Nat × Nat :=
  (s.irqEn, s.status.overrun, s.lastCmd, s.params, s.hasReset, s.master, s.latency, s.fill, s.draws)

theorem exec_control {i : Instr} {s t : State} (h : exec i s = .next t) : t.control = s.control :=
  exec_eq_of_keeps State.control (fun _ _ => rfl)
    (forall_commandStages (.clear fun _ hu => hu) .checks (.countFreq fun _ hu => hu) (.buildTree fun _ _ hu => hu)
      (.genCodes fun _ _ hu => hu) (.serialize fun _ _ hu => hu) (.buildDecodeTree fun _ _ _ hu => hu)
      (.deserialize (fun _ hu => hu) fun _ _ hu => hu) i) h

/-- Settles O11: no stage writes the control state, nor does the result code. -/
theorem commandsKeepHostAndControlState : Obligations.CommandsKeepHostAndControlState := by
  intro i s t h
  simpa only [State.control, Prod.mk.injEq] using exec_control h

theorem exec_overrun {i : Instr} {s t : State} (h : exec i s = .next t) : t.status.overrun = s.status.overrun := by
  obtain ⟨-, hoverrun, -⟩ := commandsKeepHostAndControlState i s t h
  exact hoverrun

/-- Settles O16: CTRL is readable and writable whether the block is busy or not (R75), and no command writes it. -/
theorem ctrlHoldsIrqEnable : Obligations.CtrlHoldsIrqEnable := by
  refine ⟨fun s v => ⟨?_, s.busWrite_of_region rfl (r := .reg .ctrl) rfl (.inr rfl) v⟩, rfl,
    fun i s t h => (commandsKeepHostAndControlState i s t h).1⟩
  have hword : s.ctrlWord = if s.irqEn then 1#32 else 0#32 := by
    rw [State.ctrlWord]
    cases s.irqEn <;> rfl
  rw [s.busRead_of_region rfl (r := .reg .ctrl) rfl (.inr rfl)]
  simp only [State.regionWord, State.regWord, hword]

/-! ### OVERRUN (R30) -/

/-- Everything a step does to OVERRUN: nothing, where it is no reset and no write. -/
theorem step_overrun_cases {s t : State} (h : step s = .next t) :
    t.status.overrun = s.status.overrun ∨
    (s.completionDue = false ∧ (∃ rest, s.master.script = .reset :: rest) ∧ t.status.overrun = false) ∨
    (s.completionDue = false ∧ ∃ size off v rest latency, s.master.script = .write size off v :: rest ∧
      t.status.overrun = (State.busWrite { s with latency := latency } size off v).state.status.overrun) := by
  rcases step_cases h with ⟨-, i, -, he⟩ | ⟨-, -, rfl⟩ | ⟨-, -, rfl⟩ | ⟨hd, op, rest, latency, hs, -, -, rfl⟩
  · exact .inl (exec_overrun he)
  · exact .inl rfl
  · exact .inl rfl
  rcases State.perform_cases { s with latency := latency } op rest with ⟨rfl, hp⟩ | ⟨size, off, v, rfl, m, hp⟩ |
    ⟨d, m, hp⟩ <;> rw [hp]
  · exact .inr (.inl ⟨hd, ⟨rest, hs⟩, rfl⟩)
  · exact .inr (.inr ⟨hd, size, off, v, rest, latency, hs, rfl⟩)
  · exact .inl rfl

/-- Settles O28: a completion leaves OVERRUN; of the host's operations only a reset and a write of STATUS clear it, and
only a dropped write raises it. -/
theorem overrunIsStickyAndRecordsADroppedWrite : Obligations.OverrunIsStickyAndRecordsADroppedWrite := by
  intro s t h
  rcases step_overrun_cases h with ht | ⟨hd, hs, ht⟩ | ⟨hd, size, off, v, rest, latency, hs, ht⟩ <;> rw [ht]
  · exact ⟨.inl, fun h0 h1 => absurd h1 (by simp [h0])⟩
  · exact ⟨fun _ => .inr ⟨hd, .inl hs⟩, fun _ h1 => absurd h1 (by decide)⟩
  · refine ⟨fun h1 => ?_, fun h0 h1 => ?_⟩
    · rw [or_iff_not_imp_left, Bool.not_eq_true]
      intro h0
      obtain ⟨rfl, rfl, hv⟩ := State.busWrite_overrun_cleared { s with latency := latency } h1 h0
      exact ⟨hd, .inr ⟨v, rest, hs, hv⟩⟩
    · obtain ⟨hb, rfl, ha, hin⟩ := State.busWrite_overrun_raised { s with latency := latency } h0 h1
      exact ⟨hb, hd, off, v, rest, hs, ha, hin⟩

/-! ### TREE_VALID (R31) -/

/-- A command without BUILD_TREE among its stages, and other than CLEAR, leaves TREE_VALID. -/
theorem exec_treeValid {i : Instr} (hc : i ≠ .clear) (hb : i ≠ .buildTree) (he : i ≠ .encode) {s t : State}
    (h : exec i s = .next t) : t.status.treeValid = s.status.treeValid := by
  refine exec_eq_of_keeps (fun u => u.status.treeValid) (fun _ _ => rfl) ?_ h
  cases i with
  | clear => exact absurd rfl hc
  | buildTree => exact absurd rfl hb
  | encode => exact absurd rfl he
  | nop => exact List.forall_mem_nil _
  | countFreq => exact List.forall_mem_singleton.2 (.countFreq fun _ hu => hu)
  | genCodes => exact List.forall_mem_singleton.2 (.genCodes fun _ _ hu => hu)
  | serialize => exact List.forall_mem_singleton.2 (.serialize fun _ _ hu => hu)
  | buildDecodeTree => exact List.forall_mem_singleton.2 (.buildDecodeTree fun _ _ _ hu => hu)
  | deserialize => exact List.forall_mem_singleton.2 (.deserialize (fun _ hu => hu) fun _ _ hu => hu)
  | decode =>
    exact List.forall_mem_cons.2 ⟨.buildDecodeTree fun _ _ _ hu => hu,
      List.forall_mem_singleton.2 (.deserialize (fun _ hu => hu) fun _ _ hu => hu)⟩

theorem perform_treeValid (s : State) (op : HostOp) (rest : List HostOp) (h : op ≠ .reset) :
    (s.perform op rest).status.treeValid = s.status.treeValid := by
  rcases s.perform_cases op rest with ⟨hop, -⟩ | ⟨size, off, v, -, m, hp⟩ | ⟨d, m, hp⟩
  · exact absurd hop h
  · rw [hp, State.withMaster_status, s.busWrite_treeValid]
  · rw [hp]

/-- Settles O29: BUILD_TREE and, past its checks, ENCODE set TREE_VALID; CLEAR and reset clear it; nothing else writes
it. -/
theorem treeValidFollowsBuildTree : Obligations.TreeValidFollowsBuildTree := by
  refine ⟨fun i s t h => ?_, fun s op rest => ?_, rfl⟩
  · cases i with
    | clear =>
      rw [exec_clear_next h]
      rfl
    | buildTree => rcases exec_buildTree_next h with rfl | rfl <;> simp [Err.code]
    | encode => rcases exec_encode_cases h with rfl | rfl | ⟨leaves, rfl | rfl⟩ <;> simp [Err.code]
    | _ => exact exec_treeValid (by decide) (by decide) (by decide) h
  · cases op with
    | reset => rfl
    | _ => exact perform_treeValid s _ rest nofun

/-! ### TRIE_VALID (R32) -/

/-- COUNT_FREQ, BUILD_TREE and SERIALIZE leave TRIE_VALID; NOP and DESERIALIZE do too. -/
theorem exec_trieValid {i : Instr} (hi : i ∈ [Instr.nop, .countFreq, .buildTree, .serialize, .deserialize])
    {s t : State} (h : exec i s = .next t) : t.status.trieValid = s.status.trieValid := by
  refine exec_eq_of_keeps (fun u => u.status.trieValid) (fun _ _ => rfl) ?_ h
  cases i with
  | nop => exact List.forall_mem_nil _
  | countFreq => exact List.forall_mem_singleton.2 (.countFreq fun _ hu => hu)
  | buildTree => exact List.forall_mem_singleton.2 (.buildTree fun _ _ hu => hu)
  | serialize => exact List.forall_mem_singleton.2 (.serialize fun _ _ hu => hu)
  | deserialize => exact List.forall_mem_singleton.2 (.deserialize (fun _ hu => hu) fun _ _ hu => hu)
  | _ => exact absurd hi (by decide)

/-- R32, R52: where TRIE_VALID is 1 in a state of the invariant, the table passes the checks of BUILD_DECODE_TREE. -/
theorem State.Inv.trieValid_of_bad_table {s : State} (hinv : s.Inv)
    (hbad : prefixClash (decodableSet s.ct) = true ∨ s.params.trieCap < trieNodes (decodableSet s.ct)) :
    s.status.trieValid = false := by
  by_contra hv
  have hm := hinv.trie (by simpa using hv)
  rw [← hm.trie, hm.prefixFree] at hbad
  rcases hbad with hclash | hnodes
  · cases hclash
  · exact absurd hm.fits (Nat.not_le.2 hnodes)

/-- Settles O30: each command by what its stages leave, a host write by the region it reaches. -/
theorem trieValidFollowsTheCodeTable : Obligations.TrieValidFollowsTheCodeTable := by
  refine ⟨fun i s t h => ?_, fun s off v ha => s.busWrite_trieValid ha v, fun s t hinv h herr => ?_, rfl⟩
  · cases i with
    | clear =>
      rw [exec_clear_next h]
      rfl
    | genCodes => rcases exec_genCodes_next h with ⟨leaves, rfl⟩ | rfl <;> simp [Err.code]
    | buildDecodeTree => rcases exec_buildDecodeTree_next h with rfl | ⟨-, rfl⟩ <;> simp [Err.code]
    | encode => rcases exec_encode_cases h with rfl | rfl | ⟨leaves, rfl | rfl⟩ <;> simp [Err.code]
    | decode =>
      rcases exec_decode_next h with rfl | hdes
      · simp [Err.code]
      · obtain ⟨hv, herr⟩ := exec_deserialize_next hdes
        simp [hv, herr]
    | _ => exact exec_trieValid (by decide) h
  · rcases exec_buildDecodeTree_next h with rfl | ⟨hbad, rfl⟩
    · exact absurd (State.complete_errCode _ _) herr
    · exact ⟨hinv.trieValid_of_bad_table hbad, hinv.trieValid_of_bad_table hbad⟩

end Sys2Proof.Machine
end

section
/-! PROOFS. Reset (R54, R220 to R222) and the invariant of the machine: it holds at reset, every stage of a command
keeps it, and so does everything the host does (R31, R32, R52, R127, R181). The invariant is taken apart into four
groups, each of which depends on a few fields only. -/

namespace Sys2Proof.Machine

/-! ### Reset -/

/-- R220 to R222: a reset the host makes where no completion is due, before the first reset or after it, is one step. -/
theorem step_reset {s : State} {rest : List HostOp} (hs : s.master.script = .reset :: rest)
    (h : s.hasReset = false ∨ s.completionDue = false) : step s = .next (s.afterRst.goOn rest) := by
  have hd : s.completionDue = false := by
    rcases h with h | h
    · simp [State.completionDue, h]
    · exact h
  rw [step, hd]
  cases hr : s.hasReset
  · simp [State.powerOnTurn, hs, HostOp.accesses, State.perform]
  · cases hb : s.status.busy
    · simp [State.hostTurn, hs, State.perform]
    · simp [State.countTurn, State.hostTurn, hs, State.perform, State.afterRst]

theorem Status.reset_word : Status.reset.word = 0#32 := by decide

/-- Settles O31: the step leaves `State.afterRst` under the rest of the script, whose fields are those of R54. -/
theorem resetGivesTheTable : Obligations.ResetGivesTheTable := by
  intro s rest hs h
  refine ⟨s.afterRst.goOn rest, step_reset hs h, rfl, rfl, rfl, Status.reset_word, rfl, rfl, rfl, rfl, rfl, rfl, rfl, rfl,
    rfl, fun c => Table.entry_replicate _ c, fun c => ?_, rfl, rfl, rfl, rfl, rfl, fun _ => rfl, fun _ => rfl,
    fun _ _ => rfl⟩
  rw [show (s.afterRst.goOn rest).ct.entry c = CtEntry.absent from Table.entry_replicate _ c]
  exact ⟨rfl, rfl, rfl⟩

/-! ### The groups of the invariant -/

/-- The part on the reset, the parameters and STATUS (R7, R28, R29, R34, R181, R221). -/
structure State.StatusOk (s : State) : Prop where
  hasReset : s.hasReset = true
  params : s.params.legal = true
  busyNotDone : s.status.busy = true → s.status.done = false
  busyNoError : s.status.busy = true → s.status.errCode = 0#8
  errCode : s.status.errCode.toNat ≤ 10

/-- The part on the two byte memories and LEAF_COUNT (R40, R45, R46). -/
structure State.StorageOk (s : State) : Prop where
  text : Memory.wf s.params.textCap s.text = true
  bits : Memory.wf s.params.bitsCap s.bits = true
  leafCount : s.leafCount.toNat ≤ 256

/-- The part on the arena and the tree in it (R31, R33, R39, R48, R127, R128). -/
structure State.TreeOk (s : State) : Prop where
  nodes : Sparse.wf Config.nodeCap s.nodes = true
  nodeCount : s.nodeCount.toNat ≤ 511
  degenerate : s.status.degenerate = true → s.status.treeValid = true
  tree : s.status.treeValid = true → ∃ n, s.TreeOf n
  walk : s.status.treeValid = true → s.WalkEnds

/-- The part on TRIE (R32, R52). -/
def State.TrieOk (s : State) : Prop := s.status.trieValid = true → s.TrieMatches

theorem State.inv_iff (s : State) : s.Inv ↔ s.StatusOk ∧ s.StorageOk ∧ s.TreeOk ∧ s.TrieOk :=
  ⟨fun h => ⟨⟨h.hasReset, h.params, h.busyNotDone, h.busyNoError, h.errCode⟩, ⟨h.text, h.bits, h.leafCount⟩,
    ⟨h.nodes, h.nodeCount, h.degenerate, h.tree, h.walk⟩, h.trie⟩,
  fun ⟨hu, hm, ht, hr⟩ => ⟨hu.hasReset, hu.params, hm.text, hm.bits, ht.nodes, hu.busyNotDone, hu.busyNoError,
    hu.errCode, hm.leafCount, ht.nodeCount, ht.degenerate, ht.tree, ht.walk, hr⟩⟩

/-- The fields `StatusOk` speaks of. -/
def State.statusPart (s : State) : Bool × Params × Bool × Bool × Byte :=
  (s.hasReset, s.params, s.status.busy, s.status.done, s.status.errCode)

/-- The fields `StorageOk` speaks of. -/
def State.storagePart (s : State) : Params × Memory × Memory × BitVec 9 := (s.params, s.text, s.bits, s.leafCount)

/-- The fields `TreeOk` speaks of. -/
def State.treePart (s : State) : Sparse Node × Nat × BitVec 9 × BitVec 10 × Bool × Bool :=
  (s.nodes, s.fill, s.root, s.nodeCount, s.status.treeValid, s.status.degenerate)

/-- The fields `TrieOk` speaks of. -/
def State.triePart (s : State) : List CodePair × Table CtEntry × Params × Byte × Byte × Bool :=
  (s.trie, s.ct, s.params, s.minLen, s.maxLen, s.status.trieValid)

variable {s t : State}

theorem State.StatusOk.congr (h : s.StatusOk) (e : t.statusPart = s.statusPart) : t.StatusOk := by
  simp only [State.statusPart, Prod.mk.injEq] at e
  obtain ⟨hr, hp, hb, hd, he⟩ := e
  exact ⟨hr ▸ h.hasReset, hp ▸ h.params, hb ▸ hd ▸ h.busyNotDone, hb ▸ he ▸ h.busyNoError, he ▸ h.errCode⟩

theorem State.StorageOk.congr (h : s.StorageOk) (e : t.storagePart = s.storagePart) : t.StorageOk := by
  simp only [State.storagePart, Prod.mk.injEq] at e
  obtain ⟨hp, ht, hb, hl⟩ := e
  exact ⟨hp ▸ ht ▸ h.text, hp ▸ hb ▸ h.bits, hl ▸ h.leafCount⟩

theorem State.TreeOk.congr (h : s.TreeOk) (e : t.treePart = s.treePart) : t.TreeOk := by
  simp only [State.treePart, Prod.mk.injEq] at e
  obtain ⟨hn, hf, hr, hc, hv, hd⟩ := e
  have hat : t.nodeAt = s.nodeAt := by
    funext i
    simp only [State.nodeAt, hn, hf]
  refine ⟨hn ▸ h.nodes, hc ▸ h.nodeCount, fun h1 => hv ▸ h.degenerate (hd ▸ h1), fun h1 => ?_, fun h1 => ?_⟩
  · obtain ⟨n, ht⟩ := h.tree (hv ▸ h1)
    exact ⟨n, ht.some_leaf, ht.at_most, hc ▸ ht.count, hr ▸ ht.root, hd ▸ ht.degenerate, hn ▸ ht.leaves,
      hat ▸ hn ▸ ht.internals⟩
  · rw [State.WalkEnds, State.treeCodes, hat, hr]
    exact h.walk (hv ▸ h1)

theorem State.TrieOk.congr (h : s.TrieOk) (e : t.triePart = s.triePart) : t.TrieOk := by
  simp only [State.triePart, Prod.mk.injEq] at e
  obtain ⟨ht, hc, hp, hmin, hmax, hv⟩ := e
  intro h1
  have hm := h (hv ▸ h1)
  exact ⟨ht ▸ hc ▸ hm.trie, ht ▸ hm.prefixFree, ht ▸ hp ▸ hm.fits, hmin ▸ hc ▸ hm.minLen, hmax ▸ hc ▸ hm.maxLen⟩

/-- With TREE_VALID = 0 there is nothing to say of the tree. -/
theorem State.TreeOk.of_invalid (hn : Sparse.wf Config.nodeCap s.nodes = true) (hc : s.nodeCount.toNat ≤ 511)
    (hd : s.status.degenerate = false) (hv : s.status.treeValid = false) : s.TreeOk :=
  ⟨hn, hc, by simp [hd], by simp [hv], by simp [hv]⟩

theorem State.TrieOk.of_invalid (hv : s.status.trieValid = false) : s.TrieOk := fun h => absurd h (by simp [hv])

/-- What holds of a state of the invariant holds of one with the same fields. -/
theorem State.Inv.congr (h : s.Inv) (hu : t.statusPart = s.statusPart) (hm : t.storagePart = s.storagePart)
    (ht : t.treePart = s.treePart) (hr : t.triePart = s.triePart) : t.Inv := by
  obtain ⟨h1, h2, h3, h4⟩ := s.inv_iff.1 h
  exact t.inv_iff.2 ⟨h1.congr hu, h2.congr hm, h3.congr ht, h4.congr hr⟩

/-! ### The stages of the commands -/

theorem State.Inv.cleared (h : s.Inv) : s.cleared.Inv := by
  obtain ⟨hu, hm, ht, -⟩ := s.inv_iff.1 h
  exact s.cleared.inv_iff.2 ⟨hu.congr rfl, ⟨hm.text, hm.bits, Nat.zero_le _⟩,
    .of_invalid ht.nodes (Nat.zero_le _) rfl rfl, .of_invalid rfl⟩

theorem State.Inv.counted (h : s.Inv) : s.counted.Inv := by
  obtain ⟨hu, hm, ht, hr⟩ := s.inv_iff.1 h
  have hleaf : s.counted.leafCount.toNat ≤ 256 :=
    (BitVec.toNat_ofNat _ _).trans_le ((Nat.mod_le _ _).trans (leafTotal_le _))
  exact s.counted.inv_iff.2 ⟨hu.congr rfl, ⟨hm.text, hm.bits, hleaf⟩, ht.congr rfl, hr.congr rfl⟩

/-- R127: the arena BUILD_TREE leaves holds a tree of the stated shape. -/
theorem BuiltTree.treeOf_built {x : HTree} (h : BuiltTree s.freq x) (h0 : leafTotal s.freq ≠ 0) :
    s.built.TreeOf (leafTotal s.freq) := by
  have hle := leafTotal_le s.freq
  have hget : ∀ {i n}, (huffmanForest s.freq).nodes[i]? = some n → Sparse.get? s.built.nodes i = some n := by
    intro i n hi
    rw [State.built, Sparse.get?_overwrite, hi]
    rfl
  refine ⟨by omega, hle, ?_, ?_, rfl, fun i hi => ?_, fun i h1 h2 => ?_⟩
  · rw [State.built, h.length, BitVec.toNat_ofNat]
    exact Nat.mod_eq_of_lt (by omega)
  · have hroot : (huffmanForest s.freq).rootNode = 2 * leafTotal s.freq - 2 := by
      rw [Forest.rootNode, h.queue, ← h.root]
      rfl
    rw [State.built, hroot, BitVec.toNat_ofNat]
    exact Nat.mod_eq_of_lt (by omega)
  · have hlen : i < (leafNodes s.freq).length := by rwa [length_leafNodes]
    obtain ⟨c, hc⟩ : ∃ c, (leafNodes s.freq)[i]? = some (.leaf c (s.freq.entry c)) := by
      have hi' := leafNodes_getElem? s.freq i
      rw [List.getElem?_eq_getElem hlen, eq_comm, Option.map_eq_some_iff] at hi'
      obtain ⟨c, -, hc⟩ := hi'
      exact ⟨c, by rw [List.getElem?_eq_getElem hlen, hc]⟩
    exact ⟨c, _, hget ((h.first i hi).trans hc)⟩
  · obtain ⟨l, r, f, hi⟩ := h.later i h1 h2
    have hmem : i ∈ x.indices := h.indices.symm.subset (List.mem_range.2 h2)
    obtain ⟨hl, hr⟩ := h.rep.internal_below i hmem l r f hi
    obtain ⟨m, n, hm, hn, hf⟩ := h.rep.internal_freq i hmem l r f hi
    exact ⟨l, r, f, hget hi, hl, hr, by rw [State.nodeAt_of_get? (hget hm), State.nodeAt_of_get? (hget hn), hf]⟩

/-- R128: the walk of the tree BUILD_TREE leaves ends. -/
theorem BuiltTree.walkEnds_built {x : HTree} (h : BuiltTree s.freq x) : s.built.WalkEnds := by
  refine ⟨x.codes [], h.treeCodes_eq rfl rfl, ?_⟩
  rw [HTree.codes_symbols]
  exact h.symbols_nodup

theorem State.Inv.built (h : s.Inv) (h0 : leafTotal s.freq ≠ 0) : s.built.Inv := by
  obtain ⟨hu, hm, ht, hr⟩ := s.inv_iff.1 h
  obtain ⟨x, hx⟩ := builtTree s.freq h0
  have hle := leafTotal_le s.freq
  have htree := hx.treeOf_built h0
  have hnodes : Sparse.wf Config.nodeCap s.built.nodes = true :=
    Sparse.wf_overwrite ht.nodes (by rw [hx.length, Config.nodeCap]; omega)
  have hcount : s.built.nodeCount.toNat ≤ 511 := by rw [htree.count]; omega
  exact s.built.inv_iff.2 ⟨hu.congr rfl, hm.congr rfl,
    ⟨hnodes, hcount, fun _ => rfl, fun _ => ⟨_, htree⟩, fun _ => hx.walkEnds_built⟩, hr.congr rfl⟩

theorem State.Inv.generated (h : s.Inv) (leaves : List CodePair) : (s.generated leaves).Inv := by
  obtain ⟨hu, hm, ht, -⟩ := s.inv_iff.1 h
  exact (s.generated leaves).inv_iff.2 ⟨hu.congr rfl, hm.congr rfl, ht.congr rfl, .of_invalid rfl⟩

/-- R130: the bit-string is as long as the codes of its bytes together. -/
theorem length_bitString (ct : Table CtEntry) (text : List Byte) : (bitString ct text).length = totalLen ct text := by
  simp [bitString, totalLen, List.length_flatMap]

theorem State.Inv.serialized (h : s.Inv) (hfit : totalLen s.ct s.textInput ≤ s.params.bitsCap) : s.serialized.Inv := by
  obtain ⟨hu, hm, ht, hr⟩ := s.inv_iff.1 h
  have hbits : Memory.wf s.params.bitsCap s.serialized.bits = true :=
    Memory.wf_overwrite hm.bits (by rwa [List.length_map, length_bitString])
  exact s.serialized.inv_iff.2 ⟨hu.congr rfl, ⟨hm.text, hbits, hm.leafCount⟩, ht.congr rfl, hr.congr rfl⟩

/-- R152: a captured table agrees with TRIE and the two length registers. -/
theorem State.captured_trieMatches (hp : prefixClash (decodableSet s.ct) = false)
    (hn : trieNodes (decodableSet s.ct) ≤ s.params.trieCap) : s.captured.TrieMatches := by
  have byte : ∀ {n : Nat}, n ≤ 255 → (BitVec.ofNat 8 n).toNat = n := fun h => by
    rw [BitVec.toNat_ofNat]
    omega
  exact ⟨rfl, hp, hn, byte (minDecodable_le s.ct), byte (maxDecodable_le s.ct)⟩

theorem State.Inv.captured (h : s.Inv) (hp : prefixClash (decodableSet s.ct) = false)
    (hn : trieNodes (decodableSet s.ct) ≤ s.params.trieCap) : s.captured.Inv := by
  obtain ⟨hu, hm, ht, -⟩ := s.inv_iff.1 h
  exact s.captured.inv_iff.2 ⟨hu.congr rfl, hm.congr rfl, ht.congr rfl, fun _ => State.captured_trieMatches hp hn⟩

theorem State.Inv.decoded (h : s.Inv) (hfit : (scanBits s.trie s.charInput).out.length ≤ s.params.textCap) :
    s.decoded.Inv := by
  obtain ⟨hu, hm, ht, hr⟩ := s.inv_iff.1 h
  exact s.decoded.inv_iff.2 ⟨hu.congr rfl, ⟨Memory.wf_overwrite hm.text hfit, hm.bits, hm.leafCount⟩, ht.congr rfl,
    hr.congr rfl⟩

/-- R112, R181: a command that ends with a known code keeps the invariant. -/
theorem State.Inv.complete (h : s.Inv) {c : Byte} (hc : c.toNat ≤ 10) : (s.complete c).Inv := by
  obtain ⟨hu, hm, ht, hr⟩ := s.inv_iff.1 h
  exact (s.complete c).inv_iff.2 ⟨⟨hu.hasReset, hu.params, nofun, nofun, hc⟩, hm.congr rfl, ht.congr rfl, hr.congr rfl⟩

theorem State.Inv.exec {i : Instr} (h : s.Inv) (he : exec i s = .next t) : t.Inv := by
  have hk : ∀ stage ∈ commandStages i, StageKeeps State.Inv stage :=
    forall_commandStages (.clear fun _ hu => hu.cleared) .checks (.countFreq fun _ hu => hu.counted)
      (.buildTree fun _ h0 hu => hu.built h0) (.genCodes fun _ leaves hu => hu.generated leaves)
      (.serialize fun _ hfit hu => hu.serialized hfit) (.buildDecodeTree fun _ hp hn hu => hu.captured hp hn)
      (.deserialize (fun _ hu => hu.congr rfl rfl rfl rfl) fun _ hfit hu => hu.decoded hfit) i
  obtain ⟨u, c, hu, hc, rfl⟩ := exec_keeps hk h he
  exact hu.complete hc

/-! ### The host -/

theorem State.Inv.issue (h : s.Inv) (w : Word) : (s.issue w).Inv := by
  obtain ⟨hu, hm, ht, hr⟩ := s.inv_iff.1 h
  exact (s.issue w).inv_iff.2 ⟨⟨hu.hasReset, hu.params, fun _ => rfl, fun _ => rfl, by simp⟩, hm.congr rfl,
    ht.congr rfl, hr.congr rfl⟩

/-- R27: a write to STATUS only clears DONE, so it keeps "BUSY excludes DONE". -/
theorem State.Inv.writeStatus (h : s.Inv) (v : Word) : (s.writeRegion (.reg .status) v).Inv := by
  obtain ⟨hu, hm, ht, hr⟩ := s.inv_iff.1 h
  refine (s.writeRegion (.reg .status) v).inv_iff.2 ⟨⟨hu.hasReset, hu.params, fun hb => ?_, hu.busyNoError, hu.errCode⟩,
    hm.congr rfl, ht.congr rfl, hr.congr rfl⟩
  show (s.status.done && !v.getLsbD 1) = false
  rw [hu.busyNotDone hb, Bool.false_and]

/-- R71: a write to the code table clears TRIE_VALID or leaves the entry. -/
theorem State.Inv.writeCt (h : s.Inv) (c : Byte) (w : Nat) (v : Word) : (s.writeCt c w v).Inv := by
  obtain ⟨hu, hm, ht, -⟩ := s.inv_iff.1 h
  rw [State.writeCt]
  split
  · exact (State.inv_iff _).2 ⟨hu.congr rfl, hm.congr rfl, ht.congr rfl, .of_invalid rfl⟩
  · exact h

theorem State.Inv.writeText (h : s.Inv) (k : Nat) (v : Word) : (s.writeRegion (.text k) v).Inv := by
  obtain ⟨hu, hm, ht, hr⟩ := s.inv_iff.1 h
  exact (State.inv_iff _).2 ⟨hu.congr rfl, ⟨Memory.wf_storeWord k v hm.text, hm.bits, hm.leafCount⟩, ht.congr rfl,
    hr.congr rfl⟩

theorem State.Inv.writeBits (h : s.Inv) (k : Nat) (v : Word) : (s.writeRegion (.bits k) v).Inv := by
  obtain ⟨hu, hm, ht, hr⟩ := s.inv_iff.1 h
  exact (State.inv_iff _).2 ⟨hu.congr rfl, ⟨hm.text, Memory.wf_storeWord k v hm.bits, hm.leafCount⟩, ht.congr rfl,
    hr.congr rfl⟩

theorem State.Inv.writeRegion (h : s.Inv) (r : Region) (v : Word) : (s.writeRegion r v).Inv := by
  cases r with
  | reg r =>
    cases r with
    | command => exact h.issue v
    | status => exact h.writeStatus v
    | _ => exact h.congr rfl rfl rfl rfl
  | ct c w => exact h.writeCt c w v
  | text k => exact h.writeText k v
  | bits k => exact h.writeBits k v
  | _ => exact h

theorem State.Inv.busWrite (h : s.Inv) (size : Nat) (off : Offset) (v : Word) : (s.busWrite size off v).state.Inv := by
  rcases s.busWrite_cases size off v with ⟨-, hw⟩ | ⟨-, -, -, hw⟩ | ⟨-, -, hw⟩ <;> rw [hw]
  · exact h
  · exact h.congr rfl rfl rfl rfl
  · exact h.writeRegion _ v

/-- R54: a block with legal parameters has the invariant after a reset, whatever draw numbers its memories (R226). -/
theorem State.inv_reset_with {p : Params} (h : p.legal = true) (fill : Nat) :
    State.Inv { State.reset with params := p, fill := fill } :=
  (State.inv_iff _).2 ⟨⟨rfl, h, nofun, nofun, Nat.zero_le _⟩, ⟨Sparse.wf_nil _, Sparse.wf_nil _, Nat.zero_le _⟩,
    .of_invalid (Sparse.wf_nil _) (Nat.zero_le _) rfl rfl, .of_invalid rfl⟩

theorem State.Inv.perform (h : s.Inv) (op : HostOp) (rest : List HostOp) : (s.perform op rest).Inv := by
  rcases s.perform_cases op rest with ⟨-, hp⟩ | ⟨size, off, v, -, m, hp⟩ | ⟨d, m, hp⟩ <;> rw [hp]
  · exact (State.inv_reset_with h.params s.draws).congr rfl rfl rfl rfl
  · exact (h.busWrite size off v).congr rfl rfl rfl rfl
  · exact h.congr rfl rfl rfl rfl

/-! ### The statements -/

/-- Settles O58: the parameters of R7 are legal, and draw 0 numbers the memories of State.reset. -/
theorem invariantHoldsAtReset : Obligations.InvariantHoldsAtReset :=
  State.inv_reset_with (p := Config.defaults) (by decide) 0

/-- Settles O59: a step completes a command, stage by stage, or an illegal word, or leaves the block, or does an
operation of the host; each keeps the invariant. -/
theorem everyStepKeepsTheInvariant : Obligations.EveryStepKeepsTheInvariant := by
  intro s t hinv h
  rcases step_cases h with ⟨-, i, -, he⟩ | ⟨-, -, rfl⟩ | ⟨-, -, rfl⟩ | ⟨-, op, rest, latency, -, -, -, rfl⟩
  · exact hinv.exec he
  · exact hinv.complete (by decide)
  · exact hinv
  · exact State.Inv.perform (s := { s with latency := latency }) (hinv.congr rfl rfl rfl rfl) op rest

end Sys2Proof.Machine
end

section
/-! PROOFS. What an access answers at each kind of offset (R65 to R67, R75): the rejected accesses, the offsets that
ignore writes, and every row of the table of a busy block. -/

namespace Sys2Proof.Machine

variable (s : State)

/-! ### The address map by kinds of offset (R44, R67, R75) -/

theorem offset_eq {off : Offset} {n : Nat} (h : off.toNat = n) : off = BitVec.ofNat 20 n := by
  rw [← h, BitVec.ofNat_toNat, BitVec.setWidth_eq]

theorem regionAt_of_reserved {a : Nat} (h : ReservedOffset a) : regionAt a = .reserved := by
  rcases h with h | h | h | h | h <;> simp (disch := omega) only [regionAt, if_neg, if_pos]

/-- R75: what reads its defined value while BUSY = 1 stands at the offsets that are always readable. -/
theorem readableWhileBusy_regionAt (a : Nat) : (regionAt a).readableWhileBusy = true ↔ AlwaysReadableOffset a := by
  have hreg : ∀ n < 15, (regAt n).readableWhileBusy = true ↔ n < 6 := by decide
  unfold regionAt
  split_ifs
  · rw [hreg _ (by omega)]
    omega
  all_goals
    simp only [Region.readableWhileBusy, true_iff, Bool.false_eq_true, false_iff]
    omega

theorem State.writeRegion_readOnly_register {n : Nat} (h : n < 4 ∨ (9 ≤ n ∧ n < 15)) (v : Word) :
    s.writeRegion (regAt n) v = s := by
  rcases h with h | ⟨h1, h2⟩ <;> interval_cases n <;> rfl

/-- R66, R67: what stands at a reserved or read-only offset takes no write. -/
theorem State.writeRegion_ignored {a : Nat} (h : ReservedOffset a ∨ ReadOnlyOffset a) (v : Word) :
    s.writeRegion (regionAt a) v = s := by
  rcases regionAt_cases a with ⟨ha, hr⟩ | ⟨h1, h2, -⟩ | ⟨h1, h2, -⟩ | ⟨h1, -⟩ | ⟨-, hr | ⟨_, hr⟩ | ⟨_, _, hr⟩⟩
  · rw [hr]
    exact s.writeRegion_readOnly_register (by omega) v
  · omega
  · omega
  · omega
  all_goals
    rw [hr]
    rfl

/-- R66, R67: a write to a reserved or read-only offset changes nothing, busy or not. -/
theorem State.busWrite_ignored {off : Offset} (ha : off.toNat % 4 = 0)
    (h : ReservedOffset off.toNat ∨ ReadOnlyOffset off.toNat) (v : Word) : s.busWrite 4 off v = ⟨.okay, s⟩ := by
  have hnd : (regionAt off.toNat).droppedWhileBusy = false := by
    rw [← Bool.not_eq_true, droppedWhileBusy_regionAt]
    omega
  rw [s.busWrite_of_region ha rfl (.inr hnd), s.writeRegion_ignored h]

/-- R75: a write to an input offset of a busy block is dropped. -/
theorem State.busWrite_dropped (hb : s.status.busy = true) {off : Offset} (ha : off.toNat % 4 = 0)
    (h : InputOffset off.toNat) (v : Word) : s.busWrite 4 off v = ⟨.okay, s.dropWrite⟩ := by
  simp [State.busWrite, accessAccepted_word ha, hb, (droppedWhileBusy_regionAt _).2 h]

/-- R75: a read of a busy block elsewhere than at the always readable offsets draws a free value. -/
theorem State.busRead_drawn (hb : s.status.busy = true) {off : Offset} (ha : off.toNat % 4 = 0)
    (h : ¬ AlwaysReadableOffset off.toNat) :
    s.busRead 4 off = ⟨.okay, Config.busyRead s.draws, { s with draws := s.draws + 1 }⟩ := by
  have hnr : (regionAt off.toNat).readableWhileBusy = false := by
    rwa [← Bool.not_eq_true, readableWhileBusy_regionAt]
  simp [State.busRead, accessAccepted_word ha, hb, hnr]

/-! ### The statements -/

/-- Settles O12: the check of size and offset comes before everything else. -/
theorem rejectedAccessesChangeNothing : Obligations.RejectedAccessesChangeNothing := by
  intro s size off v h
  have hrej := accessAccepted_rejected h
  exact ⟨by simp [State.busRead, hrej], by simp [State.busWrite, hrej]⟩

/-- Settles O13: a reserved offset is always readable and ignores writes. -/
theorem reservedOffsetsReadZeroAndIgnoreWrites : Obligations.ReservedOffsetsReadZeroAndIgnoreWrites := by
  intro s off v ha h
  exact ⟨s.busRead_of_region ha (regionAt_of_reserved h) (.inr rfl), s.busWrite_ignored ha (.inl h) v⟩

/-- Settles O14: read-only offsets ignore writes; CTRL and STATUS take the writes of O16 and O17. -/
theorem readOnlyOffsetsIgnoreWrites : Obligations.ReadOnlyOffsetsIgnoreWrites := by
  intro s off v ha
  obtain ⟨hctrl, -⟩ := ctrlHoldsIrqEnable
  obtain ⟨-, hstatus, -⟩ := statusReadsItsFieldsAndClearsOnOnes
  refine ⟨fun h => s.busWrite_ignored ha (.inr h) v, fun h => ?_, fun h => ?_⟩
  · rw [offset_eq h]
    exact ⟨_, (hctrl s v).2⟩
  · rw [offset_eq h]
    exact ⟨_, _, hstatus s v⟩

/-- Settles O24: the rows by the kind of the offset; the registers a busy block answers for are those of O15 to O17. -/
theorem busyBlockAnswersByTheTable : Obligations.BusyBlockAnswersByTheTable := by
  intro s off v hb ha
  obtain ⟨hid, htext, hbits, htrie, -⟩ := identificationRegistersAreConstant s v
  obtain ⟨hctrl, -⟩ := ctrlHoldsIrqEnable
  refine ⟨fun h => ?_, fun h => ?_, fun h => s.busWrite_ignored ha h v, fun h => s.busWrite_dropped hb ha h v,
    fun h => offset_eq h ▸ hid, fun h => offset_eq h ▸ htext, fun h => offset_eq h ▸ hbits,
    fun h => offset_eq h ▸ htrie, fun h => ?_, fun h => ?_,
    fun h => s.busRead_of_region ha (regionAt_of_reserved h) (.inr rfl), fun h => s.busRead_drawn hb ha h⟩ <;>
    rw [offset_eq h]
  · exact (hctrl s v).2
  · exact s.busWrite_of_region rfl (r := .reg .status) rfl (.inr rfl) v
  · exact (hctrl s v).1
  · exact s.busRead_of_region rfl (r := .reg .status) rfl (.inr rfl)

end Sys2Proof.Machine
end

section
/-! PROOFS. The host's turn (R76, R101, R201): which steps it is, what each operation leaves of the host, that every
write but one to COMMAND is idempotent (R73), and that a busy block keeps what its command works on (R77). -/

namespace Sys2Proof.Machine

/-! ### Storing a word twice (R68, R71) -/

section
variable {α : Type}

/-- Writes at different indices commute, on every list. -/
theorem Sparse.set_comm_of_lt (m : Sparse α) {i j : Nat} (h : i < j) (v w : α) :
    Sparse.set (Sparse.set m i v) j w = Sparse.set (Sparse.set m j w) i v := by
  induction m with
  | nil => simp (disch := omega) only [Sparse.set, if_pos, if_neg]
  | cons e m ih =>
    obtain ⟨k, x⟩ := e
    rcases Nat.lt_trichotomy i k with hi | hi | hi
    · rcases Nat.lt_trichotomy j k with hj | hj | hj <;> simp (disch := omega) only [Sparse.set, if_pos, if_neg]
    all_goals
      have hj : k < j := by omega
      simp (disch := omega) only [Sparse.set, if_pos, if_neg, ih]

theorem Sparse.set_comm (m : Sparse α) {i j : Nat} (h : i ≠ j) (v w : α) :
    Sparse.set (Sparse.set m i v) j w = Sparse.set (Sparse.set m j w) i v := by
  rcases Nat.lt_or_gt_of_ne h with h | h
  · exact Sparse.set_comm_of_lt m h v w
  · exact (Sparse.set_comm_of_lt m h w v).symm

theorem Table.put_put (t : Table α) (c : Byte) (v w : α) : (t.put c v).put c w = t.put c w :=
  Table.ext fun d => by
    simp only [Table.entry_put]
    split <;> rfl

end

theorem storeByte_storeByte (cap : Nat) (m : Memory) (i : Nat) (b : Byte) :
    storeByte cap (storeByte cap m i b) i b = storeByte cap m i b := by
  unfold storeByte
  split
  · exact Sparse.set_set m i b
  · rfl

/-- A store that changes nothing still changes nothing after a store to another byte. -/
theorem storeByte_stored_of_ne {cap : Nat} {m : Memory} {i j : Nat} {b : Byte} (h : storeByte cap m i b = m)
    (hne : j ≠ i) (b' : Byte) : storeByte cap (storeByte cap m j b') i b = storeByte cap m j b' := by
  unfold storeByte at h ⊢
  split_ifs at h ⊢
  · rw [Sparse.set_comm m hne, h]
  · exact h
  all_goals rfl

theorem storeWord_of_stored {cap : Nat} {m : Memory} {k : Nat} {v : Word}
    (h0 : storeByte cap m (4 * k) (byteOfWord v 0) = m) (h1 : storeByte cap m (4 * k + 1) (byteOfWord v 1) = m)
    (h2 : storeByte cap m (4 * k + 2) (byteOfWord v 2) = m) (h3 : storeByte cap m (4 * k + 3) (byteOfWord v 3) = m) :
    storeWord cap m k v = m := by
  rw [storeWord, h0, h1, h2, h3]

/-- Storing the same word again changes nothing: each byte stays stored while the bytes after it are. -/
theorem storeWord_storeWord (cap : Nat) (m : Memory) (k : Nat) (v : Word) :
    storeWord cap (storeWord cap m k v) k v = storeWord cap m k v := by
  have stored := fun (n : Memory) i b => storeByte_storeByte cap n i b
  apply storeWord_of_stored
  · exact storeByte_stored_of_ne (storeByte_stored_of_ne (storeByte_stored_of_ne (stored _ _ _)
      (by omega) _) (by omega) _) (by omega) _
  · exact storeByte_stored_of_ne (storeByte_stored_of_ne (stored _ _ _) (by omega) _) (by omega) _
  · exact storeByte_stored_of_ne (stored _ _ _) (by omega) _
  · exact stored _ _ _

theorem putWord_putWord (bits : BitVec 256) (i : Nat) (v : Word) :
    putWord (putWord bits i v) i v = putWord bits i v := by
  apply BitVec.eq_of_getLsbD_eq
  intro j hj
  simp only [getLsbD_putWord _ _ _ hj]
  split <;> rfl

theorem CtEntry.writeWord_writeWord (e : CtEntry) (w : Nat) (v : Word) :
    (e.writeWord w v).writeWord w v = e.writeWord w v := by
  unfold CtEntry.writeWord
  split_ifs
  · rfl
  · simp only [putWord_putWord]
  · rfl

/-! ### What a write leaves -/

variable (s : State)

theorem State.writeCt_writeCt (c : Byte) (w : Nat) (v : Word) : (s.writeCt c w v).writeCt c w v = s.writeCt c w v := by
  unfold State.writeCt
  split
  · simp only [Table.entry_put_self, Table.put_put, CtEntry.writeWord_writeWord]
  · rfl

theorem State.writeCt_eq (c : Byte) (w : Nat) (v : Word) : s.writeCt c w v = { s with
    ct := (s.writeCt c w v).ct, status := { s.status with trieValid := (s.writeCt c w v).status.trieValid } } := by
  unfold State.writeCt
  split <;> rfl

theorem Status.writeOneToClear_writeOneToClear (t : Status) (v : Word) :
    (t.writeOneToClear v).writeOneToClear v = t.writeOneToClear v := by
  simp [Status.writeOneToClear]

/-- R73: every region but COMMAND takes the same write twice as it takes it once. -/
theorem State.writeRegion_writeRegion {r : Region} (h : r ≠ .reg .command) (v : Word) :
    (s.writeRegion r v).writeRegion r v = s.writeRegion r v := by
  cases r with
  | reg r =>
    cases r with
    | command => exact absurd rfl h
    | status => simp only [State.writeRegion, Status.writeOneToClear_writeOneToClear]
    | _ => rfl
  | ct c w => exact s.writeCt_writeCt c w v
  | text k => simp only [State.writeRegion, storeWord_storeWord]
  | bits k => simp only [State.writeRegion, storeWord_storeWord]
  | _ => rfl

/-- R110: only a write to COMMAND starts a command. -/
theorem State.writeRegion_busy {r : Region} (h : r ≠ .reg .command) (v : Word) :
    (s.writeRegion r v).status.busy = s.status.busy := by
  cases r with
  | reg r =>
    cases r with
    | command => exact absurd rfl h
    | _ => rfl
  | ct c w => rw [State.writeRegion, State.writeCt_eq]
  | _ => rfl

@[simp] theorem State.writeRegion_master (r : Region) (v : Word) : (s.writeRegion r v).master = s.master := by
  cases r with
  | reg r => cases r <;> rfl
  | ct c w => rw [State.writeRegion, State.writeCt_eq]
  | _ => rfl

/-- The block does not write the host's own state. -/
@[simp] theorem State.busWrite_master (size : Nat) (off : Offset) (v : Word) :
    (s.busWrite size off v).state.master = s.master := by
  rcases s.busWrite_cases size off v with ⟨-, hw⟩ | ⟨-, -, -, hw⟩ | ⟨-, -, hw⟩ <;> rw [hw]
  · rfl
  · exact s.writeRegion_master _ v

@[simp] theorem State.busRead_master (size : Nat) (off : Offset) : (s.busRead size off).state.master = s.master := by
  obtain ⟨d, hd⟩ := s.busRead_state size off
  rw [hd]

/-- R35, R62: COMMAND stands at 0x018 alone. -/
theorem regionAt_eq_command {a : Nat} (h : regionAt a = .reg .command) : 0x00018 ≤ a ∧ a < 0x0001C := by
  have hreg : ∀ n < 15, regAt n = .reg .command → n = 6 := by decide
  rcases regionAt_cases a with ⟨hlt, hr⟩ | ⟨-, -, hr⟩ | ⟨-, -, hr⟩ | ⟨-, hr⟩ | ⟨-, hr | ⟨_, hr⟩ | ⟨_, _, hr⟩⟩ <;>
    rw [hr] at h
  · have := hreg _ (by omega) h
    omega
  all_goals cases h

/-- Settles O25: a read only draws. The second of two equal writes is rejected or dropped like the first, or carried out
again on a region that holds what it is to hold. -/
theorem accessesAreIdempotentExceptCommand : Obligations.AccessesAreIdempotentExceptCommand := by
  intro s size off v
  refine ⟨s.busRead_state size off, fun hne => ?_⟩
  rcases s.busWrite_cases size off v with ⟨-, hw⟩ | ⟨hacc, hb, hd, hw⟩ | ⟨hacc, hd, hw⟩
  · rw [hw, hw]
  · rw [hw]
    simp [State.busWrite, hacc, State.dropWrite, hb, hd]
  · have hr : regionAt off.toNat ≠ .reg .command := by
      intro hr
      have hrange := regionAt_eq_command hr
      obtain ⟨-, ha⟩ : size = 4 ∧ off.toNat % 4 = 0 := by simpa [accessAccepted] using hacc
      exact hne (offset_eq (by omega))
    rw [hw]
    simp only [State.busWrite, hacc, s.writeRegion_busy hr, s.writeRegion_writeRegion hr]
    rcases hd with hd | hd <;> simp [hd]

/-! ### One operation of the host -/

/-- Settles O26: a write to a busy block moves at most IRQ_EN, DONE and OVERRUN; the other operations only draw. -/
theorem hostCannotChangeARunningCommandsInputs : Obligations.HostCannotChangeARunningCommandsInputs := by
  intro s op rest hb hop
  rcases s.perform_cases op rest with ⟨hreset, -⟩ | ⟨size, off, v, -, m, hp⟩ | ⟨n, m, hp⟩
  · exact absurd hreset hop
  · obtain ⟨e, d, o, hw⟩ := s.busWrite_state_of_busy hb size off v
    exact ⟨e, d, o, m, s.draws, by rw [hp, hw]; rfl⟩
  · exact ⟨s.irqEn, s.status.done, s.status.overrun, m, n, hp⟩

/-- R202: the operations without an access. -/
theorem HostOp.accesses_eq_false_iff (op : HostOp) :
    op.accesses = false ↔ op = .reset ∨ op = .waitIrq ∨ (∃ n, op = .ifOk n) ∨ ∃ base, op = .readWindow base := by
  cases op <;> simp [HostOp.accesses]

theorem State.perform_write (size : Nat) (off : Offset) (v : Word) (rest : List HostOp) :
    s.perform (.write size off v) rest = { (s.busWrite size off v).state with master := { s.master with
      script := rest, replies := .write (s.busWrite size off v).resp :: s.master.replies } } := by
  simp only [State.perform, State.goOn, State.reply, State.busWrite_master]

theorem State.perform_read (size : Nat) (off : Offset) (rest : List HostOp) :
    s.perform (.read size off) rest = { (s.busRead size off).state with master := { s.master with
      script := rest
      replies := .read (s.busRead size off).resp (s.busRead size off).data :: s.master.replies } } := by
  simp only [State.perform, State.goOn, State.reply, State.busRead_master]

/-- R101: an `expect` is a 4-byte read that may note a failure. -/
theorem State.perform_expect (off : Offset) (v mask : Word) (rest : List HostOp) :
    s.perform (.expect off v mask) rest =
      (s.perform (.read 4 off) rest).noteExpect (expectPasses (s.busRead 4 off).data v mask) := rfl

theorem State.perform_ifOk (n : Nat) (rest : List HostOp) :
    s.perform (.ifOk n) rest = s.goOn (if s.master.lastOk then rest else rest.drop n) := rfl

theorem State.perform_readWindow (base : Offset) (rest : List HostOp) :
    s.perform (.readWindow base) rest = s.goOn (burstRead base.toNat s.master.lastWords ++ rest) := rfl

/-! ### Which steps are the host's (R76, R111, R221) -/

variable {s}

theorem step_of_idle (hr : s.hasReset = true) (hb : s.status.busy = false) : step s = .next s.hostTurn := by
  simp [step, State.completionDue, hr, hb]

theorem step_of_latency (hr : s.hasReset = true) (hb : s.status.busy = true) (hs : s.master.script ≠ [])
    (hl : s.latency ≠ 0) : step s = .next s.countTurn.hostTurn := by
  simp [step, State.completionDue, hr, hb, hs, hl]

theorem step_before_reset (hr : s.hasReset = false) : step s = s.powerOnTurn := by
  simp [step, State.completionDue, hr]

theorem State.hostTurn_nil (hs : s.master.script = []) : s.hostTurn = s := by
  simp [State.hostTurn, hs]

theorem State.hostTurn_cons {op : HostOp} {rest : List HostOp} (hs : s.master.script = op :: rest) :
    s.hostTurn = s.perform op rest := by
  simp [State.hostTurn, hs]

theorem State.powerOnTurn_cons {op : HostOp} {rest : List HostOp} (hs : s.master.script = op :: rest) :
    s.powerOnTurn = if op.accesses then .fault .accessBeforeReset else .next (s.perform op rest) := by
  simp [State.powerOnTurn, hs]

/-- Settles O5: whose step it is by `hasReset`, BUSY, the script and the latency; then each operation by its own
lemma. -/
theorem otherStepsAreTheHostsAccesses : Obligations.OtherStepsAreTheHostsAccesses := by
  refine ⟨fun s hr hb hs => ?_, fun s op rest hr hb hs => ?_, fun s op rest k hr hb hs hl => ?_, fun s hr => ?_,
    State.perform_write, State.perform_read, fun s off v mask rest => ?_,
    fun s d older rest hm => ⟨fun n => ?_, fun base => ?_⟩⟩
  · rw [step_of_idle hr hb, State.hostTurn_nil hs]
  · rw [step_of_idle hr hb, State.hostTurn_cons hs]
  · rw [step_of_latency hr hb (by simp [hs]) (by simp [hl]), State.hostTurn_cons (s := s.countTurn) hs, State.countTurn,
      hl, Nat.add_sub_cancel]
  · simp only [← HostOp.accesses_eq_false_iff, Bool.not_eq_false, step_before_reset hr]
    refine ⟨fun hs => by simp [State.powerOnTurn, hs], fun op rest ha hs => ?_, fun op rest ha hs => ?_⟩ <;>
      simp [State.powerOnTurn_cons hs, ha]
  · refine ⟨s.master.failed || !expectPasses (s.busRead 4 off).data v mask, ?_, by simp [expectPasses]⟩
    rw [State.perform_expect, State.perform_read]
    rfl
  · rw [State.perform_ifOk, Master.lastOk_cons _ _ _ hm]
    exact ⟨fun hd => by simp [hd, State.goOn], fun hd => by simp [hd, State.goOn]⟩
  · rw [State.perform_readWindow, Master.lastWords_cons _ _ _ hm]
    rfl

end Sys2Proof.Machine
end

section
/-! PROOFS. The windows (R68 to R72, R99, R100): what each of their words reads and what a write to it stores while
BUSY = 0, what the host makes of the words it reads, and what loading a value leaves (R202 to R205). -/

namespace Sys2Proof.Machine

/-! ### Accesses of an idle block at a number -/

section
variable {s : State} (hb : s.status.busy = false) {n : Nat} (hn : n < 2 ^ 20) (ha : n % 4 = 0) {r : Region}
  (hr : regionAt n = r)
include hb hn ha hr

theorem State.busRead_ofNat : s.busRead 4 (BitVec.ofNat 20 n) = ⟨.okay, s.regionWord r, s⟩ := by
  have hoff := toNat_offset hn
  exact s.busRead_of_region (by rw [hoff, ha]) (by rw [hoff, hr]) (.inl hb)

theorem State.busWrite_ofNat (v : Word) : s.busWrite 4 (BitVec.ofNat 20 n) v = ⟨.okay, s.writeRegion r v⟩ := by
  have hoff := toNat_offset hn
  exact s.busWrite_of_region (by rw [hoff, ha]) (by rw [hoff, hr]) (.inl hb) v

end

section
variable {s : State} (hb : s.status.busy = false) {k : Nat}
include hb

theorem State.busRead_text (hk : k < 0x4000) : s.busRead 4 (BitVec.ofNat 20 (0x10000 + 4 * k)) =
    ⟨.okay, windowWord s.params.textCap s.textByte k, s⟩ :=
  State.busRead_ofNat hb (by omega) (by omega) (regionAt_text hk)

theorem State.busRead_bits (hk : k < 0x20000) : s.busRead 4 (BitVec.ofNat 20 (0x80000 + 4 * k)) =
    ⟨.okay, windowWord s.params.bitsCap s.bitsByte k, s⟩ :=
  State.busRead_ofNat hb (by omega) (by omega) (regionAt_bits hk)

theorem State.busRead_ct (c : Byte) (hk : k < 16) : s.busRead 4 (BitVec.ofNat 20 (0x2000 + 64 * c.toNat + 4 * k)) =
    ⟨.okay, (s.ct.entry c).word k, s⟩ := by
  have := c.isLt
  exact State.busRead_ofNat hb (by omega) (by omega) (regionAt_ct c hk)

theorem State.busRead_node_first (hk : k ≤ 510) : s.busRead 4 (BitVec.ofNat 20 (0x1000 + 8 * k)) =
    ⟨.okay, s.nodeWord k false, s⟩ :=
  State.busRead_ofNat hb (by omega) (by omega) (regionAt_node_first hk)

theorem State.busRead_node_second (hk : k ≤ 510) : s.busRead 4 (BitVec.ofNat 20 (0x1000 + 8 * k + 4)) =
    ⟨.okay, s.nodeWord k true, s⟩ :=
  State.busRead_ofNat hb (by omega) (by omega) (regionAt_node_second hk)

end

/-! ### The TEXT and BITS windows (R68 to R70) -/

/-- The bytes a host makes of words that are those of a window are the first bytes of the memory. -/
theorem bytesOfWords_of_window {cap len : Nat} {byteAt : Nat → Byte} {word : Nat → Word} (hcap : len ≤ cap)
    (h : ∀ k, k < (len + 3) / 4 → word k = windowWord cap byteAt k) :
    bytesOfWords len ((List.range ((len + 3) / 4)).map word) = (List.range len).map byteAt := by
  rw [List.map_congr_left fun k hk => h k (List.mem_range.1 hk), bytesOfWords_window _ _ hcap]

/-- Settles O19: each word is that of `windowWord`, whose bytes are those of the memory. -/
theorem byteWindowsReadLittleEndian : Obligations.ByteWindowsReadLittleEndian := by
  refine ⟨fun s len hb => ⟨fun hwin hcap => ?_, fun hwin hcap => ?_⟩, fun s k j hb hj => ⟨fun hk => ?_, fun hk => ?_⟩⟩
  · exact bytesOfWords_of_window hcap fun k hk => by rw [State.busRead_text hb (by omega)]
  · exact bytesOfWords_of_window hcap fun k hk => by rw [State.busRead_bits hb (by omega)]
  · exact ⟨_, State.busRead_text hb hk, extractLsb'_windowWord _ _ k hj⟩
  · exact ⟨_, State.busRead_bits hb hk, extractLsb'_windowWord _ _ k hj⟩

theorem Params.textCap_le_of_legal {p : Params} (h : p.legal = true) : p.textCap ≤ 65536 := by
  simp only [Params.legal, Params.textCapLegal, Bool.and_eq_true, decide_eq_true_eq] at h
  omega

theorem Params.bitsCap_le_of_legal {p : Params} (h : p.legal = true) : p.bitsCap ≤ 524288 := by
  simp only [Params.legal, Params.bitsCapLegal, Bool.and_eq_true, decide_eq_true_eq] at h
  omega

/-- A memory of at most `cap` bytes after a value is loaded: the words the window lacks lie above the capacity. -/
theorem get?_storeWords_window {cap window : Nat} (hcap : cap ≤ 4 * window) (m : Memory) (bs : List Byte) (i : Nat) :
    Sparse.get? (storeWords cap m bs (min (wordCount bs) window)) i =
      if i < 4 * ((bs.length + 3) / 4) ∧ i < cap then some (bs.getD i 0#8) else Sparse.get? m i := by
  rw [get?_storeWords, wordCount]
  exact if_congr (by omega) rfl rfl

/-- Settles O20: loading a value stores its words and its length (`run_loadText`, `run_loadBits`), and one write stores
its four bytes. -/
theorem byteWindowsWriteLittleEndian : Obligations.ByteWindowsWriteLittleEndian := by
  refine ⟨fun s bs rest hp hr hb => ⟨fun hs => ?_, fun hs => ?_⟩, fun s k v hb => ⟨fun hk => ?_, fun hk => ?_⟩⟩
  · obtain ⟨replies, hrun⟩ := run_loadText hr hb hs
    have hcap := Params.textCap_le_of_legal hp
    refine ⟨_, hrun, fun h => toNat_lengthWord h, fun h => lt_toNat_lengthWord (by omega) h, fun i => ?_, rfl⟩
    simp only [State.textByte, State.withMaster, get?_storeWords_window (window := 0x4000) (by omega)]
    split <;> rfl
  · obtain ⟨replies, hrun⟩ := run_loadBits hr hb hs
    have hcap := Params.bitsCap_le_of_legal hp
    refine ⟨_, hrun, fun h => toNat_lengthWord h, fun h => lt_toNat_lengthWord (by omega) h, fun i => ?_, rfl⟩
    simp only [State.bitsByte, State.withMaster, get?_storeWords_window (window := 0x20000) (by omega)]
    split <;> rfl
  · refine ⟨_, State.busWrite_ofNat hb (by omega) (by omega) (regionAt_text hk) v, rfl, fun i => ?_⟩
    simp only [State.textByte, State.writeRegion, get?_storeWord]
    split <;> rfl
  · refine ⟨_, State.busWrite_ofNat hb (by omega) (by omega) (regionAt_bits hk) v, rfl, fun i => ?_⟩
    simp only [State.bitsByte, State.writeRegion, get?_storeWord]
    split <;> rfl

/-! ### The CT window (R71, R100) -/

/-- R100: the bits of word 0, LEN below bit 8 and VALID in bit 31. -/
theorem CtEntry.getLsbD_word_zero (e : CtEntry) {j : Nat} (hj : j < 32) :
    (e.word 0).getLsbD j = (decide (j = 31) && e.valid || e.len.getLsbD j) := by
  simp only [CtEntry.word, if_true, BitVec.getLsbD_or, getLsbD_bitAt _ hj, BitVec.getLsbD_setWidth, hj, decide_true,
    Bool.true_and]

theorem CtEntry.getLsbD_word_zero_valid (e : CtEntry) : (e.word 0).getLsbD 31 = e.valid := by
  rw [e.getLsbD_word_zero (by omega), BitVec.getLsbD_of_ge e.len _ (by omega)]
  simp

theorem CtEntry.extractLsb'_word_zero_len (e : CtEntry) : (e.word 0).extractLsb' 0 8 = e.len := by
  apply BitVec.eq_of_getLsbD_eq
  intro j hj
  rw [BitVec.getLsbD_extractLsb', Nat.zero_add, e.getLsbD_word_zero (by omega)]
  simp [hj, show j ≠ 31 by omega]

theorem CtEntry.extractLsb'_word_zero_middle (e : CtEntry) : (e.word 0).extractLsb' 8 23 = 0#23 := by
  apply BitVec.eq_of_getLsbD_eq
  intro j hj
  rw [BitVec.getLsbD_extractLsb', e.getLsbD_word_zero (by omega), BitVec.getLsbD_of_ge e.len _ (by omega)]
  simp [show 8 + j ≠ 31 by omega]

/-- R100: words 1 to 8 are the code bits, 32 to a word. -/
theorem CtEntry.getLsbD_word_bits (e : CtEntry) {w j : Nat} (h1 : 1 ≤ w) (h8 : w ≤ 8) (hj : j < 32) :
    (e.word w).getLsbD j = e.bits.getLsbD (32 * (w - 1) + j) := by
  rw [CtEntry.word, if_neg (by omega), if_pos h8, BitVec.getLsbD_extractLsb', decide_eq_true hj, Bool.true_and]

theorem CtEntry.word_raz (e : CtEntry) {w : Nat} (h : 9 ≤ w) : e.word w = 0#32 := by
  rw [CtEntry.word, if_neg (by omega), if_neg (by omega)]

/-- Settles O21: the words of an entry bit by bit; its words 0 to 8 together are the entry (`CtEntry.ofWords_word`). -/
theorem codeTableWordsRead : Obligations.CodeTableWordsRead := by
  refine ⟨fun e => ⟨e.length_code, fun j => e.getElem?_code⟩, fun s c hb => ?_, fun s c w hb hw => ?_⟩
  · rw [← CtEntry.ofWords_word (s.ct.entry c)]
    exact CtEntry.ofWords_congr fun w hw => by rw [State.busRead_ct hb c (by omega)]
  · refine ⟨_, State.busRead_ct hb c hw, ?_, fun h1 h8 j hj => CtEntry.getLsbD_word_bits _ h1 h8 hj,
      fun h9 => CtEntry.word_raz _ h9⟩
    rintro rfl
    exact ⟨CtEntry.getLsbD_word_zero_valid _, CtEntry.extractLsb'_word_zero_middle _,
      CtEntry.extractLsb'_word_zero_len _⟩

/-- R71: a write to words 0 to 8 of an entry. -/
theorem State.writeCt_of_le (s : State) (c : Byte) {w : Nat} (h : w ≤ 8) (v : Word) : s.writeCt c w v = { s with
    ct := s.ct.put c ((s.ct.entry c).writeWord w v), status := { s.status with trieValid := false } } :=
  if_pos h

/-- R71: a write to words 9 to 15 changes nothing. -/
theorem State.writeCt_raz (s : State) (c : Byte) {w : Nat} (h : 9 ≤ w) (v : Word) : s.writeCt c w v = s :=
  if_neg (by omega)

theorem State.entry_writeCt (s : State) (c : Byte) {w : Nat} (h : w ≤ 8) (v : Word) :
    (s.writeCt c w v).ct.entry c = (s.ct.entry c).writeWord w v := by
  rw [s.writeCt_of_le c h, Table.entry_put_self]

/-- Settles O22: the write puts the word into the entry (`CtEntry.writeWord`) and clears TRIE_VALID, or changes
nothing. -/
theorem codeTableWordsWrite : Obligations.CodeTableWordsWrite := by
  intro s c w v hb hw
  have hc := c.isLt
  refine ⟨s.writeCt c w v, State.busWrite_ofNat hb (by omega) (by omega) (regionAt_ct c hw) v,
    fun h8 => ⟨?_, fun d hd => ?_⟩, ?_, fun h1 h8 => ?_, fun h9 => s.writeCt_raz c h9 v⟩
  · rw [s.writeCt_of_le c h8]
  · rw [s.writeCt_of_le c h8, Table.entry_put, if_neg hd.symm]
  · rintro rfl
    exact s.entry_writeCt c (Nat.zero_le 8) v
  · obtain ⟨n, rfl⟩ := Nat.exists_eq_add_of_le' h1
    rw [s.entry_writeCt c h8, CtEntry.writeWord_succ _ h8]
    exact ⟨rfl, rfl, fun j hj => getLsbD_putWord _ _ _ hj⟩

/-! ### The FREQ and NODE windows (R72, R99) -/

/-- Settles O23: the words by the kind of the node; both windows are read-only. -/
theorem freqAndNodeWindowsRead : Obligations.FreqAndNodeWindowsRead := by
  intro s v hb
  refine ⟨fun c => ?_, fun i hi => ⟨?_, ?_, ?_⟩⟩
  · have hc := c.isLt
    exact ⟨State.busRead_ofNat hb (by omega) (by omega) (regionAt_freq c),
      State.busWrite_ofNat hb (by omega) (by omega) (regionAt_freq c) v⟩
  · rw [State.busRead_node_first hb hi, State.busRead_node_second hb hi]
    split
    case h_1 hn =>
      rw [State.nodeWord_of_none hn, State.nodeWord_of_none hn]
      exact ⟨rfl, rfl⟩
    case h_2 c f hn =>
      rw [State.nodeWord_of_get? hn, State.nodeWord_of_get? hn, BitVec.ofNat_toNat]
      exact ⟨rfl, rfl⟩
    case h_3 l r f hn =>
      rw [State.nodeWord_of_get? hn, State.nodeWord_of_get? hn, Node.word_internal]
      exact ⟨rfl, rfl⟩
  · exact State.busWrite_ofNat hb (by omega) (by omega) (regionAt_node_first hi) v
  · exact State.busWrite_ofNat hb (by omega) (by omega) (regionAt_node_second hi) v

end Sys2Proof.Machine
end

section
/-! PROOFS. The command word (R90 to R95): what the decoder answers for a word, by its two fields and by its number. -/

namespace Sys2Proof.Machine

/-! ### The fields of a word (R90) -/

@[simp] theorem toNat_zeroField (w : Word) : (zeroField w).toNat = w.toNat / 256 := by
  have := w.isLt
  simp only [zeroField, BitVec.extractLsb'_toNat, Nat.shiftRight_eq_div_pow]
  omega

@[simp] theorem toNat_opcodeField (w : Word) : (opcodeField w).toNat = w.toNat % 256 := by
  simp [opcodeField]

theorem zeroField_eq_zero_iff (w : Word) : zeroField w = 0#24 ↔ w.toNat < 0x100 := by
  rw [← BitVec.toNat_inj, toNat_zeroField, BitVec.toNat_ofNat]
  omega

/-- A word is its two fields. -/
theorem word_ext_fields {w v : Word} (hz : zeroField w = zeroField v) (ho : opcodeField w = opcodeField v) : w = v := by
  rw [← BitVec.toNat_inj, toNat_zeroField, toNat_zeroField] at hz
  rw [← BitVec.toNat_inj, toNat_opcodeField, toNat_opcodeField] at ho
  exact BitVec.eq_of_toNat_eq (by omega)

/-- R92: "The whole command word of each is zext_32(OPCODE)", field by field. -/
theorem fields_encodeWord (i : Instr) : zeroField (encodeWord i) = 0#24 ∧ opcodeField (encodeWord i) = i.opcode := by
  cases i with
  | nop => exact Laws.ZeroField.nop
  | clear => exact Laws.ZeroField.clear
  | countFreq => exact Laws.ZeroField.countFreq
  | buildTree => exact Laws.ZeroField.buildTree
  | genCodes => exact Laws.ZeroField.genCodes
  | serialize => exact Laws.ZeroField.serialize
  | encode => exact Laws.ZeroField.encode
  | buildDecodeTree => exact Laws.ZeroField.buildDecodeTree
  | deserialize => exact Laws.ZeroField.deserialize
  | decode => exact Laws.ZeroField.decode

theorem eq_encodeWord_iff (w : Word) (i : Instr) : w = encodeWord i ↔ zeroField w = 0#24 ∧ opcodeField w = i.opcode := by
  obtain ⟨hz, ho⟩ := fields_encodeWord i
  constructor
  · rintro rfl
    exact ⟨hz, ho⟩
  · rintro ⟨hwz, hwo⟩
    exact word_ext_fields (hwz.trans hz.symm) (hwo.trans ho.symm)

/-! ### What the decoder answers for an opcode (R92, R94) -/

/-- R94: the four ranges of reserved opcodes. -/
def ReservedOpcode (n : Nat) : Prop :=
  (0x02 ≤ n ∧ n ≤ 0x0F) ∨ (0x14 ≤ n ∧ n ≤ 0x1E) ∨ (0x22 ≤ n ∧ n ≤ 0x2E) ∨ (0x30 ≤ n ∧ n ≤ 0xFF)

/-- The decoder's table and the encoder's have the same ten rows. -/
theorem decodeOpcode_eq_ok_iff (op : Byte) (i : Instr) : decodeOpcode op = .ok i ↔ op = i.opcode := by
  constructor
  · unfold decodeOpcode
    split
    case h_11 => exact fun h => nomatch h
    all_goals
      rename_i hop
      intro h
      cases h
      exact BitVec.eq_of_toNat_eq hop
  · rintro rfl
    cases i <;> rfl

/-- The opcodes past the ten rows are those of R94. -/
theorem decodeOpcode_eq_error_iff (op : Byte) (e : DecodeError) :
    decodeOpcode op = .error e ↔ e = .reservedOpcode ∧ ReservedOpcode op.toNat := by
  have hlt := op.isLt
  unfold decodeOpcode ReservedOpcode
  split
  case h_11 =>
    rw [Except.error.injEq, eq_comm, iff_self_and]
    intro _
    simp only [imp_false] at *
    omega
  all_goals
    rename_i hop
    simp [hop]

/-! ### What the decoder answers for a word (R93, R94) -/

theorem decodeWord_of_zeroField {w : Word} (h : zeroField w = 0#24) : decodeWord w = decodeOpcode (opcodeField w) :=
  if_pos h

theorem decodeWord_of_zeroField_ne {w : Word} (h : zeroField w ≠ 0#24) : decodeWord w = .error .zeroFieldSet :=
  if_neg h

/-- Settles O1: with ZERO clear the opcode decides, by the rows of the table; a word with ZERO set is no command and no
table word. -/
theorem decodedWordsAreExactlyTheTableWords : Obligations.DecodedWordsAreExactlyTheTableWords := by
  intro w i
  rw [eq_encodeWord_iff]
  by_cases hz : zeroField w = 0#24
  · rw [decodeWord_of_zeroField hz, decodeOpcode_eq_ok_iff]
    simp [hz]
  · simp [decodeWord_of_zeroField_ne hz, hz]

/-- Settles O3: with ZERO clear the word is its opcode, and only the reserved ones are rejected; with ZERO set the word
is above every opcode. -/
theorem rejectedWordsAreTheReservedOnes : Obligations.RejectedWordsAreTheReservedOnes := by
  intro w
  change _ ∧ (_ ↔ ReservedOpcode w.toNat)
  by_cases hz : zeroField w = 0#24
  · have hw := (zeroField_eq_zero_iff w).1 hz
    rw [decodeWord_of_zeroField hz, decodeOpcode_eq_error_iff, decodeOpcode_eq_error_iff, toNat_opcodeField,
      Nat.mod_eq_of_lt hw]
    simp [hw]
  · have hw : 0x100 ≤ w.toNat := Nat.le_of_not_lt (mt (zeroField_eq_zero_iff w).2 hz)
    have hn : ¬ ReservedOpcode w.toNat := by
      unfold ReservedOpcode
      omega
    simp [decodeWord_of_zeroField_ne hz, hw, hn]

/-! ### The fields of a table word (R92) -/

/-- R92: "Bits 7:4 of the opcode name the group (0 control, 1 encoder, 2 decoder)". -/
def groupCode : Group → BitVec 4
  | .control => 0#4
  | .encoder => 1#4
  | .decoder => 2#4

theorem groupCode_injective : Function.Injective groupCode := by
  intro g h
  cases g <;> cases h <;> simp [groupCode]

theorem groupBits_encodeWord (i : Instr) : (encodeWord i).extractLsb' 4 4 = groupCode i.group := by
  cases i <;> rfl

theorem group_eq_iff (i : Instr) (g : Group) : i.group = g ↔ (encodeWord i).extractLsb' 4 4 = groupCode g := by
  rw [groupBits_encodeWord, groupCode_injective.eq_iff]

/-- R92: "bits 3:0 the stage, with 0xF the composite command of the group". -/
theorem stageBits_encodeWord (i : Instr) : (encodeWord i).extractLsb' 0 4 = 0xF#4 ↔ i = .encode ∨ i = .decode := by
  cases i <;> decide

theorem decodeWord_encodeWord (i : Instr) : decodeWord (encodeWord i) = .ok i :=
  (decodedWordsAreExactlyTheTableWords _ i).2 rfl

/-- Settles O2: the ten words are those the encoder gives. -/
theorem tableWordsDecodeToTheirCommands : Obligations.TableWordsDecodeToTheirCommands :=
  ⟨decodeWord_encodeWord .nop, decodeWord_encodeWord .clear, decodeWord_encodeWord .countFreq,
    decodeWord_encodeWord .buildTree, decodeWord_encodeWord .genCodes, decodeWord_encodeWord .serialize,
    decodeWord_encodeWord .encode, decodeWord_encodeWord .buildDecodeTree, decodeWord_encodeWord .deserialize,
    decodeWord_encodeWord .decode,
    fun i => ⟨group_eq_iff i .control, group_eq_iff i .encoder, group_eq_iff i .decoder, stageBits_encodeWord i⟩⟩

end Sys2Proof.Machine
end

section
/-! PROOFS. The two waits of the host (R102, R202). -/

namespace Sys2Proof.Machine

/-- R27: BUSY is bit 0 of STATUS. -/
theorem Status.getLsbD_word_zero (t : Status) : t.word.getLsbD 0 = t.busy := by
  rw [t.getLsbD_word (by decide)]
  simp

/-- STATUS answers a read whether the block is busy or not (R75). -/
theorem State.busRead_status (s : State) : s.busRead 4 statusOffset = ⟨.okay, s.status.word, s⟩ :=
  s.busRead_of_region rfl (r := .reg .status) rfl (.inr rfl)

/-- R102: a `wait` reads STATUS and keeps its place in the script while BUSY is 1. -/
theorem State.perform_wait (s : State) (rest : List HostOp) :
    s.perform .wait rest =
      (if s.status.busy then s else s.goOn rest).reply (.read .okay s.status.word) := by
  simp only [State.perform, State.busRead_status, Status.getLsbD_word_zero]
  split <;> rfl

/-- Settles O32: `waitIrq` goes by `irq`, `wait` by BUSY. -/
theorem waitReadsStatusUntilBusyIsZero : Obligations.WaitReadsStatusUntilBusyIsZero := by
  refine ⟨fun s rest _ => ⟨fun hirq => ?_, fun hirq => ?_⟩, fun s rest _ => ⟨fun hbusy => ?_, fun hbusy => ?_⟩⟩
  · rw [State.perform_waitIrq, hirq, if_neg Bool.false_ne_true]
  · rw [State.perform_waitIrq, hirq, if_pos rfl, State.goOn]
  · rw [State.perform_wait, hbusy, if_pos rfl, State.reply]
  · rw [State.perform_wait, hbusy, if_neg Bool.false_ne_true, State.goOn, State.reply]

end Sys2Proof.Machine
end

section
/-! PROOFS. The life of a command (R110 to R113): its issue, the step that completes it, what is left where it fails, and
the two control commands (R114, R115). -/

namespace Sys2Proof.Machine

/-! ### A failed command of one stage (R112, R186) -/

/-- Only the two composites chain stages (R132, R161). -/
theorem length_commandStages_le_one {i : Instr} (he : i ≠ .encode) (hd : i ≠ .decode) :
    (commandStages i).length ≤ 1 := by
  cases i with
  | encode => exact absurd rfl he
  | decode => exact absurd rfl hd
  | nop => exact Nat.zero_le 1
  | _ => exact Nat.le_refl 1

/-- R112: an error of the only stage leaves the state the command began in. -/
theorem runStages_failed {stages : List (State → StageResult)} (hlen : stages.length ≤ 1) {s t : State}
    (h : runStages stages s = .next t) (herr : t.status.errCode ≠ 0#8) : t = s.complete t.status.errCode := by
  match stages, hlen with
  | [], _ =>
    obtain rfl := Host.Outcome.next.inj h
    exact absurd rfl herr
  | [stage], _ =>
    rcases runStages_one_next h with ⟨s', -, rfl⟩ | ⟨e, -, rfl⟩
    · exact absurd rfl herr
    · rfl

/-- Settles O9: a next state is a completed one (`exec_next`), and a command that is no composite has at most one stage
to fail in. -/
theorem failedCommandChangesOnlyItsResult : Obligations.FailedCommandChangesOnlyItsResult := by
  intro i s t h
  obtain ⟨u, c, ht⟩ := exec_next h
  refine ⟨?_, ?_, fun he hd herr => ?_⟩
  · rw [ht, State.complete_busy]
  · rw [ht, State.complete_done]
  · rw [exec_eq_runStages] at h
    exact runStages_failed (length_commandStages_le_one he hd) h herr

/-! ### The completion step (R111, R113) -/

section
variable {s : State} (hr : s.hasReset = true) (hb : s.status.busy = true)
  (hdue : s.master.script = [] ∨ s.latency = 0)
include hr hb hdue

theorem step_of_due : step s = completeStep s :=
  if_pos (s.completionDue_iff.2 ⟨hr, hb, hdue⟩)

theorem step_of_decoded {i : Instr} (hi : decodeWord s.lastCmd = .ok i) : step s = exec i s := by
  rw [step_of_due hr hb hdue, completeStep, hi]

/-- R113, R94: a word that is no table word is illegal. -/
theorem step_of_illegal (hi : ∀ i, s.lastCmd ≠ encodeWord i) : step s = .next (s.complete Err.illegalCmd.code) := by
  rw [step_of_due hr hb hdue, completeStep]
  split
  case h_1 i hw => exact absurd ((decodedWordsAreExactlyTheTableWords _ i).1 hw) (hi i)
  case h_2 => rfl

end

theorem State.withFetchWord_lastCmd (s : State) (w : Word) : (s.withFetchWord 32 w.toNat).lastCmd = w := by
  rw [State.withFetchWord, Nat.mod_eq_of_lt w.isLt, BitVec.ofNat_toNat, BitVec.setWidth_eq]

/-- Settles O4: `step_of_decoded`, whose hypotheses the state of `withFetchWord` meets. -/
theorem stepRunsTheDecodedCommand : Obligations.StepRunsTheDecodedCommand := by
  refine ⟨fun s i hr hb hdue hi => step_of_decoded hr hb hdue hi, fun s i => ?_⟩
  refine step_of_decoded rfl rfl (.inr rfl) ?_
  rw [State.withFetchWord_lastCmd, decodeWord_encodeWord]

/-- Settles O8: `step_of_illegal`, the code of ILLEGAL_CMD being 10. -/
theorem illegalWordCompletesWithIllegalCmd : Obligations.IllegalWordCompletesWithIllegalCmd :=
  fun _ hr hb hdue hi => step_of_illegal hr hb hdue hi

/-! ### Issue (R110, R75) -/

/-- Settles O6: the offset is that of COMMAND, whose write issues the word, or is dropped where BUSY = 1. -/
theorem commandWriteIssuesTheWord : Obligations.CommandWriteIssuesTheWord := by
  intro s w
  refine ⟨fun hb => ?_, fun hb => s.busWrite_dropped hb rfl (.inl (by decide)) w⟩
  have hw : s.busWrite 4 0x018#20 w = ⟨.okay, s.issue w⟩ :=
    s.busWrite_of_region rfl (r := .reg .command) rfl (.inl hb) w
  refine ⟨hw, ?_⟩
  rw [hw, State.phase, State.issue_busy, if_pos rfl]

/-! ### The control commands (R114, R115) -/

theorem exec_nop (s : State) : exec .nop s = .next (s.complete 0#8) := runStages_nil s

theorem exec_clear (s : State) : exec .clear s = .next (s.cleared.complete 0#8) := runStages_of_done rfl []

/-- Settles O33: NOP has no stage, so it only completes. -/
theorem nopCompletesWithNoEffect : Obligations.NopCompletesWithNoEffect := ⟨rfl, exec_nop⟩

/-- Settles O34: CLEAR completes the state of `State.cleared`, whose two tables hold one value throughout. -/
theorem clearReturnsEngineStateToReset : Obligations.ClearReturnsEngineStateToReset := by
  refine ⟨rfl, fun s => ⟨s.cleared.complete 0#8, exec_clear s, fun c => ?_, fun c => ?_, rfl⟩⟩
  · exact Table.entry_tabulate _ c
  · have hct : (s.cleared.complete 0#8).ct.entry c = CtEntry.absent := Table.entry_tabulate _ c
    rw [hct]
    exact ⟨rfl, rfl, rfl⟩

end Sys2Proof.Machine
end

section
/-! PROOFS. The encoder's commands one at a time (R121 to R130): what COUNT_FREQ, BUILD_TREE, GEN_CODES and SERIALIZE
answer in each of their cases, and the statements on the counts, the queue and the length registers. -/

namespace Sys2Proof.Machine

variable {s t : State}

/-! ### What each command answers -/

theorem exec_countFreq_long (h : s.params.textCap < s.textLen.toNat) :
    exec .countFreq s = .next (s.complete Err.length.code) := runStages_of_raised (if_pos h) []

theorem exec_countFreq (h : s.textLen.toNat ≤ s.params.textCap) : exec .countFreq s = .next (s.counted.complete 0#8) :=
  runStages_of_done (countFreqStage_done h) []

theorem exec_buildTree_empty (h : leafTotal s.freq = 0) : exec .buildTree s = .next (s.complete Err.emptyText.code) :=
  runStages_of_raised (if_pos h) []

theorem exec_buildTree (h : leafTotal s.freq ≠ 0) : exec .buildTree s = .next (s.built.complete 0#8) :=
  runStages_of_done (buildTreeStage_done h) []

theorem exec_genCodes_noTree (h : s.status.treeValid = false) :
    exec .genCodes s = .next (s.complete Err.noTree.code) :=
  runStages_of_raised (if_pos (by rw [h]; rfl)) []

theorem exec_genCodes {leaves : List CodePair} (hv : s.status.treeValid = true) (hw : s.treeCodes = .ok leaves) :
    exec .genCodes s = .next ((s.generated leaves).complete 0#8) :=
  runStages_of_done (genCodesStage_done hv hw) []

theorem exec_serialize_long (h : s.params.textCap < s.textLen.toNat) :
    exec .serialize s = .next (s.complete Err.length.code) := runStages_of_raised (if_pos h) []

section
variable (hcap : s.textLen.toNat ≤ s.params.textCap)
include hcap

theorem exec_serialize_absent (h : ∃ b ∈ s.textInput, (s.ct.entry b).valid = false) :
    exec .serialize s = .next (s.complete Err.symbolAbsent.code) :=
  runStages_of_raised ((if_neg (Nat.not_lt.2 hcap)).trans (if_pos (by simpa using h))) []

variable (hval : ∀ b ∈ s.textInput, (s.ct.entry b).valid = true)
include hval

theorem exec_serialize_overflow (h : s.params.bitsCap < totalLen s.ct s.textInput) :
    exec .serialize s = .next (s.complete Err.bitsOverflow.code) :=
  runStages_of_raised
    ((if_neg (Nat.not_lt.2 hcap)).trans ((if_neg (by simpa using hval)).trans (if_pos h))) []

theorem exec_serialize (h : totalLen s.ct s.textInput ≤ s.params.bitsCap) :
    exec .serialize s = .next (s.serialized.complete 0#8) :=
  runStages_of_done
    ((if_neg (Nat.not_lt.2 hcap)).trans ((if_neg (by simpa using hval)).trans (if_neg (Nat.not_lt.2 h)))) []

end

/-- A BUILD_TREE that ends with OK found a symbol with a count. -/
theorem exec_buildTree_ok (h : exec .buildTree s = .next t) (herr : t.status.errCode = 0#8) :
    leafTotal s.freq ≠ 0 ∧ t = s.built.complete 0#8 := by
  by_cases h0 : leafTotal s.freq = 0
  · obtain rfl := Host.Outcome.next.inj ((exec_buildTree_empty h0).symm.trans h)
    exact absurd herr Err.emptyText.code_ne_zero
  · exact ⟨h0, Host.Outcome.next.inj (h.symm.trans (exec_buildTree h0))⟩

/-- A COUNT_FREQ that ends with OK counted a text within TEXT_CAP. -/
theorem exec_countFreq_ok (h : exec .countFreq s = .next t) (herr : t.status.errCode = 0#8) :
    t = s.counted.complete 0#8 := by
  rcases Nat.lt_or_ge s.params.textCap s.textLen.toNat with hlong | hcap
  · obtain rfl := Host.Outcome.next.inj ((exec_countFreq_long hlong).symm.trans h)
    exact absurd herr Err.length.code_ne_zero
  · exact Host.Outcome.next.inj (h.symm.trans (exec_countFreq hcap))

/-! ### The counts (R121) -/

/-- The count of a symbol in the text, by the indices it stands at. -/
theorem State.count_textInput (s : State) (c : Byte) :
    s.textInput.count c = ((List.range s.textLen.toNat).filter (fun i => s.textByte i = c)).length := by
  rw [State.textInput, List.count, List.countP_map, List.countP_eq_length_filter]
  rfl

theorem State.counted_leafCount_toNat (s : State) : s.counted.leafCount.toNat = leafTotal s.counted.freq := by
  rw [State.counted, BitVec.toNat_ofNat]
  exact Nat.mod_eq_of_lt ((leafTotal_le _).trans_lt (by decide))

/-- Settles O35: a count is that of the text as a list, and LEAF_COUNT holds any number of leaves. -/
theorem countFreqCountsTheText : Obligations.CountFreqCountsTheText := by
  refine ⟨rfl, fun s => ⟨exec_countFreq_long, fun h => ⟨_, exec_countFreq h, fun c => ?_, ?_, rfl⟩⟩⟩
  · exact (s.textCounts_entry_toNat c).trans (s.count_textInput c)
  · exact s.counted_leafCount_toNat.trans (leafTotal_eq _)

/-! ### The queue (R123, R124) -/

/-- Among items with distinct nodes, the nodes tell the items apart. -/
theorem QueueItem.node_ne_of_mem {q : List QueueItem} (hn : (q.map QueueItem.node).Nodup) {a c : QueueItem} (ha : a ∈ q)
    (hc : c ∈ q) : c.node ≠ a.node ↔ c ≠ a :=
  not_congr ⟨List.inj_on_of_nodup_map hn hc ha, congrArg _⟩

/-- Taking an item out of a queue with distinct nodes takes its node out. -/
theorem erase_eq_filter_node {q : List QueueItem} (hn : (q.map QueueItem.node).Nodup) {a : QueueItem} (ha : a ∈ q) :
    q.erase a = q.filter (fun c => c.node ≠ a.node) := by
  rw [hn.of_map.erase_eq_filter]
  refine List.filter_congr fun c hc => ?_
  rw [bne, decide_eq_decide.2 (QueueItem.node_ne_of_mem hn ha hc), decide_not, beq_eq_decide]

/-- Settles O36: `Forest.combine_cases`, whose two pops take items out by their nodes. -/
theorem combinationTakesTheTwoLeastNodes : Obligations.CombinationTakesTheTwoLeastNodes := by
  intro t h2 hn
  rcases t.combine_cases with ⟨hlt, -⟩ | ⟨a, b, ha, hb, hla, hlb, hc⟩
  · omega
  have herase := erase_eq_filter_node hn ha
  have hmem : ∀ c, c ∈ t.queue.erase a ↔ c ∈ t.queue ∧ c.node ≠ a.node := by simp [herase]
  obtain ⟨hbq, hba⟩ := (hmem b).1 hb
  have hn' : ((t.queue.erase a).map QueueItem.node).Nodup := hn.sublist (List.erase_sublist.map _)
  refine ⟨a, b, ha, hbq, hba.symm, fun c hcq hca => ?_, fun c hcq hca hcb => ?_, ?_⟩
  · exact (QueueItem.precedes_iff a c).1 ((hla c hcq).resolve_left ((QueueItem.node_ne_of_mem hn ha hcq).1 hca))
  · have hce := (hmem c).2 ⟨hcq, hca⟩
    exact (QueueItem.precedes_iff b c).1 ((hlb c hce).resolve_left ((QueueItem.node_ne_of_mem hn' hb hce).1 hcb))
  · rw [hc, erase_eq_filter_node hn' hb, herase, List.filter_filter]
    simp only [Bool.decide_and, Bool.and_comm]

/-! ### MIN_LEN and MAX_LEN (R135) -/

/-- The lengths MIN_LEN and MAX_LEN range over (R135). -/
def decodableLens (ct : Table CtEntry) : List Nat := (decodableSet ct).map (fun e => e.code.length)

theorem mem_decodableLens (ct : Table CtEntry) (n : Nat) :
    n ∈ decodableLens ct ↔ ∃ c, (ct.entry c).valid = true ∧ (ct.entry c).len ≠ 0#8 ∧ (ct.entry c).len.toNat = n := by
  constructor
  · intro hn
    obtain ⟨e, he, rfl⟩ := List.mem_map.1 hn
    obtain ⟨hd, hcode⟩ := (mem_decodableSet ct e).1 he
    obtain ⟨hv, hl⟩ := (CtEntry.decodable_iff _).1 hd
    exact ⟨e.symbol, hv, hl, by rw [hcode, CtEntry.length_code]⟩
  · rintro ⟨c, hv, hl, rfl⟩
    exact List.mem_map.2 ⟨⟨c, (ct.entry c).code⟩,
      (mem_decodableSet ct _).2 ⟨(CtEntry.decodable_iff _).2 ⟨hv, hl⟩, rfl⟩, CtEntry.length_code _⟩

/-- Settles O42: the least and the greatest element of a list of lengths, which are in it unless it is empty. -/
theorem minAndMaxLenRangeOverDecodableEntries : Obligations.MinAndMaxLenRangeOverDecodableEntries := by
  intro ct
  have hmin : minDecodable ct = (decodableLens ct).min?.getD 0 := rfl
  have hmax : maxDecodable ct = (decodableLens ct).max?.getD 0 := rfl
  refine ⟨fun hnone => ?_, fun ⟨c, hv, hl⟩ => ?_⟩
  · have hnil : decodableLens ct = [] := List.eq_nil_iff_forall_not_mem.2 fun n hn => by
      obtain ⟨c, hv, hl, -⟩ := (mem_decodableLens ct n).1 hn
      exact hl (hnone c hv)
    rw [hmin, hmax, hnil]
    exact ⟨rfl, rfl⟩
  · have hne : decodableLens ct ≠ [] := List.ne_nil_of_mem ((mem_decodableLens ct _).2 ⟨c, hv, hl, rfl⟩)
    obtain ⟨lo, hlo⟩ := Option.ne_none_iff_exists'.1 (mt List.min?_eq_none_iff.1 hne)
    obtain ⟨hi, hhi⟩ := Option.ne_none_iff_exists'.1 (mt List.max?_eq_none_iff.1 hne)
    refine ⟨(mem_decodableLens ct _).1 ?_, (mem_decodableLens ct _).1 ?_, fun d hdv hdl => ?_⟩
    · rw [hmin, hlo]
      exact List.min?_mem hlo
    · rw [hmax, hhi]
      exact List.max?_mem hhi
    · have hd := (mem_decodableLens ct _).2 ⟨d, hdv, hdl, rfl⟩
      exact ⟨hmin ▸ List.min?_getD_le_of_mem hd, hmax ▸ List.le_max?_getD_of_mem hd⟩

/-! ### SERIALIZE (R130) -/

/-- R96: byte `i` of BITS_MEM after SERIALIZE is character `i` of the bit-string, as a byte, or what it was. -/
theorem State.bitsByte_serialized (s : State) (i : Nat) :
    s.serialized.bitsByte i = ((bitString s.ct s.textInput)[i]?.map byteOfBit).getD (s.bitsByte i) := by
  rw [← List.getElem?_map]
  exact s.bitsByte_overwrite _ i

/-- R96: the byte of a character, or another byte where there is no character. -/
theorem getD_map_byteOfBit (o : Option Bool) (b : Byte) : (o.map byteOfBit).getD b = match o with
    | some true => 0x31#8
    | some false => 0x30#8
    | none => b := by
  rcases o with _ | _ | _ <;> rfl

/-- Settles O44: the answers of SERIALIZE in its four cases. -/
theorem serializeConcatenatesTheCodes : Obligations.SerializeConcatenatesTheCodes := by
  refine ⟨rfl, fun s => ⟨exec_serialize_long, exec_serialize_absent, exec_serialize_overflow, fun hcap hval hfit => ?_⟩⟩
  exact ⟨length_bitString s.ct s.textInput, _, exec_serialize hcap hval hfit,
    fun i => (s.bitsByte_serialized i).trans (getD_map_byteOfBit _ _), rfl⟩

end Sys2Proof.Machine
end

section
/-! PROOFS. The tree BUILD_TREE leaves (R122 to R127) and the codes GEN_CODES makes of a tree (R128, R129). A built tree
is a single leaf or an internal node; the first is the degenerate case of R126, the second has at least two leaves. -/

namespace Sys2Proof.Machine

variable {s t : State} {f : Table Word} {x : HTree}

/-! ### The arena BUILD_TREE leaves -/

theorem State.nodeAt_built (s : State) (c : Byte) (i : Nat) :
    (s.built.complete c).nodeAt i = ((huffmanForest s.freq).nodes[i]?).getD (s.nodeAt i) := s.nodeAt_overwrite _ i

theorem State.TreeOf.complete {n : Nat} (h : s.TreeOf n) (c : Byte) : (s.complete c).TreeOf n :=
  ⟨h.some_leaf, h.at_most, h.count, h.root, h.degenerate, h.leaves, h.internals⟩

theorem BuiltTree.rep_built (h : BuiltTree s.freq x) (c : Byte) :
    x.Rep (fun i => some ((s.built.complete c).nodeAt i)) :=
  h.rep.mono fun i n hi => by rw [State.nodeAt_built, hi, Option.getD_some]

theorem BuiltTree.root_built (h : BuiltTree s.freq x) (h0 : leafTotal s.freq ≠ 0) : s.built.root.toNat = x.idx :=
  (h.treeOf_built h0).root.trans h.root.symm

theorem BuiltTree.root_freq_built (h : BuiltTree s.freq x) (h0 : leafTotal s.freq ≠ 0) (c : Byte) :
    ((s.built.complete c).nodeAt s.built.root.toNat).freq = x.weight := by
  obtain ⟨n, hn, hf⟩ := (h.rep_built c).node_freq
  rw [h.root_built h0, Option.some.inj hn, hf]

/-- Settles O37: `ForestOf.after` for any number of turns, and the one tree of `builtTree` for as many as there are
leaves. -/
theorem buildTreeRunsTheLoopToItsEnd : Obligations.BuildTreeRunsTheLoopToItsEnd := by
  refine ⟨fun f => ⟨?_, fun turns item hi => ?_⟩, fun s => ⟨fun h => ?_, fun ⟨c, hc⟩ => ?_⟩⟩
  · exact (queueFrom_nodes 0 _).trans List.range_eq_range'.symm
  · obtain ⟨trees, h⟩ := (leafForest_of f).after (length_leafNodes f ▸ leafTotal_le f) turns
    exact h.queue_freq hi
  · exact exec_buildTree_empty ((leafTotal_eq_zero_iff _).2 h)
  have h0 : leafTotal s.freq ≠ 0 := fun h => hc ((leafTotal_eq_zero_iff _).1 h c)
  obtain ⟨x, hx⟩ := builtTree _ h0
  refine ⟨_, huffmanForest s.freq, leafTotal s.freq, exec_buildTree h0, rfl, ?_, ?_, fun i hi => ⟨?_, fun second => ?_⟩,
    fun i hi => ⟨?_, s.nodeWord_overwrite_of_le hi⟩, ?_⟩
  · rw [hx.queue, HTree.item, State.complete_root, hx.root_freq_built h0, hx.root_built h0]
  · exact (hx.treeOf_built h0).count.trans hx.length.symm
  · rw [State.nodeAt_built, List.getElem?_eq_getElem hi, Option.getD_some]
  · refine State.nodeWord_of_get? ?_ second
    rw [State.complete_nodes, State.built, Sparse.get?_overwrite, List.getElem?_eq_getElem hi]
    rfl
  · rw [State.nodeAt_built, List.getElem?_eq_none hi, Option.getD_none]
  · rw [State.built, leafTotal_eq]
    rfl

/-! ### The leaves (R122) -/

theorem symbols_pairwise : symbols.Pairwise (· < ·) := by
  refine List.pairwise_map.2 (List.pairwise_lt_range.imp_of_mem fun {i j} hi hj hij => ?_)
  rw [List.mem_range] at hi hj
  rw [BitVec.lt_def, BitVec.toNat_ofNat, BitVec.toNat_ofNat]
  omega

/-- In a rising list an element stands at the index that is the number of smaller elements. -/
theorem getElem?_length_filter_lt {l : List Byte} (hl : l.Pairwise (· < ·)) {c : Byte} (hc : c ∈ l) :
    l[(l.filter (· < c)).length]? = some c := by
  induction l with
  | nil => cases hc
  | cons a l ih =>
    obtain ⟨ha, hl⟩ := List.pairwise_cons.1 hl
    rcases List.mem_cons.1 hc with rfl | hc
    · have hnil : (c :: l).filter (· < c) = [] := by
        refine List.filter_eq_nil_iff.2 fun d hd => ?_
        rcases List.mem_cons.1 hd with rfl | hd
        · simp
        · simpa using BitVec.le_of_lt (ha d hd)
      rw [hnil]
      rfl
    · rw [List.filter_cons_of_pos (by simpa using ha c hc), List.length_cons, List.getElem?_cons_succ]
      exact ih hl hc

/-- R122: the leaf of a symbol with a count stands at the number of smaller such symbols. -/
theorem BuiltTree.leaf_getElem? (h : BuiltTree f x) {c : Byte} (hc : f.entry c ≠ 0#32) :
    (huffmanForest f).nodes[(symbols.filter (fun d => d < c ∧ f.entry d ≠ 0#32)).length]? =
      some (.leaf c (f.entry c)) := by
  have hmem : c ∈ symbols.filter (fun d => f.entry d ≠ 0#32) :=
    List.mem_filter.2 ⟨Machine.mem_symbols c, decide_eq_true hc⟩
  have hrank := getElem?_length_filter_lt (symbols_pairwise.filter _) hmem
  rw [List.filter_filter] at hrank
  simp only [← Bool.decide_and] at hrank
  have hlt := (List.getElem?_eq_some_iff.1 hrank).1
  rw [← leafTotal_eq] at hlt
  rw [h.first _ hlt, leafNodes_getElem?, hrank]
  rfl

/-- Settles O38: the arena holds the leaves of the loop where `BuiltTree.leaf_getElem?` finds them. -/
theorem leavesStandInSymbolOrder : Obligations.LeavesStandInSymbolOrder := by
  intro s t h herr c hc
  obtain ⟨h0, rfl⟩ := exec_buildTree_ok h herr
  obtain ⟨x, hx⟩ := builtTree _ h0
  rw [State.nodeAt_built, hx.leaf_getElem? hc, Option.getD_some]

/-! ### One leaf or more -/

theorem BuiltTree.leafTotal_of_leaf {i : Nat} {c : Byte} {g : Word} (h : BuiltTree f (.leaf i c g)) :
    leafTotal f = 1 := by
  have := h.indices.length_eq
  rw [List.length_range, HTree.indices, List.length_singleton] at this
  omega

theorem BuiltTree.leafTotal_of_node {i : Nat} {l r : HTree} (h : BuiltTree f (.node i l r)) : 2 ≤ leafTotal f := by
  have := h.indices.length_eq
  have := l.length_indices_pos
  have := r.length_indices_pos
  simp only [List.length_range, HTree.indices, List.length_cons, List.length_append] at *
  omega

theorem leafTotal_eq_one {c : Byte} (hc : f.entry c ≠ 0#32) (hd : ∀ d, d ≠ c → f.entry d = 0#32) : leafTotal f = 1 := by
  have hperm : (symbols.filter (fun d => f.entry d ≠ 0#32)).Perm [c] := by
    rw [List.perm_ext_iff_of_nodup (symbols_nodup.filter _) (List.nodup_singleton c)]
    intro d
    rw [List.mem_filter, List.mem_singleton, decide_eq_true_eq]
    exact ⟨fun h => by_contra fun hne => h.2 (hd d hne), fun h => ⟨mem_symbols d, h ▸ hc⟩⟩
  rw [leafTotal_eq, hperm.length_eq, List.length_singleton]

/-- R126: the tree of one symbol is its leaf. -/
theorem BuiltTree.codes_of_one (h : BuiltTree f x) (h1 : leafTotal f = 1) {c : Byte} (hc : f.entry c ≠ 0#32) :
    x.codes [] = [⟨c, []⟩] := by
  cases x with
  | leaf i d g =>
    obtain rfl : c = d := by simpa [HTree.leaves] using (h.mem_symbols c).2 hc
    rfl
  | node i l r => exact absurd h.leafTotal_of_node (by omega)

/-! ### The shape (R127) -/

/-- The counts of a text add up to its length, as words. -/
theorem sum_textCounts (text : List Byte) :
    (symbols.map (textCounts text).entry).sum = BitVec.ofNat 32 text.length := by
  have hlen : (symbols.map text.count).sum = text.length := by
    simpa using (sum_map_eq_counts (fun _ => 1) text).symm
  have hentry : (textCounts text).entry = Nat.cast ∘ text.count := funext (Table.entry_tabulate _)
  rw [hentry, ← List.map_map, ← Nat.cast_list_sum, hlen, BitVec.natCast_eq_ofNat]

/-- Settles O40: the arena holds a tree whose indices are those below NODE_COUNT, each once. -/
theorem builtTreeHasTheStatedShape : Obligations.BuiltTreeHasTheStatedShape := by
  intro s t h herr
  obtain ⟨h0, rfl⟩ := exec_buildTree_ok h herr
  obtain ⟨x, hx⟩ := builtTree _ h0
  have htree := hx.treeOf_built h0
  have hrep := hx.rep_built 0#8
  have hroot : (s.built.complete 0#8).root.toNat = x.idx := hx.root_built h0
  have hfreq := (hx.root_freq_built h0 0#8).trans hx.weight
  refine ⟨_, leafTotal_eq _, htree.complete _, hfreq, fun i hi => ?_, fun r hr herr => ?_⟩
  · have hmem : i ∈ x.indices := hx.indices.symm.subset (List.mem_range.2 (htree.count ▸ hi))
    rw [hroot]
    obtain ⟨p, hp⟩ := hrep.exists_path i hmem
    exact ⟨p, hp, fun q hq => hrep.path_unique (hx.indices.nodup_iff.2 List.nodup_range) q p i hq hp⟩
  · obtain rfl := exec_countFreq_ok hr herr
    refine hfreq.trans ((sum_textCounts _).trans ?_)
    rw [State.length_textInput, BitVec.ofNat_toNat, BitVec.setWidth_eq]
    rfl

/-! ### The walk (R128) -/

/-- Settles O41: the walk lists the ends of the paths (`mem_treeWalk`), and the table holds what it lists. -/
theorem genCodesRecordsThePathsToTheLeaves : Obligations.GenCodesRecordsThePathsToTheLeaves := by
  refine fun s => ⟨exec_genCodes_noTree, fun hv ⟨leaves, hw, hn⟩ => ?_⟩
  have hmem := mem_treeWalk s _ _ _ leaves hw
  refine ⟨_, exec_genCodes hv hw, fun c p i f hp hi => ?_, fun c hc => ?_, ?_, ?_, rfl⟩
  · have hleaf : (⟨c, p⟩ : CodePair) ∈ leaves := (hmem _).2 ⟨p, i, f, rfl, hp, hi⟩
    have hlen : p.length ≤ 255 := Nat.le_of_lt_succ (by
      simpa [Config.maxCodeLen] using treeWalk_code_length _ _ _ _ _ hw _ hleaf)
    have hent : (codeTable leaves).entry c = CtEntry.ofCode p := entry_codeTable_of_mem _ hn hleaf
    rw [State.complete_ct, State.generated_ct, hent]
    refine ⟨rfl, CtEntry.len_ofCode p hlen, CtEntry.code_ofCode p hlen, fun j hj => ?_, fun j hj => ?_⟩
    · rw [CtEntry.getLsbD_ofCode p hlen, List.getD_eq_getElem _ _ hj]
    · rw [CtEntry.getLsbD_ofCode p hlen, List.getD_eq_default _ _ hj]
  · refine entry_codeTable_of_not_mem _ c fun hin => ?_
    obtain ⟨e, he, rfl⟩ := List.mem_map.1 hin
    obtain ⟨p, j, f, -, hp, hj⟩ := (hmem e).1 he
    exact hc p j f hp hj
  · exact (BitVec.toNat_ofNat _ _).trans (Nat.mod_eq_of_lt (Nat.lt_succ_of_le (minDecodable_le _)))
  · exact (BitVec.toNat_ofNat _ _).trans (Nat.mod_eq_of_lt (Nat.lt_succ_of_le (maxDecodable_le _)))

/-! ### The generated table (R129) -/

theorem BuiltTree.codes_symbols_nodup (h : BuiltTree f x) : ((x.codes []).map CodePair.symbol).Nodup :=
  x.codes_symbols [] ▸ h.symbols_nodup

theorem BuiltTree.mem_codes_symbols (h : BuiltTree f x) (c : Byte) :
    c ∈ (x.codes []).map CodePair.symbol ↔ f.entry c ≠ 0#32 := x.codes_symbols [] ▸ h.mem_symbols c

theorem BuiltTree.valid_iff (h : BuiltTree f x) (c : Byte) :
    ((codeTable (x.codes [])).entry c).valid = true ↔ f.entry c ≠ 0#32 := by
  refine ⟨fun hv hc => ?_, h.codeTable_valid⟩
  rw [entry_codeTable_of_not_mem _ c (mt (h.mem_codes_symbols c).1 (not_not.2 hc))] at hv
  cases hv

theorem BuiltTree.code_of_mem (h : BuiltTree f x) {e : CodePair} (he : e ∈ x.codes []) :
    ((codeTable (x.codes [])).entry e.symbol).code = e.code := by
  rw [entry_codeTable_of_mem _ h.codes_symbols_nodup he, CtEntry.code_ofCode _ (h.code_length he)]

/-- A present entry holds a code of the tree. -/
theorem BuiltTree.mem_codes_of_valid (h : BuiltTree f x) {c : Byte}
    (hv : ((codeTable (x.codes [])).entry c).valid = true) :
    ⟨c, ((codeTable (x.codes [])).entry c).code⟩ ∈ x.codes [] := by
  obtain ⟨e, he, rfl⟩ := List.mem_map.1 ((h.mem_codes_symbols c).2 ((h.valid_iff c).1 hv))
  rw [h.code_of_mem he]
  exact he

/-- R129: with more than one leaf no code is empty. -/
theorem BuiltTree.len_ne_zero (h : BuiltTree f x) (h1 : leafTotal f ≠ 1) {c : Byte}
    (hv : ((codeTable (x.codes [])).entry c).valid = true) : ((codeTable (x.codes [])).entry c).len ≠ 0#8 := by
  intro hlen
  have hmem := h.mem_codes_of_valid hv
  have hnil : ((codeTable (x.codes [])).entry c).code = [] :=
    List.eq_nil_of_length_eq_zero ((CtEntry.length_code _).trans (congrArg BitVec.toNat hlen))
  cases x with
  | leaf i d g => exact h1 h.leafTotal_of_leaf
  | node i l r =>
    rcases List.mem_append.1 hmem with he | he
    · simpa [hnil] using l.codes_prefix _ he
    · simpa [hnil] using r.codes_prefix _ he

/-- R126: with one leaf its code is empty. -/
theorem BuiltTree.len_of_one (h : BuiltTree f x) (h1 : leafTotal f = 1) {c : Byte}
    (hv : ((codeTable (x.codes [])).entry c).valid = true) : ((codeTable (x.codes [])).entry c).len = 0#8 := by
  have hmem : (⟨c, []⟩ : CodePair) ∈ x.codes [] :=
    h.codes_of_one h1 ((h.valid_iff c).1 hv) ▸ List.mem_singleton_self _
  exact congrArg CtEntry.len (entry_codeTable_of_mem _ h.codes_symbols_nodup hmem)

/-- Settles O39: the only leaf is the root, and its code is empty. -/
theorem degenerateTreeIsOneLeafWithTheEmptyCode : Obligations.DegenerateTreeIsOneLeafWithTheEmptyCode := by
  intro s c hc hd
  have h1 := leafTotal_eq_one hc hd
  have h0 : leafTotal s.freq ≠ 0 := by omega
  obtain ⟨x, hx⟩ := builtTree _ h0
  have htree : s.built.TreeOf 1 := h1 ▸ hx.treeOf_built h0
  have hvalid := (hx.valid_iff c).2 hc
  refine ⟨_, _, exec_buildTree h0, ?_, BitVec.eq_of_toNat_eq htree.root, BitVec.eq_of_toNat_eq htree.count,
    htree.degenerate, exec_genCodes rfl (hx.treeCodes_eq rfl rfl), hvalid, hx.len_of_one h1 hvalid,
    fun d hdc => Bool.eq_false_iff.2 (mt (hx.valid_iff d).1 (not_not.2 (hd d hdc)))⟩
  have hleaf := hx.leaf_getElem? hc
  have hlt := (List.getElem?_eq_some_iff.1 hleaf).1
  rw [hx.length, h1] at hlt
  rw [Nat.lt_one_iff.1 hlt] at hleaf
  rw [State.nodeAt_built, hleaf, Option.getD_some]

theorem HTree.height_pos (x : HTree) : 1 ≤ x.height := by cases x <;> simp [height]

/-- R129, Kraft's equation: the shares of the leaves add up to the share of the root. -/
theorem HTree.kraft_sum (x : HTree) {n : Nat} (c : Code) (h : c.length + x.height ≤ n + 1) :
    ((x.codes c).map (fun e => 2 ^ (n - e.code.length))).sum = 2 ^ (n - c.length) := by
  induction x generalizing c with
  | leaf i s f => simp [codes]
  | node i l r ihl ihr =>
    have := l.height_pos
    simp only [height] at h
    have hchild : ∀ b, (c ++ [b]).length = c.length + 1 := fun b => List.length_append
    rw [codes, List.map_append, List.sum_append, ihl _ (by rw [hchild]; omega), ihr _ (by rw [hchild]; omega), hchild,
      hchild, ← Nat.two_mul, ← pow_succ']
    congr 1
    omega

theorem BuiltTree.kraft_sum (h : BuiltTree f x) :
    ((symbols.filter (fun c => ((codeTable (x.codes [])).entry c).valid)).map
      (fun c => 2 ^ (255 - ((codeTable (x.codes [])).entry c).len.toNat))).sum = 2 ^ 255 := by
  have hperm : (symbols.filter (fun c => ((codeTable (x.codes [])).entry c).valid)).Perm
      ((x.codes []).map CodePair.symbol) := by
    rw [List.perm_ext_iff_of_nodup (Machine.symbols_nodup.filter _) h.codes_symbols_nodup]
    intro c
    rw [List.mem_filter, h.valid_iff, h.mem_codes_symbols]
    exact and_iff_right (Machine.mem_symbols c)
  rw [(hperm.map _).sum_eq, List.map_map]
  have hlen : ∀ e ∈ x.codes [], ((codeTable (x.codes [])).entry e.symbol).len.toNat = e.code.length := fun e he => by
    rw [← CtEntry.length_code, h.code_of_mem he]
  refine (congrArg List.sum (List.map_congr_left fun e he => ?_)).trans
    (x.kraft_sum (n := 255) [] (by simpa using h.height_le))
  rw [Function.comp_apply, hlen e he]

/-- Settles O43: the table holds the codes of the built tree, no two of which are prefixes of each other. -/
theorem generatedCodesAreACompletePrefixFreeCode : Obligations.GeneratedCodesAreACompletePrefixFreeCode := by
  intro s t u ht herr hu
  obtain ⟨h0, rfl⟩ := exec_buildTree_ok ht herr
  obtain ⟨x, hx⟩ := builtTree _ h0
  obtain rfl := Host.Outcome.next.inj ((exec_genCodes rfl (hx.treeCodes_eq rfl rfl)).symm.trans hu)
  rw [← leafTotal_eq, State.complete_ct, State.generated_ct]
  refine ⟨hx.valid_iff, fun h2 => ⟨fun c hc => ?_, fun c d hcd hc hd hpre => ?_, hx.kraft_sum⟩, fun h1 c hc => ?_⟩
  · exact Nat.pos_of_ne_zero (BitVec.toNat_ne.1 (hx.len_ne_zero (by omega) hc))
  · exact hcd (congrArg CodePair.symbol
      (x.codes_prefixFree [] (hx.mem_codes_of_valid hc) (hx.mem_codes_of_valid hd) hpre))
  · exact hx.len_of_one h1 hc

end Sys2Proof.Machine
end

section
/-! PROOFS. ENCODE as a whole (R132, R133): it is its four stages in order, and past its two checks it ends with OK or
with BITS_OVERFLOW. -/

namespace Sys2Proof.Machine

variable {s t : State} {f : Table Word} {x : HTree}

/-! ### What ENCODE answers -/

theorem exec_encode_long (h : s.params.textCap < s.textLen.toNat) :
    exec .encode s = .next (s.complete Err.length.code) := runStages_of_raised (if_pos h) _

theorem exec_encode_empty (hcap : s.textLen.toNat ≤ s.params.textCap) (h : s.textLen = 0#32) :
    exec .encode s = .next (s.complete Err.emptyText.code) :=
  runStages_of_raised ((if_neg (Nat.not_lt.2 hcap)).trans (if_pos h)) _

theorem State.textCounts_entry_ne_zero_iff (s : State) (c : Byte) :
    (textCounts s.textInput).entry c ≠ 0#32 ↔ c ∈ s.textInput := by
  refine ⟨fun h => by_contra fun hc => h (BitVec.eq_of_toNat_eq ?_), State.textCounts_entry_ne_zero⟩
  exact (s.textCounts_entry_toNat c).trans (List.count_eq_zero.2 hc)

/-- R132: every byte of the text has an entry in the table ENCODE generates. -/
theorem BuiltTree.valid_iff_mem_text (h : BuiltTree (textCounts s.textInput) x) (c : Byte) :
    ((codeTable (x.codes [])).entry c).valid = true ↔ c ∈ s.textInput :=
  (h.valid_iff c).trans (s.textCounts_entry_ne_zero_iff c)

/-- SERIALIZE always answers a next state, whatever result code the command before it left. -/
theorem exec_serialize_next (s : State) :
    ∃ d, exec .serialize s = .next d ∧ ∀ c, exec .serialize (s.complete c) = .next d := by
  rcases serializeStage_cases s with ⟨hlong, -⟩ | ⟨hcap, habs, -⟩ | ⟨hcap, hval, hover, -⟩ | ⟨hcap, hval, hfit, -⟩
  · exact ⟨_, exec_serialize_long hlong, fun c => exec_serialize_long (s := s.complete c) hlong⟩
  · exact ⟨_, exec_serialize_absent hcap habs, fun c => exec_serialize_absent (s := s.complete c) hcap habs⟩
  · exact ⟨_, exec_serialize_overflow hcap hval hover,
      fun c => exec_serialize_overflow (s := s.complete c) hcap hval hover⟩
  · exact ⟨_, exec_serialize hcap hval hfit, fun c => exec_serialize (s := s.complete c) hcap hval hfit⟩

/-- Settles O45: each stage reads what the one before it left, but not its result code. -/
theorem encodeIsItsFourStagesInOrder : Obligations.EncodeIsItsFourStagesInOrder := by
  intro s hcap hne
  have h0 := State.leafTotal_textCounts_ne_zero hne
  obtain ⟨x, hx, henc⟩ := exec_encode_eq_serialize hcap hne
  obtain ⟨d, hd, hdc⟩ := exec_serialize_next (s.counted.built.generated (x.codes []))
  exact ⟨_, _, _, d, exec_countFreq hcap, exec_buildTree h0, exec_genCodes rfl (hx.treeCodes_eq rfl rfl), hdc 0#8,
    henc.trans hd, rfl, rfl, rfl⟩

/-- R132, R133: past its two checks ENCODE ends as SERIALIZE does on the generated table, in which no symbol of the
text is absent. -/
theorem exec_encode_past_checks (hcap : s.textLen.toNat ≤ s.params.textCap) (hne : s.textLen ≠ 0#32) :
    ∃ x, BuiltTree (textCounts s.textInput) x ∧
      ((s.params.bitsCap < totalLen (codeTable (x.codes [])) s.textInput ∧
        exec .encode s = .next ((s.counted.built.generated (x.codes [])).complete Err.bitsOverflow.code)) ∨
      (totalLen (codeTable (x.codes [])) s.textInput ≤ s.params.bitsCap ∧
        exec .encode s = .next ((s.counted.built.generated (x.codes [])).serialized.complete 0#8))) := by
  obtain ⟨x, hx, henc⟩ := exec_encode_eq_serialize hcap hne
  have hval := fun b => (hx.valid_iff_mem_text b).2
  refine ⟨x, hx, (Nat.lt_or_ge _ _).imp (fun hover => ⟨hover, ?_⟩) fun hfit => ⟨hfit, ?_⟩⟩
  · exact henc.trans (exec_serialize_overflow hcap hval hover)
  · exact henc.trans (exec_serialize hcap hval hfit)

/-- Settles O46: the two checks, and then the two ways SERIALIZE can end. -/
theorem encodeCompletesOnEveryText : Obligations.EncodeCompletesOnEveryText := by
  refine fun s => ⟨exec_encode_long, exec_encode_empty, fun hcap hne => ?_⟩
  obtain ⟨x, hx, ⟨hover, henc⟩ | ⟨hfit, henc⟩⟩ := exec_encode_past_checks hcap hne
  · exact ⟨_, henc, s.textCounts_entry_toNat, hx.valid_iff_mem_text, .inr ⟨rfl, hover, rfl, rfl⟩, rfl⟩
  · exact ⟨_, henc, s.textCounts_entry_toNat, hx.valid_iff_mem_text,
      .inl ⟨rfl, hfit, rfl, fun i => (State.bitsByte_serialized _ i).trans (getD_map_byteOfBit _ _)⟩, rfl⟩

end Sys2Proof.Machine
end

section
/-! PROOFS. The round trip (R136): the table ENCODE leaves passes the checks of DECODE, and the scan of a bit-string
over the decodable set that made it gives the text back, since the codes of a text are a parse of its bit-string and a
set without a prefix clash leaves only one. -/

namespace Sys2Proof.Machine

variable {s t : State} {f : Table Word} {x : HTree}

/-! ### One symbol or more (R126, R136) -/

/-- A text has one leaf in its tree exactly when its bytes are all the same. -/
theorem State.leafTotal_textCounts_eq_one_iff (hne : s.textLen ≠ 0#32) : leafTotal (textCounts s.textInput) = 1 ↔
    ∀ i j, i < s.textLen.toNat → j < s.textLen.toNat → s.textByte i = s.textByte j := by
  have hcount : ∀ i, i < s.textLen.toNat → (textCounts s.textInput).entry (s.textByte i) ≠ 0#32 := fun i hi =>
    State.textCounts_entry_ne_zero (List.mem_map_of_mem (List.mem_range.2 hi))
  constructor
  · intro h1 i j hi hj
    rw [leafTotal_eq] at h1
    obtain ⟨c, hc⟩ := List.length_eq_one_iff.1 h1
    have only : ∀ i, i < s.textLen.toNat → s.textByte i = c := fun i hi => by
      rw [← List.mem_singleton, ← hc, List.mem_filter]
      exact ⟨mem_symbols _, decide_eq_true (hcount i hi)⟩
    rw [only i hi, only j hj]
  · intro hsame
    have hpos : 0 < s.textLen.toNat := Nat.pos_of_ne_zero (BitVec.toNat_ne.1 hne)
    refine leafTotal_eq_one (hcount 0 hpos) fun d hd => by_contra fun hdc => hd ?_
    obtain ⟨j, hj, rfl⟩ := List.mem_map.1 ((s.textCounts_entry_ne_zero_iff d).1 hdc)
    exact hsame j 0 (List.mem_range.1 hj) hpos

/-- With one symbol no entry is decodable. -/
theorem BuiltTree.decodableSet_of_one (h : BuiltTree f x) (h1 : leafTotal f = 1) :
    decodableSet (codeTable (x.codes [])) = [] := by
  refine List.eq_nil_iff_forall_not_mem.2 fun e he => ?_
  obtain ⟨hv, hl⟩ := (CtEntry.decodable_iff _).1 ((mem_decodableSet _ e).1 he).1
  exact hl (h.len_of_one h1 hv)

/-- With one symbol the bit-string of its text is empty. -/
theorem BuiltTree.totalLen_of_one (h : BuiltTree (textCounts s.textInput) x)
    (h1 : leafTotal (textCounts s.textInput) = 1) : totalLen (codeTable (x.codes [])) s.textInput = 0 := by
  refine List.sum_eq_zero fun n hn => ?_
  obtain ⟨b, hb, rfl⟩ := List.mem_map.1 hn
  exact congrArg BitVec.toNat (h.len_of_one h1 ((h.valid_iff_mem_text b).2 hb))

/-! ### The checks of DECODE on a generated table (R152) -/

theorem BuiltTree.mem_codes_of_decodableSet (h : BuiltTree f x) {e : CodePair}
    (he : e ∈ decodableSet (codeTable (x.codes []))) : e ∈ x.codes [] := by
  obtain ⟨hd, hcode⟩ := (mem_decodableSet _ e).1 he
  have hmem := h.mem_codes_of_valid ((CtEntry.decodable_iff _).1 hd).1
  rwa [← hcode] at hmem

theorem BuiltTree.prefixClash_eq_false (h : BuiltTree f x) :
    prefixClash (decodableSet (codeTable (x.codes []))) = false :=
  (Machine.prefixClash_eq_false _).2 fun _ ha _ hb hne hpre => hne (congrArg CodePair.symbol
    (x.codes_prefixFree [] (h.mem_codes_of_decodableSet ha) (h.mem_codes_of_decodableSet hb) hpre))

/-- R151: the codes of a built tree have no more distinct prefixes than the tree has nodes. -/
theorem BuiltTree.trieNodes_le (h : BuiltTree f x) : trieNodes (decodableSet (codeTable (x.codes []))) ≤ 511 := by
  have hnodes := x.trieNodes_le _ fun e he => h.mem_codes_of_decodableSet he
  have hle := leafTotal_le f
  rw [h.indices.length_eq, List.length_range] at hnodes
  omega

theorem Params.le_trieCap_of_legal {p : Params} (h : p.legal = true) : 511 ≤ p.trieCap := by
  simp only [Params.legal, Params.trieCapLegal, Bool.and_eq_true, decide_eq_true_eq] at h
  omega

/-! ### What DECODE answers (R155, R158, R161) -/

section
variable (hp : prefixClash (decodableSet s.ct) = false) (hn : trieNodes (decodableSet s.ct) ≤ s.params.trieCap)
include hp hn

theorem exec_decode_eq_deserialize : exec .decode s = exec .deserialize s.captured :=
  runStages_of_done ((if_neg (by simp [hp])).trans (if_neg (Nat.not_lt.2 hn))) _

variable (hb : s.bitsLen.toNat ≤ s.params.bitsCap)
include hb

/-- R158: an empty bit-string decodes to the empty text where no entry is decodable. -/
theorem exec_decode_of_empty (hd : decodableSet s.ct = []) (hz : s.bitsLen = 0#32) :
    exec .decode s = .next (s.captured.emptied.complete 0#8) := by
  have hempty : s.captured.trie.isEmpty = true := List.isEmpty_iff.2 hd
  exact (exec_decode_eq_deserialize hp hn).trans (runStages_of_done
    ((if_neg (by simp)).trans ((if_neg (Nat.not_lt.2 hb)).trans ((if_pos hempty).trans (if_pos hz)))) [])

theorem exec_decode_of_fits (hd : decodableSet s.ct ≠ [])
    (hfit : (scanBits (decodableSet s.ct) s.charInput).out.length ≤ s.params.textCap) :
    exec .decode s = .next (s.captured.decoded.complete 0#8) := by
  have hempty : ¬ s.captured.trie.isEmpty = true := mt List.isEmpty_iff.1 hd
  exact (exec_decode_eq_deserialize hp hn).trans (runStages_of_done
    ((if_neg (by simp)).trans ((if_neg (Nat.not_lt.2 hb)).trans ((if_neg hempty).trans (if_neg (Nat.not_lt.2 hfit)))))
    [])

end

theorem State.decoded_captured_dropCount (s : State) : s.captured.decoded.dropCount =
    s.bitsLen - BitVec.ofNat 32 (scanBits (decodableSet s.ct) s.charInput).last := rfl

theorem State.decoded_captured_textLen (s : State) : s.captured.decoded.textLen =
    BitVec.ofNat 32 (scanBits (decodableSet s.ct) s.charInput).out.length := rfl

theorem State.decoded_captured_textByte (s : State) (c : Byte) (i : Nat) : (s.captured.decoded.complete c).textByte i =
    ((scanBits (decodableSet s.ct) s.charInput).out[i]?).getD (s.textByte i) := s.captured.textByte_overwrite _ i

/-! ### The scan of a bit-string (R136, R155) -/

/-- The scan of the bit-string of a text gives the text back and stops at its end, where every byte of the text has a
decodable code and no code is a prefix of another. -/
theorem scanBits_bitString {ct : Table CtEntry} (hp : prefixClash (decodableSet ct) = false) {text : List Byte}
    (hd : ∀ b ∈ text, (ct.entry b).decodable = true) :
    (scanBits (decodableSet ct) ((bitString ct text).map BitChar.ofBit)).out = text ∧
    (scanBits (decodableSet ct) ((bitString ct text).map BitChar.ofBit)).last = totalLen ct text := by
  have hne : ∀ e ∈ decodableSet ct, e.code ≠ [] := fun e he => decodableSet_code_ne_nil ct he
  have hpf : ∀ a ∈ decodableSet ct, ∀ b ∈ decodableSet ct, a.code <+: b.code → a = b := fun a ha b hb hpre =>
    List.inj_on_of_nodup_map (decodableSet_symbols_nodup ct) ha hb
      (by_contra fun hab => (prefixClash_eq_false _).1 hp a ha b hb hab hpre)
  obtain ⟨parsed, h⟩ := scanBits_parses _ hne ((bitString ct text).map BitChar.ofBit)
  have hpairs : ∀ e ∈ text.map (fun b => (⟨b, (ct.entry b).code⟩ : CodePair)), e ∈ decodableSet ct := by
    intro e he
    obtain ⟨b, hb, rfl⟩ := List.mem_map.1 he
    exact (mem_decodableSet ct _).2 ⟨hd b hb, rfl⟩
  have hwhole := List.take_append_drop (scanBits (decodableSet ct) ((bitString ct text).map BitChar.ofBit)).last
    ((bitString ct text).map BitChar.ofBit)
  rw [h.taken, ← h.buf] at hwhole
  obtain ⟨rfl, hrest⟩ := parse_unique hne hpf h.mem hpairs h.stuck (hwhole.trans (by
    rw [bitString, List.map_flatMap, List.flatMap_map]))
  refine ⟨?_, Nat.le_antisymm ?_ ?_⟩
  · rw [h.out, List.map_map]
    exact List.map_id' text
  · simpa [length_bitString] using h.last
  · simpa [length_bitString] using List.drop_eq_nil_iff.1 (h.buf.symm.trans hrest)

/-- R96, R154: DECODE reads the characters SERIALIZE wrote. -/
theorem State.charInput_serialized (h : totalLen s.ct s.textInput < 2 ^ 32) :
    s.serialized.charInput = (bitString s.ct s.textInput).map BitChar.ofBit := by
  have hlen : s.serialized.bitsLen.toNat = (bitString s.ct s.textInput).length := by
    rw [length_bitString, State.serialized, BitVec.toNat_ofNat, Nat.mod_eq_of_lt h]
  refine List.ext_getElem (by rw [State.length_charInput, hlen, List.length_map]) fun i _ hi => ?_
  rw [List.length_map] at hi
  simp [State.charInput, State.bitsByte_serialized, hi]

/-! ### The round trip (R136) -/

/-- What an ENCODE that ends with OK leaves to DECODE: the table of the tree, and in BITS_MEM the bit-string of the
text. -/
structure State.Encodes (r : State) (text : List Byte) (x : HTree) : Prop where
  legal : r.params.legal = true
  ct : r.ct = codeTable (x.codes [])
  textFits : text.length ≤ r.params.textCap
  bitsFit : totalLen r.ct text ≤ r.params.bitsCap
  bitsLen : r.bitsLen = BitVec.ofNat 32 (totalLen r.ct text)
  chars : r.charInput = (bitString r.ct text).map BitChar.ofBit

theorem State.Encodes.issue {r : State} {text : List Byte} (h : r.Encodes text x) (w : Word) :
    (r.issue w).Encodes text x := ⟨h.legal, h.ct, h.textFits, h.bitsFit, h.bitsLen, h.chars⟩

theorem lt_word_of_le_bitsCap {p : Params} (h : p.legal = true) {n : Nat} (hn : n ≤ p.bitsCap) : n < 2 ^ 32 :=
  (hn.trans (Params.bitsCap_le_of_legal h)).trans_lt (by decide)

/-- R132: an ENCODE that ends with OK has serialized the text with the codes of the tree of its counts. -/
theorem exec_encode_ok (hlegal : s.params.legal = true) (h : exec .encode s = .next t) (herr : t.status.errCode = 0#8) :
    s.textLen ≠ 0#32 ∧ ∃ x, BuiltTree (textCounts s.textInput) x ∧ t.Encodes s.textInput x := by
  rcases exec_encode_next h with rfl | rfl | ⟨hcap, hne, -⟩
  · exact absurd herr Err.length.code_ne_zero
  · exact absurd herr Err.emptyText.code_ne_zero
  obtain ⟨x, hx, ⟨-, henc⟩ | ⟨hfit, henc⟩⟩ := exec_encode_past_checks hcap hne <;>
    obtain rfl := Host.Outcome.next.inj (henc.symm.trans h)
  · exact absurd herr Err.bitsOverflow.code_ne_zero
  · exact ⟨hne, x, hx, hlegal, rfl, s.length_textInput.trans_le hcap, hfit, rfl,
      State.charInput_serialized (s := s.counted.built.generated (x.codes [])) (lt_word_of_le_bitsCap hlegal hfit)⟩

theorem State.Encodes.bitsLen_toNat {r : State} {text : List Byte} (h : r.Encodes text x) :
    r.bitsLen.toNat = totalLen r.ct text := by
  rw [h.bitsLen, BitVec.toNat_ofNat, Nat.mod_eq_of_lt (lt_word_of_le_bitsCap h.legal h.bitsFit)]

section
variable {r : State} (hx : BuiltTree (textCounts s.textInput) x) (h : r.Encodes s.textInput x)
include hx h

theorem State.Encodes.prefixClash_eq_false : prefixClash (decodableSet r.ct) = false := h.ct ▸ hx.prefixClash_eq_false

theorem State.Encodes.trieNodes_le : trieNodes (decodableSet r.ct) ≤ r.params.trieCap :=
  h.ct ▸ hx.trieNodes_le.trans (Params.le_trieCap_of_legal h.legal)

/-- R126, R158: with one symbol DECODE leaves the empty text. -/
theorem State.Encodes.exec_decode_of_one (h1 : leafTotal (textCounts s.textInput) = 1) :
    exec .decode r = .next (r.captured.emptied.complete 0#8) := by
  refine exec_decode_of_empty (h.prefixClash_eq_false hx) (h.trieNodes_le hx) (h.bitsLen_toNat.trans_le h.bitsFit) ?_ ?_
  · rw [h.ct, hx.decodableSet_of_one h1]
  · rw [h.bitsLen, h.ct, hx.totalLen_of_one h1]

/-- R136: with more symbols the scan of DECODE gives the text and stops at the end of the bit-string. -/
theorem State.Encodes.scanBits_of_more (h1 : leafTotal (textCounts s.textInput) ≠ 1) :
    (∀ b ∈ s.textInput, (r.ct.entry b).decodable = true) ∧
    (scanBits (decodableSet r.ct) r.charInput).out = s.textInput ∧
    (scanBits (decodableSet r.ct) r.charInput).last = totalLen r.ct s.textInput := by
  have hdec : ∀ b ∈ s.textInput, (r.ct.entry b).decodable = true := fun b hb => by
    have hv := (hx.valid_iff_mem_text b).2 hb
    rw [h.ct]
    exact (CtEntry.decodable_iff _).2 ⟨hv, hx.len_ne_zero h1 hv⟩
  rw [h.chars]
  exact ⟨hdec, scanBits_bitString (h.prefixClash_eq_false hx) hdec⟩

theorem State.Encodes.exec_decode_of_more (hne : s.textLen ≠ 0#32) (h1 : leafTotal (textCounts s.textInput) ≠ 1) :
    ∃ u, exec .decode r = .next u ∧ u.status.errCode = 0#8 ∧ u.dropCount = 0#32 ∧ u.textLen = s.textLen ∧
      ∀ i, i < s.textLen.toNat → u.textByte i = s.textByte i := by
  obtain ⟨hdec, hout, hlast⟩ := h.scanBits_of_more hx h1
  have hpos : 0 < s.textInput.length := s.length_textInput ▸ Nat.pos_of_ne_zero (BitVec.toNat_ne.1 hne)
  have hset : decodableSet r.ct ≠ [] := List.ne_nil_of_mem ((mem_decodableSet r.ct
    ⟨s.textInput[0], (r.ct.entry s.textInput[0]).code⟩).2 ⟨hdec _ (List.getElem_mem hpos), rfl⟩)
  refine ⟨_, exec_decode_of_fits (h.prefixClash_eq_false hx) (h.trieNodes_le hx) (h.bitsLen_toNat.trans_le h.bitsFit)
    hset (hout ▸ h.textFits), rfl, ?_, ?_, fun i hi => ?_⟩
  · rw [State.complete_dropCount, State.decoded_captured_dropCount, hlast, h.bitsLen, BitVec.sub_self]
  · rw [State.complete_textLen, State.decoded_captured_textLen, hout, State.length_textInput, BitVec.ofNat_toNat,
      BitVec.setWidth_eq]
  · rw [State.decoded_captured_textByte, hout]
    simp [State.textInput, hi]

end

/-- Settles O57: the table ENCODE leaves passes the checks of DECODE, whose scan gives the text back unless the text has
one symbol, which has no decodable code. -/
theorem decodeAfterEncodeGivesTheTextBack : Obligations.DecodeAfterEncodeGivesTheTextBack := by
  intro s t hinv henc herr
  obtain ⟨hne, x, hx, ht⟩ := exec_encode_ok hinv.params henc herr
  have hr := ht.issue (encodeWord .decode)
  have hsame := State.leafTotal_textCounts_eq_one_iff hne
  by_cases h1 : leafTotal (textCounts s.textInput) = 1
  · refine ⟨_, hr.exec_decode_of_one hx h1, rfl, rfl, fun ⟨i, j, hi, hj, hij⟩ => ?_, fun _ => rfl⟩
    exact absurd (hsame.1 h1 i j hi hj) hij
  · obtain ⟨u, hexec, hok, hdrop, hlen, hbytes⟩ := hr.exec_decode_of_more hx hne h1
    exact ⟨u, hexec, hok, hdrop, fun _ => ⟨hlen, hbytes⟩, fun hall => absurd (hsame.2 hall) h1⟩

end Sys2Proof.Machine
end

section
/-! PROOFS. The decoder's commands (R150 to R162): what BUILD_DECODE_TREE and DESERIALIZE answer in each of their cases,
DECODE as the two of them in order, and the scan of R155: where it stops, what its output is a parse of, how long that
is, and that the walk over the prefix tree keeps in step with it. -/

namespace Sys2Proof.Machine

variable {s t : State}

/-! ### BUILD_DECODE_TREE (R152, R153) -/

theorem exec_buildDecodeTree_invalid
    (h : prefixClash (decodableSet s.ct) = true ∨ s.params.trieCap < trieNodes (decodableSet s.ct)) :
    exec .buildDecodeTree s = .next (s.complete Err.tableInvalid.code) := by
  rcases buildDecodeTreeStage_cases s with ⟨-, hr⟩ | ⟨hp, hn, -⟩
  · exact runStages_of_raised hr []
  · rcases h with h | h
    · rw [hp] at h
      cases h
    · omega

theorem exec_buildDecodeTree (hp : prefixClash (decodableSet s.ct) = false)
    (hn : trieNodes (decodableSet s.ct) ≤ s.params.trieCap) :
    exec .buildDecodeTree s = .next (s.captured.complete 0#8) :=
  runStages_of_done ((if_neg (by simp [hp])).trans (if_neg (Nat.not_lt.2 hn))) []

theorem State.captured_minLen_toNat (s : State) : s.captured.minLen.toNat = minDecodable s.ct := by
  rw [State.captured, BitVec.toNat_ofNat]
  exact Nat.mod_eq_of_lt (Nat.lt_succ_of_le (minDecodable_le s.ct))

theorem State.captured_maxLen_toNat (s : State) : s.captured.maxLen.toNat = maxDecodable s.ct := by
  rw [State.captured, BitVec.toNat_ofNat]
  exact Nat.mod_eq_of_lt (Nat.lt_succ_of_le (maxDecodable_le s.ct))

/-- R150, R152: TRIE holds the decodable pairs. -/
theorem State.mem_captured_trie (s : State) (c : Byte) (p : Code) : ⟨c, p⟩ ∈ s.captured.trie ↔
    ((s.ct.entry c).valid = true ∧ (s.ct.entry c).len ≠ 0#8) ∧ p = (s.ct.entry c).code := by
  rw [← CtEntry.decodable_iff]
  exact mem_decodableSet s.ct ⟨c, p⟩

/-- Settles O48: both checks are on the decodable set, whose clashes and prefixes are those of the table's entries. -/
theorem buildDecodeTreeChecksAndCapturesTheTable : Obligations.BuildDecodeTreeChecksAndCapturesTheTable := by
  intro s decodable clash prefixes
  have hclash : prefixClash (decodableSet s.ct) = true ↔ clash := prefixClash_decodableSet s.ct
  have hnodes : trieNodes (decodableSet s.ct) = prefixes.ncard := trieNodes_decodableSet s.ct
  refine ⟨fun h => exec_buildDecodeTree_invalid (hnodes ▸ h.imp_left hclash.2), fun hc hn => ?_⟩
  have hp : prefixClash (decodableSet s.ct) = false := Bool.eq_false_iff.2 (mt hclash.1 hc)
  exact ⟨_, exec_buildDecodeTree hp (hnodes.trans_le hn), s.mem_captured_trie, s.captured_minLen_toNat,
    s.captured_maxLen_toNat, rfl⟩

/-! ### DESERIALIZE (R155, R157 to R159) -/

theorem exec_deserialize_noTrie (h : s.status.trieValid = false) :
    exec .deserialize s = .next (s.complete Err.noTrie.code) :=
  runStages_of_raised (if_pos (by simp [h])) []

section
variable (hv : s.status.trieValid = true)
include hv

theorem exec_deserialize_long (h : s.params.bitsCap < s.bitsLen.toNat) :
    exec .deserialize s = .next (s.complete Err.length.code) :=
  runStages_of_raised ((if_neg (by simp [hv])).trans (if_pos h)) []

variable (hb : s.bitsLen.toNat ≤ s.params.bitsCap)
include hb

theorem exec_deserialize_noCodes (he : s.trie = []) (h : s.bitsLen ≠ 0#32) :
    exec .deserialize s = .next (s.complete Err.noCodes.code) :=
  runStages_of_raised ((if_neg (by simp [hv])).trans ((if_neg (Nat.not_lt.2 hb)).trans
    ((if_pos (List.isEmpty_iff.2 he)).trans (if_neg h)))) []

theorem exec_deserialize_overflow (he : s.trie ≠ [])
    (h : s.params.textCap < (scanBits s.trie s.charInput).out.length) :
    exec .deserialize s = .next (s.complete Err.textOverflow.code) :=
  runStages_of_raised ((if_neg (by simp [hv])).trans ((if_neg (Nat.not_lt.2 hb)).trans
    ((if_neg (mt List.isEmpty_iff.1 he)).trans (if_pos h)))) []

theorem exec_deserialize (he : s.trie ≠ []) (h : (scanBits s.trie s.charInput).out.length ≤ s.params.textCap) :
    exec .deserialize s = .next (s.decoded.complete 0#8) :=
  runStages_of_done ((if_neg (by simp [hv])).trans ((if_neg (Nat.not_lt.2 hb)).trans
    ((if_neg (mt List.isEmpty_iff.1 he)).trans (if_neg (Nat.not_lt.2 h))))) []

end

/-- R158: the length check passes, since an empty bit-string is within any BITS_CAP. -/
theorem exec_deserialize_empty (hv : s.status.trieValid = true) (he : s.trie = []) (h : s.bitsLen = 0#32) :
    exec .deserialize s = .next (s.emptied.complete 0#8) :=
  runStages_of_done ((if_neg (by simp [hv])).trans ((if_neg (by simp [h])).trans
    ((if_pos (List.isEmpty_iff.2 he)).trans (if_pos h)))) []

/-- Settles O49: the answers of DESERIALIZE in the five cases. -/
theorem deserializeErrorsInOrder : Obligations.DeserializeErrorsInOrder := fun _ =>
  ⟨exec_deserialize_noTrie, exec_deserialize_long, exec_deserialize_noCodes, exec_deserialize_empty,
    exec_deserialize_overflow⟩

theorem State.scan_last_le (s : State) (trie : List CodePair) : (scanBits trie s.charInput).last ≤ s.bitsLen.toNat :=
  s.length_charInput ▸ (scanBits_bounds trie s.charInput).2

theorem State.scan_out_length_le (s : State) (trie : List CodePair) :
    (scanBits trie s.charInput).out.length ≤ s.bitsLen.toNat :=
  (scanBits_bounds trie s.charInput).1.trans (s.scan_last_le trie)

/-- R155: TEXT_LEN holds the length of any output, which is at most BITS_LEN. -/
theorem State.decoded_textLen_toNat (s : State) :
    s.decoded.textLen.toNat = (scanBits s.trie s.charInput).out.length := by
  rw [State.decoded, BitVec.toNat_ofNat]
  exact Nat.mod_eq_of_lt ((s.scan_out_length_le s.trie).trans_lt s.bitsLen.isLt)

/-- R159: DROP_COUNT is what is left of the bit-string after the last completed symbol. -/
theorem State.decoded_dropCount_toNat (s : State) :
    s.decoded.dropCount.toNat + (scanBits s.trie s.charInput).last = s.bitsLen.toNat := by
  have hle := s.scan_last_le s.trie
  have hlast : (BitVec.ofNat 32 (scanBits s.trie s.charInput).last).toNat = (scanBits s.trie s.charInput).last := by
    rw [BitVec.toNat_ofNat]
    exact Nat.mod_eq_of_lt (hle.trans_lt s.bitsLen.isLt)
  rw [State.decoded, BitVec.toNat_sub_of_le (BitVec.le_def.2 (hlast.trans_le hle)), hlast, Nat.sub_add_cancel hle]

/-- Settles O50: past the checks DESERIALIZE completes the state of `State.decoded`. -/
theorem deserializeWritesTheDecodedText : Obligations.DeserializeWritesTheDecodedText := fun s hv hb he hfit =>
  ⟨_, exec_deserialize hv hb he hfit, s.decoded_textLen_toNat, s.decoded_dropCount_toNat,
    s.textByte_overwrite _, rfl⟩

/-! ### DECODE (R161) -/

/-- DESERIALIZE always answers a next state, whatever result code the command before it left. -/
theorem exec_deserialize_answers (s : State) :
    ∃ d, exec .deserialize s = .next d ∧ ∀ c, exec .deserialize (s.complete c) = .next d := by
  rcases deserializeStage_cases s with ⟨hv, -⟩ | ⟨hv, hb, -⟩ | ⟨hv, -, he, hz, -⟩ | ⟨hv, hb, he, hz, -⟩ |
    ⟨hv, hb, he, hover, -⟩ | ⟨hv, hb, he, hfit, -⟩
  · exact ⟨_, exec_deserialize_noTrie hv, fun c => exec_deserialize_noTrie (s := s.complete c) hv⟩
  · exact ⟨_, exec_deserialize_long hv hb, fun c => exec_deserialize_long (s := s.complete c) hv hb⟩
  · exact ⟨_, exec_deserialize_empty hv he hz, fun c => exec_deserialize_empty (s := s.complete c) hv he hz⟩
  · exact ⟨_, exec_deserialize_noCodes hv hb he hz,
      fun c => exec_deserialize_noCodes (s := s.complete c) hv hb he hz⟩
  · exact ⟨_, exec_deserialize_overflow hv hb he hover,
      fun c => exec_deserialize_overflow (s := s.complete c) hv hb he hover⟩
  · exact ⟨_, exec_deserialize hv hb he hfit, fun c => exec_deserialize (s := s.complete c) hv hb he hfit⟩

/-- Settles O55: DESERIALIZE reads what BUILD_DECODE_TREE left, but not its result code. -/
theorem decodeIsItsTwoStagesInOrder : Obligations.DecodeIsItsTwoStagesInOrder := by
  intro s
  rcases buildDecodeTreeStage_cases s with ⟨hbad, hr⟩ | ⟨hp, hn, -⟩
  · exact ⟨_, _, exec_buildDecodeTree_invalid hbad, runStages_of_raised hr _,
      fun h0 => absurd h0 Err.tableInvalid.code_ne_zero, fun _ => rfl⟩
  · obtain ⟨d, hd, hdc⟩ := exec_deserialize_answers s.captured
    exact ⟨_, d, exec_buildDecodeTree hp hn, (exec_decode_eq_deserialize hp hn).trans hd, fun _ => hdc 0#8,
      fun herr => absurd rfl herr⟩

/-- Settles O56: DECODE completes what DESERIALIZE leaves of the captured table. -/
theorem decodeLeavesTheDecodedText : Obligations.DecodeLeavesTheDecodedText := fun s hp hn hb hd hfit =>
  ⟨_, exec_decode_of_fits hp hn hb hd hfit, s.captured.decoded_textLen_toNat, s.captured.decoded_dropCount_toNat,
    s.decoded_captured_textByte 0#8, rfl⟩

/-! ### The scan as a parse (R155, R156, R162) -/

variable {trie : List CodePair} {chars : List BitChar}

/-- Settles O51: `scanBits_parses`, the buffer being what is left after `last`. -/
theorem scanIsTheGreedyParse : Obligations.ScanIsTheGreedyParse := by
  intro trie chars hne
  obtain ⟨parsed, h⟩ := scanBits_parses trie hne chars
  exact ⟨parsed, h.mem, h.out, h.last, h.taken, h.buf ▸ h.stuck⟩

/-- The characters before `last` are as many as the codes of the output take. -/
theorem ScanParses.last_eq_sum {st : Scan} {parsed : List CodePair} (h : ScanParses trie chars st parsed) :
    st.last = (parsed.map (fun e => e.code.length)).sum := by
  have hlen := congrArg List.length h.taken
  rw [List.length_take_of_le h.last, List.length_flatMap] at hlen
  simpa using hlen

theorem scanBits_last_bounds (hne : ∀ e ∈ trie, e.code ≠ []) (chars : List BitChar) {lo hi : Nat}
    (hlo : ∀ e ∈ trie, lo ≤ e.code.length) (hhi : ∀ e ∈ trie, e.code.length ≤ hi) :
    (scanBits trie chars).out.length * lo ≤ (scanBits trie chars).last ∧
    (scanBits trie chars).last ≤ (scanBits trie chars).out.length * hi := by
  obtain ⟨parsed, h⟩ := scanBits_parses trie hne chars
  rw [h.last_eq_sum, h.out, List.length_map]
  constructor
  · simpa using List.card_nsmul_le_sum (parsed.map (fun e => e.code.length)) lo
      (List.forall_mem_map.2 fun e he => hlo e (h.mem e he))
  · simpa using List.sum_le_card_nsmul (parsed.map (fun e => e.code.length)) hi
      (List.forall_mem_map.2 fun e he => hhi e (h.mem e he))

/-- A DESERIALIZE that ends with OK found TRIE valid, and decoded the empty bit-string over an empty TRIE or scanned. -/
theorem exec_deserialize_ok (h : exec .deserialize s = .next t) (herr : t.status.errCode = 0#8) :
    s.status.trieValid = true ∧ (s.trie = [] ∧ t = s.emptied.complete 0#8 ∨ t = s.decoded.complete 0#8) := by
  rcases runStages_one_next h with ⟨u, hd, rfl⟩ | ⟨e, -, rfl⟩
  · rcases deserializeStage_cases s with ⟨-, hr⟩ | ⟨-, -, hr⟩ | ⟨hv, -, he, -, hr⟩ | ⟨-, -, -, -, hr⟩ |
      ⟨-, -, -, -, hr⟩ | ⟨hv, -, -, -, hr⟩ <;> rw [hr] at hd <;> cases hd
    · exact ⟨hv, .inl ⟨he, rfl⟩⟩
    · exact ⟨hv, .inr rfl⟩
  · exact absurd herr e.code_ne_zero

/-- R162: MIN_LEN and MAX_LEN bound the codes of TRIE, so the scan's `last` by the length of its output. -/
theorem State.TrieMatches.last_bounds (h : s.TrieMatches) (chars : List BitChar) :
    (scanBits s.trie chars).out.length * s.minLen.toNat ≤ (scanBits s.trie chars).last ∧
    (scanBits s.trie chars).last ≤ (scanBits s.trie chars).out.length * s.maxLen.toNat := by
  rw [h.trie, h.minLen, h.maxLen]
  exact scanBits_last_bounds (fun _ => decodableSet_code_ne_nil s.ct) chars (fun _ => trieMinLen_le)
    fun e he => List.le_max?_getD_of_mem (List.mem_map.2 ⟨e, he, rfl⟩)

/-- Settles O54: BITS_LEN is DROP_COUNT more than `last`, which `State.TrieMatches.last_bounds` bounds. -/
theorem decodedLengthsAreBounded : Obligations.DecodedLengthsAreBounded := by
  intro s t hinv h herr
  obtain ⟨hv, ⟨he, rfl⟩ | rfl⟩ := exec_deserialize_ok h herr
  · exact ⟨Nat.zero_le _, fun hne => absurd he hne⟩
  · obtain ⟨hlo, hhi⟩ := (hinv.trie hv).last_bounds s.charInput
    have hdrop := s.decoded_dropCount_toNat
    rw [← s.decoded_textLen_toNat] at hlo hhi
    refine ⟨s.decoded_textLen_toNat.trans_le (s.scan_out_length_le s.trie), fun _ => ?_⟩
    change s.decoded.textLen.toNat * s.minLen.toNat + s.decoded.dropCount.toNat ≤ s.bitsLen.toNat ∧
      s.bitsLen.toNat ≤ s.decoded.textLen.toNat * s.maxLen.toNat + s.decoded.dropCount.toNat
    omega

/-! ### Characters that are no bit (R154) -/

/-- A buffer with a character that is no bit is the code of nothing, so the scan only lengthens it. -/
theorem Scan.read_of_other_mem {st : Scan} {c : BitChar} (h : .other ∈ st.buf ++ [c]) :
    st.read trie (trieMinLen trie) c = ⟨st.out, st.buf ++ [c], st.last, st.pos + 1⟩ := by
  rcases Scan.read_cases trie st c with ⟨e, -, hcode, -⟩ | ⟨-, hr⟩
  · rw [← hcode] at h
    obtain ⟨b, -, hb⟩ := List.mem_map.1 h
    exact absurd hb (BitChar.ofBit_ne_other b)
  · exact hr

/-- R154: once a character that is no bit has been read it stays in the buffer, and the output and `last` stay. -/
theorem scanBits_after_other (trie : List CodePair) (before rest : List BitChar) :
    .other ∈ (scanBits trie (before ++ .other :: rest)).buf ∧
    (scanBits trie (before ++ .other :: rest)).out = (scanBits trie before).out ∧
    (scanBits trie (before ++ .other :: rest)).last = (scanBits trie before).last := by
  induction rest using List.reverseRecOn with
  | nil =>
    rw [scanBits_concat, Scan.read_of_other_mem (by simp)]
    exact ⟨by simp, rfl, rfl⟩
  | append_singleton rest c ih =>
    obtain ⟨hbuf, hout, hlast⟩ := ih
    have hmem := List.mem_append_left [c] hbuf
    rw [← List.cons_append, ← List.append_assoc, scanBits_concat, Scan.read_of_other_mem hmem]
    exact ⟨hmem, hout, hlast⟩

/-- Settles O52: the three readings of a byte, the input by its indices, and `scanBits_after_other`. -/
theorem nonBitByteStopsTheOutput : Obligations.NonBitByteStopsTheOutput :=
  ⟨fun _ => ⟨BitChar.ofByte_eq_zero, BitChar.ofByte_eq_one, BitChar.ofByte_eq_other⟩,
    fun s => ⟨s.length_charInput, fun i hi => by simp [State.charInput, hi]⟩,
    fun trie before rest => (scanBits_after_other trie before rest).2⟩

/-! ### The prefix-tree walker (R160)

The path to the walker's node is the scan's buffer, and the walker is dead when no code begins with the buffer. -/

theorem childNode_some {p q : Code} {c : BitChar} (h : childNode trie p c = some q) :
    q.map BitChar.ofBit = p.map BitChar.ofBit ++ [c] := by
  cases c with
  | other => cases h
  | zero =>
    obtain ⟨-, ⟨⟩⟩ := Option.ite_none_right_eq_some.1 h
    exact List.map_append
  | one =>
    obtain ⟨-, ⟨⟩⟩ := Option.ite_none_right_eq_some.1 h
    exact List.map_append

/-- A bit that leads to no child leads out of every code. -/
theorem not_prefix_of_not_any {p : Code} {b : Bool} (h : ¬ trie.any (fun e => (p ++ [b]).isPrefixOf e.code) = true) :
    ∀ e ∈ trie, ¬ p.map BitChar.ofBit ++ [BitChar.ofBit b] <+: e.code.map BitChar.ofBit := by
  intro e he hpre
  have hcode : p ++ [b] <+: e.code := map_ofBit_prefix.1 (by simpa using hpre)
  exact h (List.any_eq_true.2 ⟨e, he, List.isPrefixOf_iff_prefix.2 hcode⟩)

theorem childNode_none {p : Code} {c : BitChar} (h : childNode trie p c = none) :
    ∀ e ∈ trie, ¬ p.map BitChar.ofBit ++ [c] <+: e.code.map BitChar.ofBit := by
  cases c with
  | zero => exact not_prefix_of_not_any (b := false) fun hany => by simp [childNode, hany] at h
  | one => exact not_prefix_of_not_any (b := true) fun hany => by simp [childNode, hany] at h
  | other =>
    intro e he hpre
    obtain ⟨b, -, hb⟩ := List.mem_map.1 (hpre.subset (List.mem_append_right _ List.mem_cons_self))
    exact BitChar.ofBit_ne_other b hb

/-- R155, R160: the scan finds for a buffer of bits the pair the walker finds at the node of that path. -/
theorem matchCode_map_ofBit (trie : List CodePair) (q : Code) :
    matchCode trie (q.map BitChar.ofBit) = trie.find? (fun e => e.code == q) := by
  have hinj := List.map_injective_iff.2 BitChar.ofBit_injective
  have hpred : (fun e : CodePair => e.code.map BitChar.ofBit == q.map BitChar.ofBit) = fun e => e.code == q := by
    funext e
    exact Bool.eq_iff_iff.2 (by rw [beq_iff_eq, beq_iff_eq, hinj.eq_iff])
  rw [matchCode, hpred]

/-- Where no code begins with the buffer no code is the buffer. -/
theorem matchCode_eq_none_of_no_prefix {buf : List BitChar} (h : ∀ e ∈ trie, ¬ buf <+: e.code.map BitChar.ofBit) :
    matchCode trie buf = none :=
  matchCode_eq_none.2 fun e he heq => h e he (heq ▸ List.prefix_rfl)

/-- R155: the least length of a code only saves comparisons, since no shorter buffer is a code. -/
theorem Scan.read_eq (trie : List CodePair) (st : Scan) (c : BitChar) : st.read trie (trieMinLen trie) c =
    match matchCode trie (st.buf ++ [c]) with
    | some e => ⟨st.out ++ [e.symbol], [], st.pos + 1, st.pos + 1⟩
    | none => ⟨st.out, st.buf ++ [c], st.last, st.pos + 1⟩ := by
  by_cases hlen : trieMinLen trie ≤ (st.buf ++ [c]).length
  · exact if_pos hlen
  · have hnone : matchCode trie (st.buf ++ [c]) = none := matchCode_eq_none.2 fun e he heq => hlen (by
      rw [← heq, List.length_map]
      exact trieMinLen_le he)
    rw [hnone]
    exact if_neg hlen

/-- The walker and the scan after the same characters. -/
structure Walker.Follows (trie : List CodePair) (w : Walker) (st : Scan) : Prop where
  out : w.out = st.out
  last : w.last = st.last
  pos : w.pos = st.pos
  alive : ∀ p, w.node = some p → st.buf = p.map BitChar.ofBit
  dead : w.node = none → ∀ e ∈ trie, ¬ st.buf <+: e.code.map BitChar.ofBit

variable {w : Walker} {st : Scan} {c : BitChar}

theorem Walker.Follows.step_dead (h : w.Follows trie st)
    (hno : ∀ e ∈ trie, ¬ st.buf ++ [c] <+: e.code.map BitChar.ofBit) :
    Walker.Follows trie ⟨w.out, none, w.last, w.pos + 1⟩ (st.read trie (trieMinLen trie) c) := by
  rw [Scan.read_eq, matchCode_eq_none_of_no_prefix hno]
  exact ⟨h.out, h.last, congrArg (· + 1) h.pos, nofun, fun _ => hno⟩

theorem Walker.follows_of_node (trie : List CodePair) {out : List Byte} {q : Code} {last pos : Nat}
    {buf : List BitChar} (h : buf = q.map BitChar.ofBit) :
    Walker.Follows trie ⟨out, some q, last, pos⟩ ⟨out, buf, last, pos⟩ :=
  ⟨rfl, rfl, rfl, fun _ hp => Option.some.inj hp ▸ h, nofun⟩

/-- One character keeps the walker in step with the scan. -/
theorem Walker.Follows.step (h : w.Follows trie st) (c : BitChar) :
    Walker.Follows trie (w.read trie c) (st.read trie (trieMinLen trie) c) := by
  unfold Walker.read
  split
  case h_1 hnode =>
    exact h.step_dead fun e he hpre => h.dead hnode e he ((List.prefix_append _ _).trans hpre)
  case h_2 p hnode =>
    have hbuf := h.alive p hnode
    split
    case h_1 hchild => exact h.step_dead (hbuf ▸ childNode_none hchild)
    case h_2 q hchild =>
      have hq : st.buf ++ [c] = q.map BitChar.ofBit := by rw [hbuf, childNode_some hchild]
      rw [Scan.read_eq, hq, matchCode_map_ofBit, h.out, h.last, h.pos]
      cases trie.find? (fun e => e.code == q) with
      | some e => exact Walker.follows_of_node trie rfl
      | none => exact Walker.follows_of_node trie rfl

theorem walkBits_follows (trie : List CodePair) (chars : List BitChar) :
    (walkBits trie chars).Follows trie (scanBits trie chars) := by
  induction chars using List.reverseRecOn with
  | nil => exact Walker.follows_of_node trie rfl
  | append_singleton chars c ih =>
    rw [scanBits_concat, walkBits, List.foldl_append]
    exact ih.step c

/-- Settles O53: the walker follows the scan over any TRIE; its three hypotheses are not needed, since both stop at the
first node, or buffer, that is a code. -/
theorem walkerAgreesWithTheScan : Obligations.WalkerAgreesWithTheScan := fun trie chars _ _ _ =>
  ⟨(walkBits_follows trie chars).out, (walkBits_follows trie chars).last⟩

end Sys2Proof.Machine
end

section
/-! PROOFS. How commands end (R180 to R188): every command answers a next state with a code the error table gives it,
unless GEN_CODES walks a tree that is none; so in a state of the invariant no step is a fault. And the level of the
interrupt output (R192). -/

namespace Sys2Proof.Machine

variable {s : State} {i : Instr}

/-! ### The codes a command ends with (R181, R184) -/

/-- The command answers a next state, and its result code is one of these. -/
def EndsWith (i : Instr) (s : State) (codes : List Byte) : Prop :=
  ∃ t, exec i s = .next t ∧ t.status.errCode ∈ codes

theorem EndsWith.of_complete {u : State} {c : Byte} {codes : List Byte} (h : exec i s = .next (u.complete c))
    (hc : c ∈ codes) : EndsWith i s codes := ⟨_, h, hc⟩

theorem EndsWith.mono {codes more : List Byte} (h : EndsWith i s codes) (hsub : codes ⊆ more) : EndsWith i s more := by
  obtain ⟨t, ht, hc⟩ := h
  exact ⟨t, ht, hsub hc⟩

theorem countFreq_endsWith (s : State) : EndsWith .countFreq s (resultCodes .countFreq) := by
  rcases Nat.lt_or_ge s.params.textCap s.textLen.toNat with hlong | hcap
  · exact .of_complete (exec_countFreq_long hlong) (by decide)
  · exact .of_complete (exec_countFreq hcap) (by decide)

theorem buildTree_endsWith (s : State) : EndsWith .buildTree s (resultCodes .buildTree) := by
  by_cases h0 : leafTotal s.freq = 0
  · exact .of_complete (exec_buildTree_empty h0) (by decide)
  · exact .of_complete (exec_buildTree h0) (by decide)

/-- GEN_CODES ends unless TREE_VALID = 1 and the walk from ROOT (R128) does not. -/
theorem genCodes_endsWith (hw : s.status.treeValid = true → s.WalkEnds) :
    EndsWith .genCodes s (resultCodes .genCodes) := by
  cases hv : s.status.treeValid with
  | false => exact .of_complete (exec_genCodes_noTree hv) (by decide)
  | true =>
    obtain ⟨leaves, hleaves, -⟩ := hw hv
    exact .of_complete (exec_genCodes hv hleaves) (by decide)

theorem serialize_endsWith (s : State) : EndsWith .serialize s (resultCodes .serialize) := by
  rcases serializeStage_cases s with ⟨hlong, -⟩ | ⟨hcap, habsent, -⟩ | ⟨hcap, hval, hover, -⟩ | ⟨hcap, hval, hfit, -⟩
  · exact .of_complete (exec_serialize_long hlong) (by decide)
  · exact .of_complete (exec_serialize_absent hcap habsent) (by decide)
  · exact .of_complete (exec_serialize_overflow hcap hval hover) (by decide)
  · exact .of_complete (exec_serialize hcap hval hfit) (by decide)

/-- R132: past its two checks ENCODE ends as SERIALIZE does, and the text has no symbol without a code. -/
theorem encode_endsWith (s : State) : EndsWith .encode s (resultCodes .encode) := by
  rcases encodeChecks_cases s with ⟨-, hr⟩ | ⟨-, -, hr⟩ | ⟨hcap, hne, -⟩
  · exact .of_complete (runStages_of_raised hr _) (by decide)
  · exact .of_complete (runStages_of_raised hr _) (by decide)
  · obtain ⟨x, -, heq⟩ := exec_encode_eq_serialize hcap hne
    obtain ⟨t, ht, -⟩ := serialize_endsWith (s.counted.built.generated (x.codes []))
    have henc : exec .encode s = .next t := heq.trans ht
    refine ⟨t, henc, ?_⟩
    rcases exec_encode_cases henc with rfl | rfl | ⟨leaves, rfl | rfl⟩ <;> rw [State.complete_errCode] <;> decide

theorem buildDecodeTree_endsWith (s : State) : EndsWith .buildDecodeTree s (resultCodes .buildDecodeTree) := by
  rcases buildDecodeTreeStage_cases s with ⟨hbad, -⟩ | ⟨hp, hn, -⟩
  · exact .of_complete (exec_buildDecodeTree_invalid hbad) (by decide)
  · exact .of_complete (exec_buildDecodeTree hp hn) (by decide)

/-- R155: where TRIE is valid DESERIALIZE ends with OK, LENGTH, NO_CODES or TEXT_OVERFLOW. -/
theorem deserialize_endsWith_of_trieValid (hv : s.status.trieValid = true) :
    EndsWith .deserialize s [0#8, 2#8, 8#8, 9#8] := by
  rcases deserializeStage_cases s with ⟨h0, -⟩ | ⟨-, hlong, -⟩ | ⟨-, -, he, hz, -⟩ | ⟨-, hb, he, hz, -⟩ |
    ⟨-, hb, he, hover, -⟩ | ⟨-, hb, he, hfit, -⟩
  · exact absurd hv (by simp [h0])
  · exact .of_complete (exec_deserialize_long hv hlong) (by decide)
  · exact .of_complete (exec_deserialize_empty hv he hz) (by decide)
  · exact .of_complete (exec_deserialize_noCodes hv hb he hz) (by decide)
  · exact .of_complete (exec_deserialize_overflow hv hb he hover) (by decide)
  · exact .of_complete (exec_deserialize hv hb he hfit) (by decide)

theorem deserialize_endsWith (s : State) : EndsWith .deserialize s (resultCodes .deserialize) := by
  cases hv : s.status.trieValid with
  | false => exact .of_complete (exec_deserialize_noTrie hv) (by decide)
  | true => exact (deserialize_endsWith_of_trieValid hv).mono (by decide)

/-- R161: DECODE ends with TABLE_INVALID, or as DESERIALIZE does where BUILD_DECODE_TREE has made TRIE valid. -/
theorem decode_endsWith (s : State) : EndsWith .decode s (resultCodes .decode) := by
  rcases buildDecodeTreeStage_cases s with ⟨-, hr⟩ | ⟨hp, hn, -⟩
  · exact .of_complete (runStages_of_raised hr _) (by decide)
  · have hdec : EndsWith .decode s [0#8, 2#8, 8#8, 9#8] := by
      rw [EndsWith, exec_decode_eq_deserialize hp hn]
      exact deserialize_endsWith_of_trieValid s.captured_trieValid
    exact hdec.mono (by decide)

/-- Every command ends with a code of its own; GEN_CODES on the walk's condition. -/
theorem exec_endsWith (i : Instr) (hw : i = .genCodes → s.status.treeValid = true → s.WalkEnds) :
    EndsWith i s (resultCodes i) := by
  cases i with
  | nop => exact .of_complete (exec_nop s) (by decide)
  | clear => exact .of_complete (exec_clear s) (by decide)
  | countFreq => exact countFreq_endsWith s
  | buildTree => exact buildTree_endsWith s
  | genCodes => exact genCodes_endsWith (hw rfl)
  | serialize => exact serialize_endsWith s
  | encode => exact encode_endsWith s
  | buildDecodeTree => exact buildDecodeTree_endsWith s
  | deserialize => exact deserialize_endsWith s
  | decode => exact decode_endsWith s

/-- Settles O10: every command but GEN_CODES ends with a code of its own in every state (`exec_endsWith`), and a
GEN_CODES that answers a next state ends with OK or NO_TREE. -/
theorem commandsRaiseOnlyTheirOwnCodes : Obligations.CommandsRaiseOnlyTheirOwnCodes := by
  intro i s t h
  by_cases hi : i = .genCodes
  · subst hi
    rcases exec_genCodes_next h with ⟨leaves, rfl⟩ | rfl <;> rw [State.complete_errCode] <;> decide
  · obtain ⟨u, hu, hc⟩ := exec_endsWith (s := s) i fun h0 => absurd h0 hi
    obtain rfl : u = t := Host.Outcome.next.inj (hu.symm.trans h)
    exact hc

/-! ### No step stops the machine (R180, R188) -/

/-- R113: a completion answers a next state, whatever word is in LAST_CMD. -/
theorem completeStep_answers (hw : s.status.treeValid = true → s.WalkEnds) : ∃ t, completeStep s = .next t := by
  unfold completeStep
  split
  case h_1 i _ =>
    obtain ⟨t, ht, -⟩ := exec_endsWith i fun _ => hw
    exact ⟨t, ht⟩
  case h_2 => exact ⟨_, rfl⟩

/-- Settles O60: after the first reset the host's turn always answers, and so does a completion, where the tree of the
invariant ends the walk of GEN_CODES. -/
theorem noStepStopsTheMachine : Obligations.NoStepStopsTheMachine := by
  intro s hinv
  have hr := hinv.hasReset
  cases hb : s.status.busy with
  | false => exact ⟨_, step_of_idle hr hb⟩
  | true =>
    by_cases hdue : s.master.script = [] ∨ s.latency = 0
    · rw [step_of_due hr hb hdue]
      exact completeStep_answers hinv.walk
    · obtain ⟨hscript, hlatency⟩ := not_or.1 hdue
      exact ⟨_, step_of_latency hr hb hscript hlatency⟩

/-! ### The interrupt output (R192) -/

/-- R192: a write of STATUS with bit 1 set clears DONE and so the level. -/
theorem State.irq_writeStatus (s : State) (v : Word) :
    (s.writeRegion (.reg .status) v).irq = (s.irq && !v.getLsbD 1) :=
  (Bool.and_assoc s.irqEn s.status.done (!v.getLsbD 1)).symm

/-- R190: a completed command has set DONE, so the level is IRQ_EN, which it keeps. -/
theorem exec_irq {t : State} (h : exec i s = .next t) : t.irq = s.irqEn := by
  obtain ⟨hirqEn, -⟩ := commandsKeepHostAndControlState i s t h
  obtain ⟨-, hdone, -⟩ := failedCommandChangesOnlyItsResult i s t h
  rw [State.irq, hirqEn, hdone, Bool.and_true]

/-- Settles O27: CTRL and STATUS take their writes whether the block is busy or not (R75), and a command ends as
`exec_irq` says. -/
theorem interruptFollowsEnableAndDone : Obligations.InterruptFollowsEnableAndDone := by
  refine ⟨fun s => Bool.and_eq_true_iff, fun s v => ⟨?_, ?_⟩, fun i s t h => exec_irq h⟩
  · rw [s.busWrite_of_region rfl (r := .reg .ctrl) rfl (.inr rfl)]
    rfl
  · rw [s.busWrite_of_region rfl (r := .reg .status) rfl (.inr rfl), s.irq_writeStatus]

end Sys2Proof.Machine
end

section
/-! PROOFS. The completion step of a running command (R235, R236): it is reached after at most as many turns of the host as
the latency says, whatever the host's operations are, unless one of them is a reset (R222). -/

namespace Sys2Proof.Machine

/-! ### What stays while a command executes -/

/-- The block, once reset, executes the word `w` with `n` turns of the host left (R235), and the host will not reset it. -/
structure State.Executes (s : State) (w : Word) (n : Nat) : Prop where
  hasReset : s.hasReset = true
  busy : s.status.busy = true
  lastCmd : s.lastCmd = w
  latency : s.latency = n
  noReset : HostOp.reset ∉ s.master.script

variable {s : State} {w : Word} {n : Nat}

/-- No operation adds a reset to the host's script; a `wait` or a `waitIrq` may keep the script as it is. -/
theorem State.perform_noReset {op : HostOp} {rest : List HostOp} (hs : HostOp.reset ∉ s.master.script)
    (hrest : HostOp.reset ∉ rest) : HostOp.reset ∉ (s.perform op rest).master.script := by
  by_cases hacc : op.accesses = false
  · by_cases hreset : op = .reset
    · subst hreset
      exact hrest
    · obtain ⟨script, hp, hmem⟩ := s.perform_of_no_access rest hacc hreset
      rw [hp]
      intro hin
      rcases hmem _ hin with hin | hin | ⟨off, hread⟩
      · exact hs hin
      · exact hrest hin
      · cases hread
  · cases op with
    | wait =>
      rw [State.perform_wait]
      split
      · exact hs
      · exact hrest
    | read | write | expect => exact hrest
    | _ => exact absurd rfl hacc

/-- R76, R77: a turn of the host leaves the running command as it is, with one turn less to come. -/
theorem State.Executes.host_turn (h : s.Executes w (n + 1)) (hs : s.master.script ≠ []) :
    ∃ t, step s = .next t ∧ t.Executes w n := by
  obtain ⟨hr, hb, hw, hl, hno⟩ := h
  obtain ⟨op, rest, hscript⟩ := List.exists_cons_of_ne_nil hs
  obtain ⟨hop, hrest⟩ := List.ne_and_not_mem_of_not_mem_cons (hscript ▸ hno)
  have hnext : step s = .next (s.countTurn.perform op rest) := by
    rw [step_of_latency hr hb hs (by omega), State.hostTurn_cons (s := s.countTurn) hscript]
  have hnoReset := State.perform_noReset (s := s.countTurn) (op := op) hno hrest
  obtain ⟨e, d, o, m, draws, hp⟩ := hostCannotChangeARunningCommandsInputs s.countTurn op rest hb hop.symm
  rw [hp] at hnext hnoReset
  exact ⟨_, hnext, hr, hb, hw, Nat.sub_eq_of_eq_add hl, hnoReset⟩

/-- The completion is due at once where the host's script is empty or no turn is left; else after one turn more. -/
theorem State.Executes.comes_to_completion (h : s.Executes w n) :
    ∃ k t, k ≤ n ∧ Runs k s t ∧ t.completionDue = true ∧ t.lastCmd = w := by
  induction n generalizing s with
  | zero => exact ⟨0, s, le_rfl, .zero s, s.completionDue_iff.2 ⟨h.hasReset, h.busy, .inr h.latency⟩, h.lastCmd⟩
  | succ n ih =>
    by_cases hs : s.master.script = []
    · exact ⟨0, s, Nat.zero_le _, .zero s, s.completionDue_iff.2 ⟨h.hasReset, h.busy, .inl hs⟩, h.lastCmd⟩
    · obtain ⟨u, hu, hexec⟩ := h.host_turn hs
      obtain ⟨k, t, hk, hrun, hdue⟩ := ih hexec
      exact ⟨k + 1, t, Nat.succ_le_succ hk, Runs.succ_iff.2 ⟨u, hu, hrun⟩, hdue⟩

/-- Settles O7, by induction on the turns left (`State.Executes.comes_to_completion`). -/
theorem runningCommandComesToCompletion : Obligations.RunningCommandComesToCompletion :=
  fun _ hr hb hno => State.Executes.comes_to_completion ⟨hr, hb, rfl, rfl, hno⟩

end Sys2Proof.Machine
end
